-- ==== Sys2Proof/Word.lean ====
section
/-! DEFINITION. The words of the block: glyph bytes, frames, command words, GPIO words, line levels and the canonical
sparse store that the glyph store and the GPIO window are kept in. Everything is unsigned (00_scope R8). -/

namespace Sys2Proof

/-- A glyph, a register id, a slot index, `length`, `cursor` (10_state R12 to R14, 30_encoding R64). -/
abbrev Byte := BitVec 8

/-- A `WIRE16` frame or a response word (30_encoding R61, R68). -/
abbrev Word16 := BitVec 16

/-- A `CMD24` command word (30_encoding R65). -/
abbrev Word24 := BitVec 24

/-- A word of the GPIO window (20_memory R44). -/
abbrev Word32 := BitVec 32

/-- The three lines of the serial link (00_scope R9). -/
inductive Line where
  | load
  | clk
  | din
deriving DecidableEq, Repr, Inhabited

/-- The electrical level of an output (10_state R27, R32): `unknown` before anything has driven it. -/
inductive Level where
  | lo
  | hi
  | unknown
deriving DecidableEq, Repr, Inhabited

/-- The level a driven bit gives: set is 1, clear is 0 (41_wire_transport R103). -/
def Level.ofBool : Bool → Level
  | false => .lo
  | true => .hi

/-- A sparse store: (address, value) pairs, addresses strictly rising, no entry equal to what an unlisted address reads
as. -/
abbrev Store (α : Type) := List (Nat × α)

end Sys2Proof
end

