-- ==== Sys2Proof/Config.lean ====
section
/-! DEFINITION. What is fixed for a run: the implementation parameters of 00_scope R7 and the free values the environment
supplies. The parameters are a record, so that every statement ranges over all of them; the open platform the machine is
built with stands beside the configuration check, in Machine/Platform.lean. -/

namespace Sys2Proof

/-- Which bit-bang backend (41_wire_transport R100). -/
inductive Backend where
  | devnode
  | mmio
deriving DecidableEq, Repr, Inhabited

/-- One row of the static GPIO table (00_scope R7): a logical pin number, its function-select register and field shift,
its set register, its clear register and its bit in both. -/
structure PinRow where
  pin : Nat
  fselOff : Nat
  fselShift : Fin 30
  setOff : Nat
  clrOff : Nat
  levelBit : Fin 32
deriving DecidableEq, Repr, Inhabited

/-- The open parameters of 00_scope R7. `glyph` is the uninterpreted character table (43_text_compile R157), listed by
character; `gpioLeft` is what the platform left in the function-select registers (10_state R30, 70_reset R202), listed by
offset; `otherPins` are the rows of the GPIO pins that are not the block's. -/
structure Params where
  backend : Backend
  digitReg : Vector Byte 8
  regScanlimit : Byte
  regDecode : Byte
  regIntensity : Byte
  regShutdown : Byte
  regTest : Byte
  decodeOff : Byte
  shutdownOff : Byte
  shutdownOn : Byte
  testOff : Byte
  testOn : Byte
  dpMask : Byte
  glyph : List (Char × Byte)
  loadPin : PinRow
  clkPin : PinRow
  dinPin : PinRow
  otherPins : List PinRow
  loadAssertLevel : Bool
  gpioBase : Nat
  gpioSize : Nat
  fselOut : BitVec 3
  gpioLeft : List (Nat × Word32)
  tSettle : Nat
  tChipMin : Nat
deriving DecidableEq, Repr, Inhabited

/-- Who takes the next step (10_state R10): the host, the sequencer, the wire engine, the sleep timer, or another GPIO
user writing word `w` at offset `off` of the window. -/
inductive Turn where
  | host
  | rl
  | wt
  | wake
  | gpio (off : Nat) (w : Word32)
deriving DecidableEq, Repr, Inhabited

/-- The capacity `C` of a ScrollBuffer (00_scope R7). -/
def Config.capacity : Nat := 128

/-- The glyph with no segment lit; also a cleared slot (00_scope R7). -/
def Config.glyphBlank : Byte := 0x00#8

/-- The nominal sleep between cycles in milliseconds (00_scope R7); no rule computes with it (42_refresh R140). -/
def Config.tSleepMs : Nat := 500

/-- `INIT_OK` where the environment has lined up no draw (93_implementation_defined U17). -/
opaque Config.freeInitOk : Nat → Bool

/-- `XFAIL` where the environment has lined up no draw (93_implementation_defined U17). -/
opaque Config.freeXfail : Nat → Bool

/-- Who moves where the schedule is used up (20_memory R50, 93_implementation_defined U16). -/
opaque Config.freeTurn : Nat → Turn

end Sys2Proof
end

