-- ==== Sys2Proof/Syntax.lean ====
section
/-! DEFINITION. The commands of spec/opcode_table.json, one constructor per row (30_encoding R66), what can stand at the
host's two ports, and the host's moves. -/

namespace Sys2Proof

/-- A command (00_scope R6). The operands are those of 30_encoding R66 and R67: all unsigned, used as they stand. -/
inductive Instr where
  /-- `WT.INIT` (41_wire_transport R101). -/
  | wtInit
  /-- `WT.SEND reg, val` (41_wire_transport R106). -/
  | wtSend (reg val : Byte)
  /-- `WT.CLOSE` (41_wire_transport R113). -/
  | wtClose
  /-- `SB.RESET` (40_scrollbuffer R80). -/
  | sbReset
  /-- `SB.APPEND g` (40_scrollbuffer R81). -/
  | sbAppend (g : Byte)
  /-- `SB.ORLAST m` (40_scrollbuffer R82). -/
  | sbOrlast (m : Byte)
  /-- `SB.COMMIT` (40_scrollbuffer R86). -/
  | sbCommit
  /-- `SB.ADVANCE a, i`: `a` is the bank select, true for the active bank (40_scrollbuffer R84). -/
  | sbAdvance (a : Bool) (i : Byte)
  /-- `SB.READ a, i` (40_scrollbuffer R87). -/
  | sbRead (a : Bool) (i : Byte)
  /-- `RL.STOP` (42_refresh R142). -/
  | rlStop
  /-- `WT.WRITE2 b`: one write of the byte string `b` at the byte port (41_wire_transport R112). -/
  | wtWrite2 (b : List Byte)
deriving DecidableEq, Repr

/-- What the host presents: a word at the command port (30_encoding R65) or a byte string at the byte port (R63). -/
inductive Request where
  | cmd (w : Word24)
  | bytes (b : List Byte)
deriving DecidableEq, Repr

/-- A `TEXT` after its `SB.RESET`: the characters not dealt with yet, and the host state of 43_text_compile R151. -/
structure Compile where
  left : List Char
  /-- Slot 0 holds a dot-only glyph that the next character's glyph must merge into. -/
  lead : Bool
  /-- An append was refused. -/
  full : Bool
  /-- `EncodingFailure` of the first character left has been raised (R154). -/
  reported : Bool
deriving DecidableEq, Repr

/-- A move of the host: present a request, report `EncodingFailure` of a character on the diagnostic channel
(43_text_compile R154), go on with a compile, one command at a time (R151), or leave out the next `n` moves if the newest
response reports an error (the `stop if it fails` of 70_reset R205; log 23). -/
inductive HostMove where
  | present (r : Request)
  | report (ch : Char)
  | compile (c : Compile)
  | stopIfFailed (n : Nat)
deriving DecidableEq, Repr

end Sys2Proof
end

