-- ==== Sys2Proof/WellFormed.lean ====
section
/-! DEFINITION. Which commands have an encoding. Every operand field is as wide as its type, so the one thing left to
check is the length of a byte-port write (30_encoding R63). -/

namespace Sys2Proof

/-- A byte-port write carries exactly one frame: two bytes (30_encoding R63). -/
def Instr.wellFormed : Instr → Bool
  | .wtInit => true
  | .wtSend _ _ => true
  | .wtClose => true
  | .sbReset => true
  | .sbAppend _ => true
  | .sbOrlast _ => true
  | .sbCommit => true
  | .sbAdvance _ _ => true
  | .sbRead _ _ => true
  | .rlStop => true
  | .wtWrite2 b => b.length == 2

end Sys2Proof
end

