-- ==== Sys2Proof/Decode.lean ====
section
/-! DEFINITION. The decoder (30_encoding R65 to R67, R69 step 1, R63) and, after it, the encoder. Total; what it rejects it
rejects by name. -/

namespace Sys2Proof

/-- Why a request is no command. -/
inductive DecodeError where
  /-- A reserved `op`, or an operand bit that must be 0 is 1 (30_encoding R69 step 1). -/
  | illegalCommand (w : Word24)
  /-- A byte-port write of a length other than 2 (30_encoding R63). -/
  | badLength (n : Nat)
deriving DecidableEq, Repr

/-- `op` = bits 23:16 of a command word (30_encoding R65). -/
def opField (w : Word24) : Byte := w.extractLsb' 16 8

/-- `arg` = bits 15:0 of a command word (30_encoding R65). -/
def argField (w : Word24) : Word16 := w.extractLsb' 0 16

/-- `arg[15:8]`: `reg` of `WT.SEND`; must be 0 for `SB.APPEND` and `SB.ORLAST` (30_encoding R67). -/
def argHigh (w : Word24) : Byte := w.extractLsb' 8 8

/-- `arg[7:0]`: the value, glyph, mask or index (30_encoding R67). -/
def argLow (w : Word24) : Byte := w.extractLsb' 0 8

/-- `arg[15]`: the bank select of the query commands (30_encoding R67). -/
def argBank (w : Word24) : Bool := w.getLsbD 15

/-- `arg[14:8]`: must be 0 for the query commands (30_encoding R67). -/
def argQueryZero (w : Word24) : BitVec 7 := w.extractLsb' 8 7

/-- Decoding a command word: the opcode map of 30_encoding R66 with the must-be-zero bits of R67. -/
def decodeCmd (w : Word24) : Except DecodeError Instr :=
  if opField w = 0x01#8 then
    if argField w = 0 then .ok .wtInit else .error (.illegalCommand w)
  else if opField w = 0x02#8 then .ok (.wtSend (argHigh w) (argLow w))
  else if opField w = 0x03#8 then
    if argField w = 0 then .ok .wtClose else .error (.illegalCommand w)
  else if opField w = 0x10#8 then
    if argField w = 0 then .ok .sbReset else .error (.illegalCommand w)
  else if opField w = 0x11#8 then
    if argHigh w = 0 then .ok (.sbAppend (argLow w)) else .error (.illegalCommand w)
  else if opField w = 0x12#8 then
    if argHigh w = 0 then .ok (.sbOrlast (argLow w)) else .error (.illegalCommand w)
  else if opField w = 0x13#8 then
    if argField w = 0 then .ok .sbCommit else .error (.illegalCommand w)
  else if opField w = 0x14#8 then
    if argQueryZero w = 0 then .ok (.sbAdvance (argBank w) (argLow w)) else .error (.illegalCommand w)
  else if opField w = 0x15#8 then
    if argQueryZero w = 0 then .ok (.sbRead (argBank w) (argLow w)) else .error (.illegalCommand w)
  else if opField w = 0x20#8 then
    if argField w = 0 then .ok .rlStop else .error (.illegalCommand w)
  else .error (.illegalCommand w)

/-- Decoding a byte-port write: exactly 2 bytes, or rejected whole (30_encoding R63). -/
def decodeBytes (b : List Byte) : Except DecodeError Instr :=
  if b.length = 2 then .ok (.wtWrite2 b) else .error (.badLength b.length)

/-- The port tells the format (30_encoding R60). -/
def decodeRequest : Request → Except DecodeError Instr
  | .cmd w => decodeCmd w
  | .bytes b => decodeBytes b

/-- A command word from its `op` and `arg` (30_encoding R65). -/
def cmdWord (op : Byte) (arg : Word16) : Word24 := op ++ arg

/-- The operand of the query commands: the bank select in bit 15, the index in bits 7:0 (30_encoding R67). -/
def queryArg (a : Bool) (i : Byte) : Word16 := (BitVec.ofBool a ++ 0#7) ++ i

/-- The encoder: what the host presents for a command (30_encoding R65 to R67; R63 for the byte port). -/
def encode : Instr → Request
  | .wtInit => .cmd (cmdWord 0x01#8 0)
  | .wtSend reg val => .cmd (cmdWord 0x02#8 (reg ++ val))
  | .wtClose => .cmd (cmdWord 0x03#8 0)
  | .sbReset => .cmd (cmdWord 0x10#8 0)
  | .sbAppend g => .cmd (cmdWord 0x11#8 (0#8 ++ g))
  | .sbOrlast m => .cmd (cmdWord 0x12#8 (0#8 ++ m))
  | .sbCommit => .cmd (cmdWord 0x13#8 0)
  | .sbAdvance a i => .cmd (cmdWord 0x14#8 (queryArg a i))
  | .sbRead a i => .cmd (cmdWord 0x15#8 (queryArg a i))
  | .rlStop => .cmd (cmdWord 0x20#8 0)
  | .wtWrite2 b => .bytes b

/-- One row of spec/opcode_table.json whose format is `CMD24`: a word belongs to the row when its masked bits are the
row's match. -/
structure OpcodeRow where
  mnemonic : String
  matchBits : Word24
  maskBits : Word24
deriving DecidableEq, Repr

/-- Whether a word belongs to a row. -/
def OpcodeRow.hits (r : OpcodeRow) (w : Word24) : Bool := w &&& r.maskBits == r.matchBits

/-- The ten `CMD24` rows of spec/opcode_table.json. -/
def opcodeRows : List OpcodeRow :=
  [ ⟨"WT.INIT", 0x010000#24, 0xFFFFFF#24⟩,
    ⟨"WT.SEND", 0x020000#24, 0xFF0000#24⟩,
    ⟨"WT.CLOSE", 0x030000#24, 0xFFFFFF#24⟩,
    ⟨"SB.RESET", 0x100000#24, 0xFFFFFF#24⟩,
    ⟨"SB.APPEND", 0x110000#24, 0xFFFF00#24⟩,
    ⟨"SB.ORLAST", 0x120000#24, 0xFFFF00#24⟩,
    ⟨"SB.COMMIT", 0x130000#24, 0xFFFFFF#24⟩,
    ⟨"SB.ADVANCE", 0x140000#24, 0xFF7F00#24⟩,
    ⟨"SB.READ", 0x150000#24, 0xFF7F00#24⟩,
    ⟨"RL.STOP", 0x200000#24, 0xFFFFFF#24⟩ ]

/-- The row name of a command. -/
def Instr.mnemonic : Instr → String
  | .wtInit => "WT.INIT"
  | .wtSend _ _ => "WT.SEND"
  | .wtClose => "WT.CLOSE"
  | .sbReset => "SB.RESET"
  | .sbAppend _ => "SB.APPEND"
  | .sbOrlast _ => "SB.ORLAST"
  | .sbCommit => "SB.COMMIT"
  | .sbAdvance _ _ => "SB.ADVANCE"
  | .sbRead _ _ => "SB.READ"
  | .rlStop => "RL.STOP"
  | .wtWrite2 _ => "WT.WRITE2"

/-- The request an opcode-table row's bits stand for: a `BYTES2` row has 16 bits, byte 0 of the write in bits 15:8 and
byte 1 in bits 7:0, as the table numbers them (log 14); every other row is a command word. -/
def tableRequest (nbits w : Nat) : Request :=
  if nbits = 16 then .bytes [(BitVec.ofNat 16 w).extractLsb' 8 8, (BitVec.ofNat 16 w).extractLsb' 0 8]
  else .cmd (BitVec.ofNat 24 w)

/-- The command the decoder reads from a table word. -/
def decodeTableWord (nbits w : Nat) : Option Instr :=
  match decodeRequest (tableRequest nbits w) with
  | .ok i => some i
  | .error _ => none

end Sys2Proof
end

