-- ==== Sys2Proof/Machine/Platform.lean ====
section
/-! DEFINITION. Reading the parameters: the rows of the static GPIO table, the character table, the configuration check
(20_memory R46, 93_implementation_defined U20), and a platform, which is a parameter set that passes it. -/

namespace Sys2Proof

namespace Params

/-- The row of a line's pin. -/
def row (p : Params) : Line → PinRow
  | .load => p.loadPin
  | .clk => p.clkPin
  | .din => p.dinPin

/-- The rows of the block's own pins. -/
def ownPins (p : Params) : List PinRow := [p.loadPin, p.clkPin, p.dinPin]

/-- The whole static table. -/
def pins (p : Params) : List PinRow := p.ownPins ++ p.otherPins

/-- The address on the platform's bus of an offset of the window (20_memory R40). -/
def busAddress (p : Params) (off : Nat) : Nat := p.gpioBase + off

/-- The glyph of a character, where the table has one. -/
def glyphOf (p : Params) (ch : Char) : Option Byte := p.glyph.lookup ch

/-- An offset the block may use: a whole aligned word inside the window (20_memory R46). -/
def offsetOk (p : Params) (off : Nat) : Bool := off % 4 == 0 && off + 4 ≤ p.gpioSize

/-- Exactly one bit of the decimal-point mask is set (00_scope R7). -/
def dpMaskOk (p : Params) : Bool := (List.range 8).countP (fun i => p.dpMask.getLsbD i) == 1

/-- Two function fields that do not overlap (41_wire_transport R102: each pin has a field of its own). -/
def fieldsApart (r q : PinRow) : Bool :=
  r.fselOff != q.fselOff || r.fselShift.val + 3 ≤ q.fselShift.val || q.fselShift.val + 3 ≤ r.fselShift.val

/-- Two rows no access of which touches the other's pin: different fields, different strobe bits, and no register of two
kinds (10_state R30, R31; 20_memory R47: a strobe of one pin has the single effect on that pin). -/
def rowsApart (r q : PinRow) : Bool :=
  r.pin != q.pin && fieldsApart r q
    && (r.setOff != q.setOff || r.levelBit != q.levelBit)
    && (r.clrOff != q.clrOff || r.levelBit != q.levelBit)
    && r.fselOff != q.setOff && r.fselOff != q.clrOff && r.setOff != q.fselOff && r.setOff != q.clrOff
    && r.clrOff != q.fselOff && r.clrOff != q.setOff

/-- A row whose three registers are three registers. -/
def rowOk (p : Params) (r : PinRow) : Bool :=
  p.offsetOk r.fselOff && p.offsetOk r.setOff && p.offsetOk r.clrOff
    && r.fselOff != r.setOff && r.fselOff != r.clrOff && r.setOff != r.clrOff

/-- Every two entries of a list pass a check. -/
def allPairs {α : Type} (f : α → α → Bool) : List α → Bool
  | [] => true
  | a :: l => l.all (f a) && allPairs f l

/-- The configuration check of 20_memory R46 and 93_implementation_defined U20, with the obligation of 70_reset R211:
a parameter set that fails it is refused. -/
def ok (p : Params) : Bool :=
  p.pins.all p.rowOk && allPairs rowsApart p.pins && p.dpMaskOk && decide (p.tChipMin < p.tSettle)

/-- A parameter set that passes the check, with the map of 95_test_vectors V-M7: it shows that the check is no empty one. -/
def sample : Params where
  backend := .mmio
  digitReg := #v[0x01, 0x02, 0x03, 0x04, 0x05, 0x06, 0x07, 0x08]
  regScanlimit := 0x0B
  regDecode := 0x09
  regIntensity := 0x0A
  regShutdown := 0x0C
  regTest := 0x0F
  decodeOff := 0x00
  shutdownOff := 0x00
  shutdownOn := 0x01
  testOff := 0x00
  testOn := 0x01
  dpMask := 0x80
  glyph := []
  loadPin := { pin := 8, fselOff := 0x00, fselShift := 24, setOff := 0x1C, clrOff := 0x28, levelBit := 8 }
  clkPin := { pin := 11, fselOff := 0x04, fselShift := 3, setOff := 0x1C, clrOff := 0x28, levelBit := 11 }
  dinPin := { pin := 10, fselOff := 0x04, fselShift := 0, setOff := 0x1C, clrOff := 0x28, levelBit := 10 }
  otherPins := []
  loadAssertLevel := true
  gpioBase := 0
  gpioSize := 0x1000
  fselOut := 1#3
  gpioLeft := []
  tSettle := 2
  tChipMin := 1

end Params

/-- A platform: a parameter set with the proof that it passes the configuration check. The block is defined for no other
(20_memory R46), so no state of the machine holds a set that the check refuses. -/
structure Platform extends Params where
  good : toParams.ok = true
deriving DecidableEq, Repr

/-- The platform a machine is built with, given that there are platforms: open (93_implementation_defined U24). -/
opaque Config.platformOf [Inhabited Platform] : Platform

/-- The platform this machine is built with: an open one. The sample only shows that there are platforms; nothing says that
it is the one. -/
def Config.platform : Platform := @Config.platformOf ⟨{ toParams := Params.sample, good := by decide }⟩

end Sys2Proof
end

