-- ==== Sys2Proof/Machine/State.lean ====
section
/-! DEFINITION. The state of the block (10_state R37, with R32), its histories and its environment inputs as plain data;
the faults and refusals; the state after power-on reset (70_reset R201). -/

namespace Sys2Proof.Machine

/-- The glyph store of one bank: (slot, byte) pairs in canonical form, an unlisted slot reading `0x00` (10_state R12). -/
abbrev Memory := List Host.Cell

/-- One ScrollBuffer (10_state R11 to R14). `length` is the write pointer, `cursor` the persistent read pointer. -/
structure Bank where
  data : Memory
  length : Byte
  cursor : Byte
deriving DecidableEq, Repr

/-- A bank as `SB.RESET` leaves it (40_scrollbuffer R80). -/
def Bank.empty : Bank := { data := [], length := 0, cursor := 0 }

/-- `rph`, the sequencer's phase register (10_state R17). -/
inductive RlPhase where
  | rIdle
  | rBegin
  | rIssue
  | rWait
  | rNext
  | rEnd
  | rSleep
  | rHalted
deriving DecidableEq, Repr

/-- `fph`, the wire engine's phase register (10_state R25). -/
inductive FramePhase where
  | fIdle
  | fLoadA
  | fClkLo
  | fDin
  | fDly1
  | fClkHi
  | fDly2
  | fLoadD
  | fLoadR
deriving DecidableEq, Repr

/-- `iph`, the initialisation phase 0..6 (10_state R38): no initialisation, then the read and the write of each pin's
function field in the order LOAD, CLK, DIN (41_wire_transport R101). -/
inductive InitPhase where
  | none0
  | readLoad1
  | writeLoad2
  | readClk3
  | writeClk4
  | readDin5
  | writeDin6
deriving DecidableEq, Repr

/-- `wst`, the transport's resource state (10_state R22). -/
inductive WtState where
  | uninit
  | ready
  | closed
deriving DecidableEq, Repr

/-- `sess`, the DisplaySession state (10_state R29). -/
inductive Session where
  | uninit
  | ready
  | destroyed
deriving DecidableEq, Repr

/-- `fown`, who asked for the frame in flight (10_state R26). -/
inductive Owner where
  | host
  | rl
deriving DecidableEq, Repr

/-- The levels of the three lines, `pin[LOAD]`, `pin[CLK]`, `pin[DIN]` (10_state R27); under MMIO they are also the
output latches of the block's pins (R32). -/
structure Lines where
  load : Level
  clk : Level
  din : Level
deriving DecidableEq, Repr

/-- An event of the wire trace (10_state R28). -/
inductive WireEvent where
  | pin (l : Line) (level : Bool)
  | delay
deriving DecidableEq, Repr

/-- One access of the block on the GPIO bus: offset and word (10_state R35). -/
inductive BusAccess where
  | read (off : Nat) (w : Word32)
  | write (off : Nat) (w : Word32)
deriving DecidableEq, Repr

/-- A diagnostic event with its recorded information (60_exceptions R171). -/
inductive Diag where
  | initializationFailure (b : Backend)
  | encodingFailure (ch : Char)
  | boundsViolation (i : Byte)
  /-- A frame dropped whole: the information is the frame. -/
  | transportFailure (f : Word16)
  /-- A byte-port write of a wrong length: the information is the length. -/
  | transportLength (n : Nat)
  | bufferFull (g : Byte)
  | illegalCommand (w : Word24)
  /-- The information is the `op`; a byte-port write has none (30_encoding R66; log 13). -/
  | badState (op : Option Byte)
deriving DecidableEq, Repr

/-- Everything the spec gives the block, then the model's own fields. -/
structure State where
  /-- The parameters of 00_scope R7, with the proof that they pass the configuration check of 20_memory R46: fixed for a
  run, changed by no step (log 1). -/
  cfg : Platform
  /-- `sb[0]` and `sb[1]`. -/
  bank0 : Bank
  bank1 : Bank
  /-- `act`: false names bank 0, true bank 1 (10_state R15). -/
  act : Bool
  rph : RlPhase
  pos : BitVec 3
  idx : Byte
  stopReq : Bool
  wst : WtState
  sh : Word16
  bitn : BitVec 4
  fph : FramePhase
  fown : Owner
  iph : InitPhase
  ftmp : Word32
  sess : Session
  lines : Lines
  /-- The function-select registers, canonical; an unlisted offset reads what the platform left (10_state R30). -/
  fsel : List (Nat × Word32)
  /-- The output latches of the other pins, by pin number, canonical; an unlisted pin is `unknown` (10_state R32). -/
  out : List (Nat × Level)
  trace : List WireEvent
  frames : List (Byte × Byte)
  diag : List Diag
  /-- The response words handed back, in order (30_encoding R68; log 12). -/
  responses : List Word16
  /-- The block's accesses on the GPIO bus, in order (log 12). -/
  bus : List BusAccess
  /-- What the host does next, in order (log 3). -/
  hostq : List HostMove
  /-- Who moves next (log 2). -/
  sched : List Turn
  /-- Draws of `INIT_OK` the environment has lined up (log 4). -/
  initOkIn : List Bool
  /-- Draws of `XFAIL` the environment has lined up (log 4). -/
  xfailIn : List Bool
  /-- How many free values have been taken (log 4). -/
  draws : Nat
deriving DecidableEq, Repr

/-- The machine stops with a fault. -/
inductive Fault where
  /-- An access to a glyph slot outside `0 .. C-1`, which does not exist (20_memory R40, R41). Raised by `SB.APPEND`,
  `SB.ORLAST`, `SB.READ` and the sequencer's `ISSUE` step, only in states with `length > C`, which 10_state R13 calls
  unreachable. Safe. -/
  | noSuchSlot (slot : Nat)
deriving DecidableEq, Repr

/-- No meaning. -/
inductive Refusal where
  /-- An instruction without a meaning yet, raised by `exec`'s arm; no arm of this model does. Safe. -/
  | notModelled (mnemonic : String)
  /-- A parameter set that fails the configuration check (20_memory R46, 93_implementation_defined U20), raised by
  `configure`. Safe. -/
  | badConfiguration
deriving DecidableEq, Repr

/-- The outcome of a step of this machine. -/
abbrev Result := Host.Outcome State Fault Refusal

/-- The machine right after power-on reset (70_reset R201, R202; 10_state R37). `pos`, `idx`, `sh`, `bitn`, `fown` and
`ftmp` have no reset value in the spec: DESIGN CHOICE, zero and `HOST` (log 5). -/
def State.reset : State where
  cfg := Config.platform
  bank0 := Bank.empty
  bank1 := Bank.empty
  act := false
  rph := .rIdle
  pos := 0
  idx := 0
  stopReq := false
  wst := .uninit
  sh := 0
  bitn := 0
  fph := .fIdle
  fown := .host
  iph := .none0
  ftmp := 0
  sess := .uninit
  lines := { load := .unknown, clk := .unknown, din := .unknown }
  fsel := []
  out := []
  trace := []
  frames := []
  diag := []
  responses := []
  bus := []
  hostq := []
  sched := []
  initOkIn := []
  xfailIn := []
  draws := 0

end Sys2Proof.Machine
end

