-- ==== Sys2Proof/Machine/Flags.lean ====
section
/-! DEFINITION. The block has no flags (10_state R34). In their place stand the results a command reports: the code of a
diagnostic event (60_exceptions R171) and the response word (30_encoding R68). -/

namespace Sys2Proof.Machine

/-- The number of a diagnostic event (60_exceptions R171). -/
def Diag.code : Diag → BitVec 7
  | .initializationFailure _ => 1
  | .encodingFailure _ => 2
  | .boundsViolation _ => 3
  | .transportFailure _ => 4
  | .transportLength _ => 4
  | .bufferFull _ => 5
  | .illegalCommand _ => 6
  | .badState _ => 7

/-- The `RSP16` word: `err` in bit 15, `code` in bits 14:8, `value` in bits 7:0; `err` and `code` are 0 when the command
raised no event (30_encoding R68). -/
def response (event : Option Diag) (value : Byte) : Word16 :=
  match event with
  | none => (0#1 ++ 0#7) ++ value
  | some e => (1#1 ++ e.code) ++ value

end Sys2Proof.Machine
end

