-- ==== Sys2Proof/Machine/Ops.lean ====
section
/-! DEFINITION. The named operations the meanings and the micro-steps are built from: the canonical store, the glyph
store, the GPIO window, the pins, the diagnostic channel, the response port and the environment's draws. -/

namespace Sys2Proof

/-- What a store holds at an address; `dflt` is what an unlisted address reads as. -/
def Store.read {α : Type} (dflt : Nat → α) : Store α → Nat → α
  | [], a => dflt a
  | (k, v) :: m, a => if k = a then v else Store.read dflt m a

/-- Putting a value at the head of a store, left out when it is what the address reads as unlisted. -/
def Store.put {α : Type} [DecidableEq α] (dflt : Nat → α) (a : Nat) (v : α) (m : Store α) : Store α :=
  if v = dflt a then m else (a, v) :: m

/-- Writing one address; the canonical form is kept. -/
def Store.write {α : Type} [DecidableEq α] (dflt : Nat → α) : Store α → Nat → α → Store α
  | [], a, v => Store.put dflt a v []
  | (k, x) :: m, a, v =>
    if a < k then Store.put dflt a v ((k, x) :: m)
    else if a = k then Store.put dflt a v m
    else (k, x) :: Store.write dflt m a v

/-- The canonical form: addresses strictly rising, no entry equal to what its address reads as unlisted. -/
def Store.wf {α : Type} [DecidableEq α] (dflt : Nat → α) : Store α → Bool
  | [] => true
  | (k, v) :: m => v != dflt k && m.all (fun c => decide (k < c.1)) && Store.wf dflt m

namespace Machine

/-! ### The glyph store -/

/-- What an unlisted slot reads as: the reset contents (10_state R12). -/
def Memory.unlisted (_ : Nat) : Byte := Config.glyphBlank

/-- One glyph byte (20_memory R41). -/
def Memory.read (m : Memory) (a : Nat) : Byte := Store.read Memory.unlisted m a

/-- Writing one glyph byte (20_memory R41). -/
def Memory.write (m : Memory) (a : Nat) (v : Byte) : Memory := Store.write Memory.unlisted m a v

/-- The canonical form of a glyph store, every slot inside the bank. -/
def Memory.wf (m : Memory) : Bool := Store.wf Memory.unlisted m && m.all (fun c => decide (c.1 < Config.capacity))

/-- `MemRead(GLY, (k, i), 1)` in a bank: none where the slot does not exist (20_memory R40, R41). -/
def Bank.load (b : Bank) (i : Nat) : Option Byte :=
  if i < Config.capacity then some (b.data.read i) else none

/-- `MemWrite(GLY, (k, i), 1, v)` in a bank: none where the slot does not exist (20_memory R40, R41). -/
def Bank.store (b : Bank) (i : Nat) (v : Byte) : Option Bank :=
  if i < Config.capacity then some { b with data := b.data.write i v } else none

/-- The successor of a read pointer, and the event it raises (40_scrollbuffer R83): the empty test, the bounds test, the
wrap test, in that order. -/
def Bank.advance (b : Bank) (i : Byte) : Byte × Option Diag :=
  if b.length = 0 then (i, none)
  else if b.length ≤ i then (i, some (.boundsViolation i))
  else if i = b.length - 1 then (0, none)
  else (i + 1, none)

/-- The glyph at a read pointer, and the event it raises (40_scrollbuffer R85); none where the slot does not exist. -/
def Bank.readAt (b : Bank) (i : Byte) : Option (Byte × Option Diag) :=
  if b.length = 0 then some (Config.glyphBlank, none)
  else if b.length ≤ i then some (Config.glyphBlank, some (.boundsViolation i))
  else (b.load i.toNat).map fun g => (g, none)

namespace State

/-- `sb[k]`. -/
def bank (s : State) : Bool → Bank
  | false => s.bank0
  | true => s.bank1

/-- Replacing `sb[k]`. -/
def setBank (s : State) (k : Bool) (b : Bank) : State :=
  match k with
  | false => { s with bank0 := b }
  | true => { s with bank1 := b }

/-- The active bank `sb[act]` (10_state R15). -/
def active (s : State) : Bank := s.bank s.act

/-- The shadow bank `sb[1-act]` (10_state R15). -/
def shadow (s : State) : Bank := s.bank (!s.act)

/-- Replacing the active bank. -/
def setActive (s : State) (b : Bank) : State := s.setBank s.act b

/-- Replacing the shadow bank. -/
def setShadow (s : State) (b : Bank) : State := s.setBank (!s.act) b

/-! ### Diagnostic events and responses -/

/-- `raise E(info)`: the one shared operation in the place of exception entry. It appends the event and goes on: nothing
is saved, no mode or phase changes, nothing is returned from (00_scope R8, 60_exceptions R170, R180). -/
def raise (s : State) (e : Diag) : State := { s with diag := s.diag ++ [e] }

/-- Raising the event an operation reports, if any. -/
def raiseOpt (s : State) : Option Diag → State
  | none => s
  | some e => s.raise e

/-- Handing back a response word (30_encoding R68). -/
def respond (s : State) (r : Word16) : State := { s with responses := s.responses ++ [r] }

/-- The move in hand leaves the port (30_encoding R65). -/
def accept (s : State) : State := { s with hostq := s.hostq.tail }

/-- A command that is accepted and completes in one step: it raises its event, if any, and responds with that event's
code and the value (30_encoding R65, R68; 60_exceptions R170). -/
def finish (s : State) (event : Option Diag) (value : Byte) : State :=
  (s.accept.raiseOpt event).respond (response event value)

/-- A refused command: one event, one error response, no other change (30_encoding R69). -/
def refuse (s : State) (e : Diag) : State := s.finish (some e) 0

/-! ### Draws -/

/-- `draw INIT_OK`: the next draw the environment has lined up, or a free value (00_scope R8; log 4). -/
def nextInitOk (s : State) : Bool :=
  match s.initOkIn with
  | b :: _ => b
  | [] => Config.freeInitOk s.draws

/-- The state after an `INIT_OK` draw. -/
def afterInitOk (s : State) : State :=
  match s.initOkIn with
  | _ :: r => { s with initOkIn := r }
  | [] => { s with draws := s.draws + 1 }

/-- `draw XFAIL`: the next draw the environment has lined up, or a free value (00_scope R8; log 4). -/
def nextXfail (s : State) : Bool :=
  match s.xfailIn with
  | b :: _ => b
  | [] => Config.freeXfail s.draws

/-- The state after an `XFAIL` draw. -/
def afterXfail (s : State) : State :=
  match s.xfailIn with
  | _ :: r => { s with xfailIn := r }
  | [] => { s with draws := s.draws + 1 }

/-- Who moves next: the schedule's head, or a free choice (20_memory R50; log 2). -/
def nextTurn (s : State) : Turn :=
  match s.sched with
  | t :: _ => t
  | [] => Config.freeTurn s.draws

/-- The state after the choice of who moves. -/
def afterTurn (s : State) : State :=
  match s.sched with
  | _ :: r => { s with sched := r }
  | [] => { s with draws := s.draws + 1 }

end State

/-! ### The GPIO window -/

/-- What the platform left in a function-select register (10_state R30, 70_reset R202). -/
def fselUnlisted (p : Params) (off : Nat) : Word32 := Store.read (fun _ => 0) p.gpioLeft off

/-- The output latch of a pin nothing has driven (10_state R32). -/
def latchUnlisted (_ : Nat) : Level := .unknown

/-- The offset is a function-select register of the static table (10_state R30). -/
def isFsel (p : Params) (off : Nat) : Bool := p.pins.any fun r => r.fselOff == off

/-- The offset is a set register (10_state R31). -/
def isSet (p : Params) (off : Nat) : Bool := p.pins.any fun r => r.setOff == off

/-- The offset is a clear register (10_state R31). -/
def isClr (p : Params) (off : Nat) : Bool := p.pins.any fun r => r.clrOff == off

/-- The pins a set strobe acts on: those of that register whose bit is 1 in the word (20_memory R47). -/
def setHits (off : Nat) (w : Word32) (r : PinRow) : Bool := r.setOff == off && w.getLsbD r.levelBit.val

/-- The pins a clear strobe acts on (20_memory R47). -/
def clrHits (off : Nat) (w : Word32) (r : PinRow) : Bool := r.clrOff == off && w.getLsbD r.levelBit.val

/-- The 3-bit mask of a function field (30_encoding R70). -/
def fieldMask (shift : Nat) : Word32 := 7#32 <<< shift

/-- The word the read-modify-write writes back: the field replaced, every other bit as read (41_wire_transport R102). -/
def fselWord (read : Word32) (shift : Nat) (fn : BitVec 3) : Word32 :=
  (read &&& ~~~(fieldMask shift)) ||| ((fn.setWidth 32) <<< shift)

/-- The bits of a function-select register that belong to the block's own pins. -/
def ownFields (p : Params) (off : Nat) : Word32 :=
  p.ownPins.foldl (fun m r => if r.fselOff = off then m ||| fieldMask r.fselShift.val else m) 0

/-- The strobe word of a pin: exactly one bit (20_memory R47, 30_encoding R70). -/
def strobeWord (r : PinRow) : Word32 := 1#32 <<< r.levelBit.val

/-- The latches of a list of pins under a strobe: driven where it hits, every other latch as it was (20_memory R47). -/
def strobeLatches (hits : PinRow → Bool) (v : Level) : List PinRow → Store Level → Store Level
  | [], m => m
  | r :: rs, m => strobeLatches hits v rs (if hits r then Store.write latchUnlisted m r.pin v else m)

/-- Setting one line. -/
def Lines.set (ls : Lines) (l : Line) (v : Level) : Lines :=
  match l with
  | .load => { ls with load := v }
  | .clk => { ls with clk := v }
  | .din => { ls with din := v }

/-- The level of one line. -/
def Lines.get (ls : Lines) : Line → Level
  | .load => ls.load
  | .clk => ls.clk
  | .din => ls.din

namespace State

/-- `MemRead(GPIO, off, 4)` of a function-select register; no side effect (20_memory R44, R48). -/
def fselRead (s : State) (off : Nat) : Word32 := Store.read (fselUnlisted s.cfg.toParams) s.fsel off

/-- A function-select register takes a word. -/
def fselWrite (s : State) (off : Nat) (w : Word32) : State :=
  { s with fsel := Store.write (fselUnlisted s.cfg.toParams) s.fsel off w }

/-- The three lines under a strobe: driven where it hits their pins. -/
def strobeLines (s : State) (hits : PinRow → Bool) (v : Level) : State :=
  { s with lines :=
    { load := if hits s.cfg.loadPin then v else s.lines.load
      clk := if hits s.cfg.clkPin then v else s.lines.clk
      din := if hits s.cfg.dinPin then v else s.lines.din } }

/-- The other pins under a strobe: driven where it hits them, every other latch as it was (20_memory R47). -/
def strobeOthers (s : State) (hits : PinRow → Bool) (v : Level) : State :=
  { s with out := strobeLatches hits v s.cfg.otherPins s.out }

/-- `out[p]` (10_state R32): for the block's own pins it is the line. -/
def latch (s : State) (pin : Nat) : Level :=
  if pin = s.cfg.loadPin.pin then s.lines.load
  else if pin = s.cfg.clkPin.pin then s.lines.clk
  else if pin = s.cfg.dinPin.pin then s.lines.din
  else Store.read latchUnlisted s.out pin

/-- The effect of a word written into the GPIO window (10_state R30, R31; 20_memory R47): a function-select register takes
it, a set or clear register strobes, nothing else is a register the block knows. -/
def gpioEffect (s : State) (off : Nat) (w : Word32) : State :=
  if isFsel s.cfg.toParams off then s.fselWrite off w
  else if isSet s.cfg.toParams off then (s.strobeLines (setHits off w) .hi).strobeOthers (setHits off w) .hi
  else if isClr s.cfg.toParams off then (s.strobeLines (clrHits off w) .lo).strobeOthers (clrHits off w) .lo
  else s

/-- A bus read by the block: the access is recorded (10_state R35). -/
def busRead (s : State) (off : Nat) : State := { s with bus := s.bus ++ [.read off (s.fselRead off)] }

/-- `MemWrite(GPIO, off, 4, w)` by the block (20_memory R44). -/
def busWrite (s : State) (off : Nat) (w : Word32) : State :=
  { s.gpioEffect off w with bus := s.bus ++ [.write off w] }

/-- A write by another GPIO user (10_state R10 (5), R30; 20_memory R48): it reaches other pins' fields and other pins'
latches; the fields and lines of the block's own pins keep their values, since the environment never writes them
(DEDUCED, log 10). -/
def otherGpioWrite (s : State) (off : Nat) (w : Word32) : State :=
  if isFsel s.cfg.toParams off then
    s.fselWrite off ((s.fselRead off &&& ownFields s.cfg.toParams off) ||| (w &&& ~~~(ownFields s.cfg.toParams off)))
  else if isSet s.cfg.toParams off then s.strobeOthers (setHits off w) .hi
  else if isClr s.cfg.toParams off then s.strobeOthers (clrHits off w) .lo
  else s

/-! ### The pins -/

/-- Driving a line: directly in the device-node shim, by one strobe of its pin under MMIO (41_wire_transport R104). -/
def drive (s : State) (l : Line) (level : Bool) : State :=
  match s.cfg.backend with
  | .devnode => { s with lines := s.lines.set l (Level.ofBool level) }
  | .mmio =>
    s.busWrite (if level then (s.cfg.row l).setOff else (s.cfg.row l).clrOff) (strobeWord (s.cfg.row l))

/-- Appending to the wire trace. -/
def record (s : State) (e : WireEvent) : State := { s with trace := s.trace ++ [e] }

/-- `Pin(line, level)` (41_wire_transport R103): issued even when the line already has the level. -/
def pinEvent (s : State) (l : Line) (level : Bool) : State := (s.drive l level).record (.pin l level)

/-- `Delay` (41_wire_transport R109). -/
def delayEvent (s : State) : State := s.record .delay

/-- `Pin(LOAD, assert)` or `Pin(LOAD, deassert)` (41_wire_transport R103). -/
def loadEvent (s : State) (asserted : Bool) : State :=
  s.pinEvent .load (if asserted then s.cfg.loadAssertLevel else !s.cfg.loadAssertLevel)

/-! ### Who waits -/

/-- WT is busy (10_state R25). -/
def wtBusy (s : State) : Bool := s.fph != .fIdle

/-- The sequencer is mid-cycle (10_state R17). -/
def midCycle (s : State) : Bool :=
  match s.rph with
  | .rBegin | .rIssue | .rWait | .rNext | .rEnd => true
  | .rIdle | .rSleep | .rHalted => false

/-- The host is waiting for a response: of `WT.INIT` while `iph != 0`, or of its own frame in flight (10_state R38,
41_wire_transport R106, R108). -/
def hostWaiting (s : State) : Bool := s.iph != .none0 || (s.wtBusy && s.fown == .host)

/-- Frame acceptance, `accept_frame(owner, f)` (41_wire_transport R107): whether the frame was started, and the state
after. `XFAIL` is drawn only when the transport is ready (60_exceptions R179). -/
def acceptFrame (s : State) (owner : Owner) (f : Word16) : Bool × State :=
  if s.wst != .ready then (false, s.raise (.transportFailure f))
  else if s.nextXfail then (false, s.afterXfail.raise (.transportFailure f))
  else (true, { s.afterXfail with sh := f, fown := owner, bitn := 15, fph := .fLoadA })

end State

/-- An outcome with its next state changed. -/
def mapNext (f : State → State) : Result → Result
  | .next t => .next (f t)
  | .fault r => .fault r
  | .refused r => .refused r

/-- The check of step 2 of 30_encoding R69 before a command's own rule: a destroyed session refuses the command. -/
def gate (s : State) (op : Option Byte) (rule : Result) : Result :=
  if s.sess = .destroyed then .next (s.refuse (.badState op)) else rule

/-- The configuration check (20_memory R46, 93_implementation_defined U20): a parameter set that fails it is refused; any
other is the machine after reset with those parameters. There is no other way to give a machine its parameters: a state
holds a `Platform`. -/
def configure (p : Params) : Result :=
  if h : p.ok = true then .next { State.reset with cfg := { toParams := p, good := h } } else .refused .badConfiguration

end Machine

end Sys2Proof
end

