-- ==== Sys2Proof/Machine/Compile.lean ====
section
/-! DEFINITION. The loop of `TEXT` (43_text_compile R151 to R155): what the host issues next, and what it goes on with once
it has the response. -/

namespace Sys2Proof

/-- A dot or a comma (43_text_compile R152). -/
def isDot (ch : Char) : Bool := ch == '.' || ch == ','

/-- The compile of a text, its `SB.RESET` issued (43_text_compile R151). -/
def Compile.start (text : List Char) : Compile := { left := text, lead := false, full := false, reported := false }

/-- The character in hand: the loop runs over the text while `full == 0` (43_text_compile R151). -/
def Compile.current (c : Compile) : Option Char := if c.full then none else c.left.head?

/-- The character whose `EncodingFailure` is to be raised before its blank glyph is issued (43_text_compile R154). -/
def Compile.unreported (p : Params) (c : Compile) : Option Char :=
  c.current.filter fun ch => !isDot ch && (p.glyphOf ch).isNone && !c.reported

/-- The command the loop issues for the character in hand, `n` being the shadow bank's `length`; `SB.COMMIT` after the loop
(43_text_compile R151). -/
def Compile.command (p : Params) (n : Nat) (c : Compile) : Instr :=
  match c.current with
  | none => .sbCommit
  | some ch =>
    if isDot ch then if n = 0 then .sbAppend p.dpMask else .sbOrlast p.dpMask
    else
      let g := (p.glyphOf ch).getD Config.glyphBlank
      if c.lead then .sbOrlast g else .sbAppend g

/-- The compile after the command for the character in hand: `lead` and `full` as 43_text_compile R151 has them. `refused`
says that the response was `BufferFull`; only the append of a character's own glyph looks at it. -/
def Compile.after (n : Nat) (refused : Bool) (c : Compile) (ch : Char) : Compile where
  left := c.left.tail
  lead := isDot ch && (n == 0 || c.lead)
  full := !isDot ch && !c.lead && refused
  reported := false

/-- What is left of the compile once its next command is accepted: nothing after `SB.COMMIT`. -/
def Compile.rest (n : Nat) (refused : Bool) (c : Compile) : List HostMove :=
  match c.current with
  | none => []
  | some ch => [.compile (c.after n refused ch)]

namespace Machine

/-- A response word that reports `BufferFull` (30_encoding R68, 60_exceptions R171). -/
def saysBufferFull (r : Word16) : Bool := r.getLsbD 15 && r.extractLsb' 8 7 == 5#7

/-- The newest response reports `BufferFull`. -/
def State.bufferFullAnswered (s : State) : Bool := s.responses.getLast?.any saysBufferFull

/-- The move in hand replaced by what is left of it: put back before the moves that follow. -/
def State.goOn (s : State) (left : List HostMove) : State := { s with hostq := left ++ s.hostq }

end Machine

end Sys2Proof
end

