-- ==== Sys2Proof/Machine/Operands.lean ====
section
/-! DEFINITION. Operand forms (30_encoding R67): the frame operand, the bank a query selects, and the register a digit
frame addresses (R71). -/

namespace Sys2Proof.Machine

/-- The frame: register in the high byte, value in the low byte (30_encoding R61). -/
def frameWord (reg val : Byte) : Word16 := reg ++ val

/-- The register id of a frame, `sh[15:8]` (30_encoding R61). -/
def frameReg (f : Word16) : Byte := f.extractLsb' 8 8

/-- The value of a frame, `sh[7:0]` (30_encoding R61). -/
def frameVal (f : Word16) : Byte := f.extractLsb' 0 8

/-- The bank the operand `a` selects: true the active one, false the shadow one (30_encoding R67). -/
def State.queried (s : State) (a : Bool) : Bank := if a then s.active else s.shadow

/-- The register of the physical digit at a position counted from the left: digit `7 - pos` (30_encoding R71). -/
def digitRegister (p : Params) (pos : BitVec 3) : Byte := p.digitReg[(7 - pos).toFin]

/-- The `op` of the command words, as `BadState` records it (30_encoding R66, 60_exceptions R171). -/
def opOf : Instr → Option Byte
  | .wtInit => some 0x01
  | .wtSend _ _ => some 0x02
  | .wtClose => some 0x03
  | .sbReset => some 0x10
  | .sbAppend _ => some 0x11
  | .sbOrlast _ => some 0x12
  | .sbCommit => some 0x13
  | .sbAdvance _ _ => some 0x14
  | .sbRead _ _ => some 0x15
  | .rlStop => some 0x20
  | .wtWrite2 _ => none

end Sys2Proof.Machine
end

