-- ==== Sys2Proof/Machine/RefreshLoop.lean ====
section
/-! DEFINITION. The refresh sequencer: the stop command (42_refresh R142) and its phases, one atomic step each (R131 to
R141, R148). -/

namespace Sys2Proof.Machine

/-- Raising the stop request (42_refresh R142). -/
def State.requestStop (s : State) : State :=
  { s with stopReq := true, rph := if s.rph = .rIdle then .rHalted else s.rph }

/-- `RL.STOP` (42_refresh R142). -/
def execRlStop (s : State) : Result := gate s (opOf .rlStop) (.next (s.requestStop.finish none 0))

/-- Phase `BEGIN` (42_refresh R131). -/
def rlBegin (s : State) : State := { s with idx := s.active.cursor, pos := 0, rph := .rIssue }

/-- The frame of a position, offered to WT: sent (`WAIT`) or dropped (`NEXT`) (42_refresh R132). -/
def rlOffer (s : State) (g : Byte) : State :=
  let r := s.acceptFrame .rl (frameWord (digitRegister s.cfg.toParams s.pos) g)
  { r.2 with rph := if r.1 then .rWait else .rNext }

/-- Phase `ISSUE` (42_refresh R132): enabled when WT is idle. -/
def rlIssue (s : State) : Result :=
  if s.wtBusy then .next s
  else
    match s.active.readAt s.idx with
    | none => .fault (.noSuchSlot s.idx.toNat)
    | some (g, event) => .next (rlOffer (s.raiseOpt event) g)

/-- Phase `NEXT` (42_refresh R134): `idx` advances whether the frame was sent or dropped. -/
def rlNext (s : State) : State :=
  let r := s.active.advance s.idx
  let t := s.raiseOpt r.2
  if s.pos = 7 then { t with idx := r.1, rph := .rEnd } else { t with idx := r.1, pos := s.pos + 1, rph := .rIssue }

/-- Phase `END` (42_refresh R139): the persistent cursor moves by one. -/
def rlEnd (s : State) : State :=
  let r := s.active.advance s.active.cursor
  { (s.setActive { s.active with cursor := r.1 }).raiseOpt r.2 with rph := .rSleep }

/-- Phase `SLEEP` with a stop requested (42_refresh R141). Without one the sequencer itself has no step: the timer has
(R140). -/
def rlSleep (s : State) : State := if s.stopReq then { s with rph := .rHalted } else s

/-- The sequencer's step (42_refresh R130 to R141; R133 and R148 for the phases without one). -/
def rlStep (s : State) : Result :=
  match s.rph with
  | .rIdle => .next s
  | .rBegin => .next (rlBegin s)
  | .rIssue => rlIssue s
  | .rWait => .next s
  | .rNext => .next (rlNext s)
  | .rEnd => .next (rlEnd s)
  | .rSleep => .next (rlSleep s)
  | .rHalted => .next s

/-- The sleep timer expires (42_refresh R140): a new cycle, ignored outside `SLEEP` and when a stop is requested
(60_exceptions R178). -/
def timerWake (s : State) : State :=
  if s.rph = .rSleep ∧ s.stopReq = false then { s with rph := .rBegin } else s

end Sys2Proof.Machine
end

