-- ==== Sys2Proof/Machine/ScrollBuffer.lean ====
section
/-! DEFINITION. The ScrollBuffer commands (40_scrollbuffer). Every write goes to the shadow bank (20_memory R51). -/

namespace Sys2Proof.Machine

/-- `SB.RESET` (40_scrollbuffer R80). -/
def execSbReset (s : State) : Result :=
  gate s (opOf .sbReset) (.next ((s.setShadow Bank.empty).finish none 0))

/-- `SB.APPEND g` (40_scrollbuffer R81): the 129th append is rejected with `BufferFull`. -/
def execSbAppend (g : Byte) (s : State) : Result :=
  gate s (opOf (.sbAppend g)) <|
    if s.shadow.length.toNat = Config.capacity then .next (s.finish (some (.bufferFull g)) 0)
    else
      match s.shadow.store s.shadow.length.toNat g with
      | none => .fault (.noSuchSlot s.shadow.length.toNat)
      | some b => .next ((s.setShadow { b with length := b.length + 1 }).finish none 0)

/-- `SB.ORLAST m` (40_scrollbuffer R82). -/
def execSbOrlast (m : Byte) (s : State) : Result :=
  gate s (opOf (.sbOrlast m)) <|
    if s.shadow.length = 0 then .next (s.finish (some (.boundsViolation 0xFF)) 0)
    else
      match s.shadow.store (s.shadow.length - 1).toNat (s.shadow.data.read (s.shadow.length - 1).toNat ||| m) with
      | none => .fault (.noSuchSlot (s.shadow.length - 1).toNat)
      | some b => .next ((s.setShadow b).finish none 0)

/-- The start the first commit gives an idle sequencer (40_scrollbuffer R86, 42_refresh R148). -/
def State.lazyStart (s : State) : State :=
  if s.rph = .rIdle ∧ s.stopReq = false then { s with rph := .rBegin } else s

/-- `SB.COMMIT` (40_scrollbuffer R86): held mid-cycle; otherwise the swap and, once, the lazy start. -/
def execSbCommit (s : State) : Result :=
  gate s (opOf .sbCommit) <|
    if s.midCycle then .next s
    else .next (({ s with act := !s.act }.lazyStart).finish none 0)

/-- `SB.ADVANCE a, i` (40_scrollbuffer R84). -/
def execSbAdvance (a : Bool) (i : Byte) (s : State) : Result :=
  gate s (opOf (.sbAdvance a i)) (.next (s.finish ((s.queried a).advance i).2 ((s.queried a).advance i).1))

/-- `SB.READ a, i` (40_scrollbuffer R87). -/
def execSbRead (a : Bool) (i : Byte) (s : State) : Result :=
  gate s (opOf (.sbRead a i)) <|
    match (s.queried a).readAt i with
    | none => .fault (.noSuchSlot i.toNat)
    | some (g, event) => .next (s.finish event g)

end Sys2Proof.Machine
end

