-- ==== Sys2Proof/Machine/WireTransport.lean ====
section
/-! DEFINITION. The wire transport's commands (41_wire_transport R101, R106, R112, R113). -/

namespace Sys2Proof.Machine

/-- The abort of a failed initialisation (41_wire_transport R101, 60_exceptions R172): the session is destroyed, the stop
is raised, an idle sequencer halts. -/
def State.abortInit (s : State) : State :=
  { s with sess := .destroyed, stopReq := true, rph := if s.rph = .rIdle then .rHalted else s.rph }

/-- `WT.INIT` accepted with the resource available: ready at once under DEVNODE, six GPIO accesses under MMIO
(41_wire_transport R101). -/
def State.startInit (s : State) : State :=
  match s.cfg.backend with
  | .devnode => { s with wst := .ready, sess := .ready }.finish none 0
  | .mmio => { s.accept with iph := .readLoad1 }

/-- The acceptance step of `WT.INIT` after its draw (41_wire_transport R101). -/
def State.acceptInit (s : State) : State :=
  if s.nextInitOk then s.afterInitOk.startInit
  else s.afterInitOk.abortInit.finish (some (.initializationFailure s.cfg.backend)) 0

/-- `WT.INIT` (41_wire_transport R101; the second initialisation is refused by 30_encoding R69 step 3). -/
def execWtInit (s : State) : Result :=
  gate s (opOf .wtInit) <|
    if s.sess != .uninit then .next (s.refuse (.badState (opOf .wtInit))) else .next s.acceptInit

/-- A host frame accepted: the response comes when the frame ends, or at once when it fails (41_wire_transport R106). -/
def State.startHostFrame (s : State) (f : Word16) : State :=
  if (s.acceptFrame .host f).1 then (s.acceptFrame .host f).2.accept
  else (s.acceptFrame .host f).2.accept.respond (response (some (.transportFailure f)) 0)

/-- A frame sent for the host: held while WT is busy (41_wire_transport R106). -/
def sendFrame (s : State) (f : Word16) : Result :=
  if s.wtBusy then .next s else .next (s.startHostFrame f)

/-- `WT.SEND reg, val` (41_wire_transport R106). -/
def execWtSend (reg val : Byte) (s : State) : Result := gate s (opOf (.wtSend reg val)) (sendFrame s (frameWord reg val))

/-- A byte-port write of a wrong length: nothing sent, nothing kept (41_wire_transport R112). -/
def rejectLength (s : State) (n : Nat) : Result := gate s none (.next (s.finish (some (.transportLength n)) 0))

/-- `WT.WRITE2 b` (41_wire_transport R112): byte 0 is the register, byte 1 the value (30_encoding R63). -/
def execWtWrite2 (b : List Byte) (s : State) : Result :=
  match b with
  | [reg, val] => gate s none (sendFrame s (frameWord reg val))
  | _ => rejectLength s b.length

/-- The teardown (41_wire_transport R113): a sequencer that never started never will. -/
def State.closeSession (s : State) : State :=
  { s with rph := if s.rph = .rIdle then .rHalted else s.rph, wst := .closed, sess := .destroyed }

/-- `WT.CLOSE` (41_wire_transport R113): held while a frame is in flight, and while the sequencer is neither `IDLE` nor
`HALTED`. -/
def execWtClose (s : State) : Result :=
  gate s (opOf .wtClose) <|
    if s.wtBusy then .next s
    else if s.rph = .rIdle ∨ s.rph = .rHalted then .next (s.closeSession.finish none 0)
    else .next s

end Sys2Proof.Machine
end

