-- ==== Sys2Proof/Machine/Dispatch.lean ====
section
/-! DEFINITION. The dispatch: one arm per command. -/

namespace Sys2Proof.Machine

def exec (i : Instr) (s : State) : Host.Outcome State Fault Refusal :=
  match i with
  | .wtInit => Sys2Proof.Machine.execWtInit s
  | .wtSend reg val => Sys2Proof.Machine.execWtSend reg val s
  | .wtClose => Sys2Proof.Machine.execWtClose s
  | .sbReset => Sys2Proof.Machine.execSbReset s
  | .sbAppend g => Sys2Proof.Machine.execSbAppend g s
  | .sbOrlast m => Sys2Proof.Machine.execSbOrlast m s
  | .sbCommit => Sys2Proof.Machine.execSbCommit s
  | .sbAdvance a k => Sys2Proof.Machine.execSbAdvance a k s
  | .sbRead a k => Sys2Proof.Machine.execSbRead a k s
  | .rlStop => Sys2Proof.Machine.execRlStop s
  | .wtWrite2 b => Sys2Proof.Machine.execWtWrite2 b s

end Sys2Proof.Machine
end

