-- ==== Sys2Proof/Machine/WireEngine.lean ====
section
/-! DEFINITION. The wire engine's micro-steps: the frame table (41_wire_transport R105), frame completion (R108), and the
six accesses of an MMIO initialisation (R101, R102). -/

namespace Sys2Proof.Machine

/-- `dir_read(p)` (41_wire_transport R102). -/
def dirRead (s : State) (r : PinRow) : State := { s.busRead r.fselOff with ftmp := s.fselRead r.fselOff }

/-- `dir_write(p)` (41_wire_transport R102). -/
def dirWrite (s : State) (r : PinRow) : State :=
  s.busWrite r.fselOff (fselWord s.ftmp r.fselShift.val s.cfg.fselOut)

/-- The last access done: the transport and the session are ready, and `WT.INIT` is answered (41_wire_transport R101). -/
def initDone (s : State) : State :=
  { s with iph := .none0, wst := .ready, sess := .ready }.respond (response none 0)

/-- An initialisation step (41_wire_transport R101). -/
def initStep (s : State) : State :=
  match s.iph with
  | .none0 => s
  | .readLoad1 => { dirRead s s.cfg.loadPin with iph := .writeLoad2 }
  | .writeLoad2 => { dirWrite s s.cfg.loadPin with iph := .readClk3 }
  | .readClk3 => { dirRead s s.cfg.clkPin with iph := .writeClk4 }
  | .writeClk4 => { dirWrite s s.cfg.clkPin with iph := .readDin5 }
  | .readDin5 => { dirRead s s.cfg.dinPin with iph := .writeDin6 }
  | .writeDin6 => initDone (dirWrite s s.cfg.dinPin)

/-- Waking the owner of a finished frame (41_wire_transport R108). -/
def State.wakeOwner (s : State) : State :=
  match s.fown with
  | .host => s.respond (response none 0)
  | .rl => { s with rph := .rNext }

/-- Frame completion (41_wire_transport R108). -/
def State.completeFrame (s : State) : State :=
  { s with frames := s.frames ++ [(frameReg s.sh, frameVal s.sh)], fph := .fIdle }.wakeOwner

/-- The end of a bit: on to the next one down, or to the transfer (41_wire_transport R105). -/
def State.nextBit (s : State) : State :=
  if s.bitn = 0 then { s with fph := .fLoadD } else { s with bitn := s.bitn - 1, fph := .fClkLo }

/-- One row of the micro-step table (41_wire_transport R105). -/
def frameStep (s : State) : State :=
  match s.fph with
  | .fIdle => s
  | .fLoadA => { s.loadEvent true with fph := .fClkLo }
  | .fClkLo => { s.pinEvent .clk false with fph := .fDin }
  | .fDin => { s.pinEvent .din (s.sh.getLsbD s.bitn.toNat) with fph := .fDly1 }
  | .fDly1 => { s.delayEvent with fph := .fClkHi }
  | .fClkHi => { s.pinEvent .clk true with fph := .fDly2 }
  | .fDly2 => s.delayEvent.nextBit
  | .fLoadD => { s.loadEvent false with fph := .fLoadR }
  | .fLoadR => (s.loadEvent true).completeFrame

/-- The wire engine's step: a frame step when `fph != F_IDLE`, else an initialisation step when `iph != 0`, else none
(41_wire_transport R105; the two never hold together). -/
def wtStep (s : State) : State := if s.wtBusy then frameStep s else initStep s

end Sys2Proof.Machine
end

