-- ==== Sys2Proof/Machine/HostPort.lean ====
section
/-! DEFINITION. The host's turn at its ports (30_encoding R65, R69; 41_wire_transport R112; 43_text_compile R151; 70_reset R205), and how a
command is placed there. -/

namespace Sys2Proof.Machine

/-- What the decoder rejects is refused: an illegal word (30_encoding R69 step 1), a byte-port write of a wrong length
(41_wire_transport R112). -/
def refuseRequest (s : State) : DecodeError → Result
  | .illegalCommand w => .next (s.refuse (.illegalCommand w))
  | .badLength n => rejectLength s n

/-- A request stands at a port: the checks of 30_encoding R69, then the command's own rule. -/
def present (s : State) (r : Request) : Result :=
  match decodeRequest r with
  | .ok i => exec i s
  | .error e => refuseRequest s e

/-- `raise EncodingFailure(ch)`, the one event the host raises itself (43_text_compile R154, 60_exceptions R173). -/
def reportFailure (s : State) (ch : Char) : State := s.accept.raise (.encodingFailure ch)

/-- The host goes on with a compile (43_text_compile R151): it raises `EncodingFailure` of a character without a glyph, or
presents the next command, and reads its response. `n` is the shadow bank's `length` (log 15). A held `SB.COMMIT` changes
nothing; the other commands of a compile are never held. -/
def compileTurn (s : State) (c : Compile) : Result :=
  match c.unreported s.cfg.toParams with
  | some ch => .next ((reportFailure s ch).goOn [.compile { c with reported := true }])
  | none =>
    mapNext (fun t => t.goOn (c.rest s.shadow.length.toNat t.bufferFullAnswered))
      (present s (encode (c.command s.cfg.toParams s.shadow.length.toNat)))

/-- The newest response reports an error (30_encoding R68). -/
def State.errorAnswered (s : State) : Bool := s.responses.getLast?.any fun r => r.getLsbD 15

/-- The host reads the newest response and, if it reports an error, leaves out its next `n` moves (70_reset R205). No command
is issued and no register of the block changes. -/
def decideTurn (s : State) (n : Nat) : State :=
  { s.accept with hostq := if s.errorAnswered then s.accept.hostq.drop n else s.accept.hostq }

/-- The host's turn: nothing while it waits for a response (30_encoding R65) or has no more moves; else its next move. -/
def hostTurn (s : State) : Result :=
  if s.hostWaiting then .next s
  else
    match s.hostq with
    | [] => .next s
    | .report ch :: _ => .next (reportFailure s ch)
    | .present r :: _ => present s r
    | .compile c :: _ => compileTurn s c
    | .stopIfFailed n :: _ => .next (decideTurn s n)

/-- The turn of one agent (10_state R10). -/
def takeTurn (t : Turn) (s : State) : Result :=
  match t with
  | .host => hostTurn s
  | .rl => rlStep s
  | .wt => .next (wtStep s)
  | .wake => .next (timerWake s)
  | .gpio off w => .next (s.otherGpioWrite off w)

/-- A request at the head of what the host presents, and the host's turn next. -/
def placeRequest (s : State) (r : Request) : State :=
  { s with hostq := .present r :: s.hostq, sched := .host :: s.sched }

end Sys2Proof.Machine
end

