-- ==== Sys2Proof/Machine/Step.lean ====
section
/-! DEFINITION. One step of the machine: one atomic step of the agent whose turn it is (20_memory R50). -/

namespace Sys2Proof.Machine

/-- One step: the schedule says who moves, and that agent takes its step. -/
def step (s : State) : Host.Outcome State Fault Refusal := takeTurn s.nextTurn s.afterTurn

/-- A command placed where the next step takes it from: presented by the host, whose turn is next. -/
def State.withFetchWord (s : State) (nbits w : Nat) : State := placeRequest s (tableRequest nbits w)

end Sys2Proof.Machine
end

