-- ==== Sys2Proof/Machine/Receiver.lean ====
section
/-! DEFINITION. The reference receiver: the chip side of the wire as an observation function over the trace, no state of
the block (41_wire_transport R120 to R122). -/

namespace Sys2Proof.Machine

/-- What the receiver holds (41_wire_transport R120), and the levels the trace has shown so far. -/
structure Receiver where
  sr : Word16
  out : Word16
  delivered : List Word16
  load : Level
  clk : Level
  din : Level
deriving DecidableEq, Repr

/-- The draws of 41_wire_transport R121 and R122: whether a CLK set from `unknown` shifts, whether a LOAD assert from
`unknown` completes a pair, and what an undriven DIN reads as. -/
structure ReceiverDraws where
  clkShifts : Bool
  loadPairs : Bool
  dinReads : Bool
deriving DecidableEq, Repr

/-- The DIN bit at a rising edge (41_wire_transport R121). -/
def Receiver.dinBit (d : ReceiverDraws) (r : Receiver) : Bool :=
  match r.din with
  | .lo => false
  | .hi => true
  | .unknown => d.dinReads

/-- `rx_sr <- {rx_sr[14:0], d}` (41_wire_transport R121). -/
def Receiver.shift (d : ReceiverDraws) (r : Receiver) : Receiver :=
  { r with sr := r.sr.extractLsb' 0 15 ++ BitVec.ofBool (r.dinBit d) }

/-- `rx_out <- rx_sr`, and the word is delivered (41_wire_transport R122). -/
def Receiver.transfer (r : Receiver) : Receiver := { r with out := r.sr, delivered := r.delivered ++ [r.sr] }

/-- Whether setting CLK is a rising edge (41_wire_transport R121). -/
def Receiver.rises (d : ReceiverDraws) (r : Receiver) : Bool :=
  match r.clk with
  | .lo => true
  | .hi => false
  | .unknown => d.clkShifts

/-- Whether asserting LOAD completes a deassert-assert pair (41_wire_transport R122). -/
def Receiver.pairs (d : ReceiverDraws) (assertLevel : Bool) (r : Receiver) : Bool :=
  match r.load with
  | .unknown => d.loadPairs
  | .lo => assertLevel
  | .hi => !assertLevel

/-- One event of the trace seen by the receiver; `assertLevel` is `LOAD_ASSERT_LEVEL`. -/
def Receiver.observe (d : ReceiverDraws) (assertLevel : Bool) (r : Receiver) (e : WireEvent) : Receiver :=
  match e with
  | .delay => r
  | .pin .din v => { r with din := Level.ofBool v }
  | .pin .clk v => { (if v && r.rises d then r.shift d else r) with clk := Level.ofBool v }
  | .pin .load v =>
    { (if v == assertLevel && r.pairs d assertLevel then r.transfer else r) with load := Level.ofBool v }

/-- A stretch of the trace seen by the receiver. -/
def Receiver.observeAll (d : ReceiverDraws) (assertLevel : Bool) (r : Receiver) (t : List WireEvent) : Receiver :=
  t.foldl (Receiver.observe d assertLevel) r

end Sys2Proof.Machine
end

