-- ==== Sys2Proof/Machine/Text.lean ====
section
/-! DEFINITION. The host side: what a text compiles to (43_text_compile R150 to R156), configuration frames (R158), the
pseudo-commands of 30_encoding R73 and the boot order of 70_reset R205, as the host moves they expand to. -/

namespace Sys2Proof.Machine

/-- The host presents a command. -/
def commandMove (i : Instr) : HostMove := .present (encode i)

/-- What the loop of `TEXT` issues where the block refuses nothing but the append to a full bank, as in every session that
is not destroyed (43_text_compile R151, R155, R156): `n` is the shadow bank's `length`, `lead` says that slot 0 holds a
dot-only glyph. The machine itself compiles command by command (`compileTurn`). -/
def compileChars (p : Params) : List Char → Nat → Bool → List HostMove
  | [], _, _ => []
  | ch :: cs, n, lead =>
    if isDot ch then
      if n = 0 then commandMove (.sbAppend p.dpMask) :: compileChars p cs 1 true
      else commandMove (.sbOrlast p.dpMask) :: compileChars p cs n lead
    else
      (if (p.glyphOf ch).isNone then [HostMove.report ch] else []) ++
      (if lead then commandMove (.sbOrlast ((p.glyphOf ch).getD Config.glyphBlank)) :: compileChars p cs n false
        else commandMove (.sbAppend ((p.glyphOf ch).getD Config.glyphBlank)) ::
          (if n = Config.capacity then [] else compileChars p cs (n + 1) false))

/-- The pseudo-commands (30_encoding R73). -/
inductive Pseudo where
  | text (s : List Char)
  | cfgScanlimit (v : Byte)
  | cfgDecode (v : Byte)
  | cfgIntensity (v : Byte)
  | cfgShutdown (v : Byte)
  | cfgTest (v : Byte)
  | wtWrite2 (b0 b1 : Byte)
  | teardown
deriving DecidableEq, Repr

/-- What a pseudo-command expands to (30_encoding R73, 43_text_compile R151, R158, 42_refresh R143). -/
def Pseudo.expand (p : Params) : Pseudo → List HostMove
  | .text s => [commandMove .sbReset, .compile (Compile.start s)]
  | .cfgScanlimit v => [commandMove (.wtSend p.regScanlimit v)]
  | .cfgDecode v => [commandMove (.wtSend p.regDecode v)]
  | .cfgIntensity v => [commandMove (.wtSend p.regIntensity v)]
  | .cfgShutdown v => [commandMove (.wtSend p.regShutdown v)]
  | .cfgTest v => [commandMove (.wtSend p.regTest v)]
  | .wtWrite2 b0 b1 => [commandMove (.wtWrite2 [b0, b1])]
  | .teardown => [commandMove .rlStop, commandMove .wtClose]

/-- The startup configuration writes (70_reset R205 (2), 43_text_compile R158). The spec gives the five no order among them;
this is the order it lists them in (log 23). -/
def configMoves (p : Params) (scanLimit intensity : Byte) : List HostMove :=
  (Pseudo.cfgDecode p.decodeOff).expand p ++ (Pseudo.cfgScanlimit scanLimit).expand p ++
    (Pseudo.cfgIntensity intensity).expand p ++ (Pseudo.cfgShutdown p.shutdownOn).expand p ++
    (Pseudo.cfgTest p.testOff).expand p

/-- What a boot does once the block is initialised: the configuration, the first message (70_reset R205 (2), (3)). -/
def startupMoves (p : Params) (scanLimit intensity : Byte) (s : List Char) : List HostMove :=
  configMoves p scanLimit intensity ++ (Pseudo.text s).expand p

/-- The boot (70_reset R205): initialise, and stop if it fails; then the configuration and the first message. -/
def bootMoves (p : Params) (scanLimit intensity : Byte) (s : List Char) : List HostMove :=
  commandMove .wtInit :: .stopIfFailed (startupMoves p scanLimit intensity s).length ::
    startupMoves p scanLimit intensity s

end Sys2Proof.Machine
end

