-- ==== Sys2Proof/Safety.lean ====
section
/-! DEFINITION. What counts as a good state and a safe run: the invariants of 10_state R16 and of the phase registers, the
end of a run (70_reset R206), and the words statements about a frame, a cycle and a message are written in. -/

namespace Sys2Proof.Machine

/-- The invariants (I-a), (I-b), (I-c) of one bank, and the canonical form of its store (10_state R16). -/
abbrev Bank.Good (b : Bank) : Prop :=
  b.data.wf = true ∧ b.length.toNat ≤ Config.capacity ∧
  (0 < b.length.toNat → b.cursor.toNat < b.length.toNat) ∧ (b.length.toNat = 0 → b.cursor = 0) ∧
  ∀ c ∈ b.data, c.1 < b.length.toNat

/-- The transient read pointer lies in the active prefix while the sequencer uses it (40_scrollbuffer R85, 42_refresh R131). -/
abbrev State.IdxGood (s : State) : Prop :=
  (s.rph = .rIssue ∨ s.rph = .rWait ∨ s.rph = .rNext) →
    (0 < s.active.length.toNat → s.idx.toNat < s.active.length.toNat) ∧ (s.active.length.toNat = 0 → s.idx = 0)

/-- The session, the transport and their engines agree (10_state R22, R29, R38; 41_wire_transport R105). -/
abbrev State.TransportGood (s : State) : Prop :=
  (s.wst = .ready ↔ s.sess = .ready) ∧ (s.wst = .closed → s.sess = .destroyed) ∧
  (s.fph ≠ .fIdle → s.wst = .ready) ∧
  (s.iph ≠ .none0 → s.sess = .uninit ∧ s.cfg.backend = .mmio)

/-- The sequencer waits exactly for its own frame; a stop finds no idle sequencer; a destroyed session has no sequencer
that runs on for ever (42_refresh R133, R142; 60_exceptions R172). -/
abbrev State.SequencerGood (s : State) : Prop :=
  (s.rph = .rWait ↔ s.fph ≠ .fIdle ∧ s.fown = .rl) ∧ (s.rph = .rIdle → s.stopReq = false) ∧
  (s.sess = .destroyed → s.stopReq = true ∨ s.rph = .rHalted)

/-- The GPIO stores are canonical. -/
abbrev State.StoresGood (s : State) : Prop :=
  Store.wf (fselUnlisted s.cfg.toParams) s.fsel = true ∧ Store.wf latchUnlisted s.out = true

/-- The invariant of the machine. -/
abbrev State.Inv (s : State) : Prop :=
  s.bank0.Good ∧ s.bank1.Good ∧ s.IdxGood ∧ s.TransportGood ∧ s.SequencerGood ∧ s.StoresGood

/-- CLK is low from the moment a bit has cleared it until the bit raises it (70_reset R210). -/
abbrev State.ClkLowInBit (s : State) : Prop := (s.fph = .fDin ∨ s.fph = .fDly1 ∨ s.fph = .fClkHi) → s.lines.clk = .lo

/-- A run has ended (70_reset R206). -/
abbrev State.Ended (s : State) : Prop :=
  s.sess = .destroyed ∧ s.rph = .rHalted ∧ s.fph = .fIdle ∧ s.iph = .none0 ∧ s.hostq = []

/-- The initialisation phase in which a pin's direction update reads its register (41_wire_transport R101). -/
def InitPhase.reading : Line → InitPhase
  | .load => .readLoad1
  | .clk => .readClk3
  | .din => .readDin5

/-- A step or a run answers a next state. -/
abbrev Answers (r : Result) : Prop := ∃ t, r = .next t

/-! ### A frame -/

/-- The events of one bit: CLK low, DIN, delay, CLK high, delay (41_wire_transport R105). -/
def bitEvents (b : Bool) : List WireEvent := [.pin .clk false, .pin .din b, .delay, .pin .clk true, .delay]

/-- The events of one frame, bit 15 first (41_wire_transport R105, 30_encoding R62). -/
def frameEvents (assertLevel : Bool) (f : Word16) : List WireEvent :=
  [.pin .load assertLevel] ++ (List.range 16).flatMap (fun t => bitEvents (f.getLsbD (15 - t))) ++
    [.pin .load !assertLevel, .pin .load assertLevel]

/-- The pin events of a stretch of trace. -/
def pinCount (t : List WireEvent) : Nat := t.countP fun e => e != .delay

/-- Running the machine, stopping at the first fault or refusal. -/
def runFor : Nat → State → Result
  | 0, s => .next s
  | n + 1, s =>
    match step s with
    | .next t => runFor n t
    | .fault r => .fault r
    | .refused r => .refused r

/-- The state with a schedule put before its own. -/
def State.withTurns (s : State) (ts : List Turn) : State := { s with sched := ts ++ s.sched }

/-- Running the machine through the turns of a given schedule. -/
def runTurns (ts : List Turn) (s : State) : Result := runFor ts.length (s.withTurns ts)

/-! ### A cycle -/

/-- The turns of one position: `ISSUE`, 83 wire steps and `NEXT` where the frame is sent, `ISSUE` and `NEXT` where it is
dropped (42_refresh R130, R132 to R134). -/
def positionTurns (dropped : Bool) : List Turn :=
  if dropped then [.rl, .rl] else .rl :: List.replicate 83 .wt ++ [.rl]

/-- The turns of a whole cycle, given which positions are dropped: `BEGIN`, the positions, `END` (42_refresh R130). -/
def cycleTurns (dropped : List Bool) : List Turn := .rl :: dropped.flatMap positionTurns ++ [.rl]

/-- The glyph a bank shows at position `k` of a cycle (42_refresh R144, R145). -/
def windowGlyph (b : Bank) (k : Nat) : Byte :=
  if b.length.toNat = 0 then Config.glyphBlank else b.data.read ((b.cursor.toNat + k) % b.length.toNat)

/-- The register of physical digit `7 - k` (30_encoding R71). -/
def positionReg (p : Params) (k : Nat) : Byte := p.digitReg.toList.getD (7 - k) 0

/-- The eight frames of a cycle (42_refresh R144). -/
def windowFrames (p : Params) (b : Bank) : List (Byte × Byte) :=
  (List.range 8).map fun k => (positionReg p k, windowGlyph b k)

/-- The frames of a cycle that are sent, and those that are dropped (42_refresh R147). -/
def keptFrames (fs : List (Byte × Byte)) (dropped : List Bool) : List (Byte × Byte) :=
  ((fs.zip dropped).filter fun x => !x.2).map Prod.fst

/-- The events of a cycle's dropped frames (42_refresh R147). -/
def droppedEvents (fs : List (Byte × Byte)) (dropped : List Bool) : List Diag :=
  ((fs.zip dropped).filter fun x => x.2).map fun x => .transportFailure (x.1.1 ++ x.1.2)

/-- A read pointer moved on by `n` in the active prefix (42_refresh R144). -/
def pointerAfter (b : Bank) (i : Byte) (n : Nat) : Nat :=
  if b.length.toNat = 0 then i.toNat else (i.toNat + n) % b.length.toNat

/-! ### A message -/

/-- The glyphs a text leaves in the shadow bank (43_text_compile R152 to R155): a dot or comma marks the newest glyph, or
is a glyph of its own at the very start; the first other character merges into a leading dot; the 129th glyph and what
follows it are lost. -/
def messageGlyphs (p : Params) : List Char → List Byte → Bool → List Byte
  | [], done, _ => done
  | ch :: cs, done, lead =>
    if isDot ch then
      if done = [] then messageGlyphs p cs [p.dpMask] true
      else messageGlyphs p cs (done.dropLast ++ [done.getLastD 0 ||| p.dpMask]) lead
    else if lead then
      messageGlyphs p cs (done.dropLast ++ [done.getLastD 0 ||| (p.glyphOf ch).getD Config.glyphBlank]) false
    else if done.length = Config.capacity then done
    else messageGlyphs p cs (done ++ [(p.glyphOf ch).getD Config.glyphBlank]) false

/-- The events of a text's characters in a destroyed session (43_text_compile R151): every append and mark is refused with
its `op`, none of them with `BufferFull`, so no character is left out; `n` is the shadow bank's `length`, which stays. -/
def refusedChars (p : Params) (n : Nat) : List Char → Bool → List Diag
  | [], _ => []
  | ch :: cs, lead =>
    if isDot ch then .badState (some (if n = 0 then 0x11 else 0x12)) :: refusedChars p n cs (n == 0 || lead)
    else (if (p.glyphOf ch).isNone then [.encodingFailure ch] else []) ++
      .badState (some (if lead then 0x12 else 0x11)) :: refusedChars p n cs false

/-- The events of a whole `TEXT` in a destroyed session: its `SB.RESET`, its characters, its `SB.COMMIT`. -/
def refusedText (p : Params) (n : Nat) (text : List Char) : List Diag :=
  .badState (some 0x10) :: refusedChars p n text false ++ [.badState (some 0x13)]

/-- The bank holds exactly these glyphs, from slot 0. -/
def Bank.Holds (b : Bank) (gs : List Byte) : Prop :=
  b.length.toNat = gs.length ∧ ∀ j, b.data.read j = gs.getD j Config.glyphBlank

/-! ### What the unspecified registers may be -/

/-- Two states that differ only in registers the spec leaves unspecified at reset, and only where no rule reads them
before writing them (70_reset R201): `pos` and `idx` outside a position, `sh`, `bitn` and `fown` outside a frame, `ftmp`
outside a read-modify-write. -/
def SameButUnread (s t : State) : Prop :=
  t = { s with pos := t.pos, idx := t.idx, sh := t.sh, bitn := t.bitn, fown := t.fown, ftmp := t.ftmp } ∧
  ((s.rph = .rIssue ∨ s.rph = .rWait ∨ s.rph = .rNext) → t.pos = s.pos ∧ t.idx = s.idx) ∧
  (s.fph ≠ .fIdle → t.sh = s.sh ∧ t.bitn = s.bitn ∧ t.fown = s.fown) ∧
  ((s.iph = .writeLoad2 ∨ s.iph = .writeClk4 ∨ s.iph = .writeDin6) → t.ftmp = s.ftmp)

end Sys2Proof.Machine
end

