-- ==== Sys2Proof/Certificates/Slice0/Obligations.lean ====
section
/-! DEFINITION. The statements about the model, for the provers. Each names the rule of spec/ it comes from; what rests on a
choice of the model says so. Responses and the block's bus accesses are stated through the model's histories of them
(`responses` and `bus`, log 12), the turns of a run through the model's schedule (log 2). Every state holds a platform that
passes the configuration check (log 1, log 11). -/

open Sys2Proof Sys2Proof.Machine

/-! ### Encoding -/

/-- Decoding an encoded well-formed command gives it back (30_encoding R65 to R67, R63). -/
def Obligations.DecodeOfEncodeIsIdentity : Prop :=
  ∀ i : Instr, i.wellFormed = true → decodeRequest (encode i) = .ok i

/-- Every request has at most one meaning, and what is decoded is well-formed: encoding it gives the request back. -/
def Obligations.EncodeOfDecodeIsIdentity : Prop :=
  ∀ (r : Request) (i : Instr), decodeRequest r = .ok i → encode i = r ∧ i.wellFormed = true

/-- The decoder accepts exactly the words of the opcode table's rows, and gives each the row's command
(spec/opcode_table.json; 30_encoding R66). -/
def Obligations.DecoderFollowsOpcodeTable : Prop :=
  ∀ w : Word24,
    (∀ i, decodeCmd w = .ok i → ∃ row ∈ opcodeRows, row.hits w = true ∧ row.mnemonic = i.mnemonic) ∧
    (∀ row ∈ opcodeRows, row.hits w = true → ∃ i, decodeCmd w = .ok i ∧ i.mnemonic = row.mnemonic) ∧
    ((∀ row ∈ opcodeRows, row.hits w = false) → decodeCmd w = .error (.illegalCommand w))

/-- Words written out from 30_encoding R65 to R67 (95_test_vectors, 2.3) and byte-port writes from R63 (2.7) decode to the
commands they stand for. -/
def Obligations.WrittenWordsDecode : Prop :=
  decodeCmd 0x010000#24 = .ok .wtInit ∧ decodeCmd 0x02A53C#24 = .ok (.wtSend 0xA5 0x3C) ∧
  decodeCmd 0x1100FF#24 = .ok (.sbAppend 0xFF) ∧ decodeCmd 0x14807F#24 = .ok (.sbAdvance true 127) ∧
  decodeCmd 0x1500FF#24 = .ok (.sbRead false 255) ∧ decodeCmd 0x200000#24 = .ok .rlStop ∧
  decodeBytes [0x0A#8, 0x0F#8] = .ok (.wtWrite2 [0x0A, 0x0F]) ∧
  decodeCmd 0x110130#24 = .error (.illegalCommand 0x110130) ∧ decodeBytes [0x0A#8] = .error (.badLength 1)

/-! ### The step -/

/-- A step in the host's turn presents the request at the head of its moves, whatever it is: with the host not waiting, the
step is `present` at the state whose schedule has moved on, and the command's meaning there where the request decodes
(30_encoding R65, R69; 41_wire_transport R112). A report at the head is recorded with no response (43_text_compile R154;
log 15). -/
def Obligations.StepRunsPresentedCommand : Prop :=
  ∀ (s : State) (moves : List HostMove) (turns : List Turn), s.sched = .host :: turns → s.hostWaiting = false →
    (∀ r : Request, s.hostq = .present r :: moves →
      step s = present { s with sched := turns } r ∧
      ∀ i, decodeRequest r = .ok i → step s = exec i { s with sched := turns }) ∧
    (∀ ch : Char, s.hostq = .report ch :: moves →
      step s = .next { s with sched := turns, hostq := moves, diag := s.diag ++ [.encodingFailure ch] })

/-- While the host waits for a response its turn changes nothing but the schedule: the next command is presented only
after the response to the present one (30_encoding R65, 10_state R38). -/
def Obligations.WaitingHostPresentsNothing : Prop :=
  ∀ (s : State) (turns : List Turn), s.sched = .host :: turns →
    (s.iph ≠ .none0 ∨ (s.fph ≠ .fIdle ∧ s.fown = .host)) → step s = .next { s with sched := turns }

/-- The checks before a command's own rule, in order: an illegal word, a destroyed session, a second initialisation;
otherwise the command's rule runs (30_encoding R69). -/
def Obligations.RequestChecksInOrder : Prop :=
  ∀ (s : State) (w : Word24),
    ((∀ row ∈ opcodeRows, row.hits w = false) →
      present s (.cmd w) = .next { s with
        hostq := s.hostq.tail, diag := s.diag ++ [.illegalCommand w], responses := s.responses ++ [0x8600#16] }) ∧
    ((∃ row ∈ opcodeRows, row.hits w = true) → s.sess = .destroyed →
      present s (.cmd w) = .next { s with
        hostq := s.hostq.tail, diag := s.diag ++ [.badState (some (w.extractLsb' 16 8))],
        responses := s.responses ++ [0x8700#16] }) ∧
    (w = 0x010000#24 → s.sess = .ready →
      present s (.cmd w) = .next { s with
        hostq := s.hostq.tail, diag := s.diag ++ [.badState (some 0x01)], responses := s.responses ++ [0x8700#16] }) ∧
    ((∃ row ∈ opcodeRows, row.hits w = true) → s.sess ≠ .destroyed → (w ≠ 0x010000#24 ∨ s.sess = .uninit) →
      ∃ i, decodeCmd w = .ok i ∧ present s (.cmd w) = exec i s)

/-- Every accepted command that does not hold hands back exactly one response at once, or leaves the host waiting for it;
a held command changes nothing (30_encoding R65, R68). -/
def Obligations.OneResponsePerCommand : Prop :=
  ∀ (i : Instr) (s t : State), s.hostWaiting = false → exec i s = .next t →
    t = s ∨
    (t.hostq = s.hostq.tail ∧ t.hostWaiting = false ∧ ∃ r, t.responses = s.responses ++ [r]) ∨
    (t.hostq = s.hostq.tail ∧ t.hostWaiting = true ∧ t.responses = s.responses ∧ t.diag = s.diag)

/-- A command raises at most one event, and its response reports exactly that event's code: `err` is set if and only if an
event was raised (30_encoding R68, 60_exceptions R170, R179). -/
def Obligations.ResponseReportsTheEvent : Prop :=
  ∀ (i : Instr) (s t : State), exec i s = .next t →
    (t.diag = s.diag ∧ ∀ r, t.responses = s.responses ++ [r] → r.getLsbD 15 = false ∧ r.extractLsb' 8 7 = 0#7) ∨
    (∃ e r, t.diag = s.diag ++ [e] ∧ t.responses = s.responses ++ [r] ∧ r.getLsbD 15 = true ∧ r.extractLsb' 8 7 = e.code)

/-! ### The address generator -/

/-- The five properties of `advance` (40_scrollbuffer R89): the circular successor inside the active prefix, the length-1
case, `n` successors, one bijection of the prefix, the silent identity on an empty bank. -/
def Obligations.AdvanceIsCircularSuccessor : Prop :=
  ∀ b : Bank,
    (∀ i : Byte, i.toNat < b.length.toNat →
      (b.advance i).1.toNat = (i.toNat + 1) % b.length.toNat ∧ (b.advance i).2 = none ∧
        (b.advance i).1.toNat < b.length.toNat) ∧
    (b.length = 1 → b.advance 0 = (0, none)) ∧
    (∀ (n : Nat) (i : Byte), i.toNat < b.length.toNat →
      ((fun j => (b.advance j).1)^[n] i).toNat = (i.toNat + n) % b.length.toNat) ∧
    (∀ j : Byte, j.toNat < b.length.toNat → ∃! i : Byte, i.toNat < b.length.toNat ∧ (b.advance i).1 = j) ∧
    (b.length = 0 → ∀ i : Byte, b.advance i = (i, none))

/-- The function `advance` (40_scrollbuffer R83): the empty bank, an index outside the active prefix, the last index, any
other index, in that order. -/
def Obligations.AdvanceTestsInOrder : Prop :=
  ∀ (b : Bank) (i : Byte),
    (b.length.toNat = 0 → b.advance i = (i, none)) ∧
    (0 < b.length.toNat → b.length.toNat ≤ i.toNat → b.advance i = (i, some (.boundsViolation i))) ∧
    (i.toNat + 1 = b.length.toNat → b.advance i = (0, none)) ∧
    (i.toNat + 1 < b.length.toNat → (b.advance i).1.toNat = i.toNat + 1 ∧ (b.advance i).2 = none)

/-- `SB.ADVANCE a, i` (40_scrollbuffer R84, R83): it answers the successor, `BoundsViolation(i)` with `i` outside the
prefix, and changes no register. -/
def Obligations.SbAdvanceRespondsSuccessor : Prop :=
  (∀ (a : Bool) (i : Byte), decodeCmd (cmdWord 0x14#8 (queryArg a i)) = .ok (.sbAdvance a i)) ∧
  ∀ (a : Bool) (i : Byte) (s : State), s.sess ≠ .destroyed →
    ∀ len : Nat, len = (if a then s.bank s.act else s.bank (!s.act)).length.toNat →
    (len = 0 → exec (.sbAdvance a i) s = .next { s with
      hostq := s.hostq.tail, responses := s.responses ++ [BitVec.ofNat 16 i.toNat] }) ∧
    (i.toNat < len → exec (.sbAdvance a i) s = .next { s with
      hostq := s.hostq.tail, responses := s.responses ++ [BitVec.ofNat 16 ((i.toNat + 1) % len)] }) ∧
    (0 < len → len ≤ i.toNat → exec (.sbAdvance a i) s = .next { s with
      hostq := s.hostq.tail, diag := s.diag ++ [.boundsViolation i],
      responses := s.responses ++ [BitVec.ofNat 16 (0x8300 + i.toNat)] })

/-- `SB.READ a, i` (40_scrollbuffer R87, R85): it answers the glyph, blank outside the active prefix, with
`BoundsViolation(i)` unless the bank is empty, and changes no register. -/
def Obligations.SbReadRespondsGlyph : Prop :=
  (∀ (a : Bool) (i : Byte), decodeCmd (cmdWord 0x15#8 (queryArg a i)) = .ok (.sbRead a i)) ∧
  ∀ (a : Bool) (i : Byte) (s : State), s.sess ≠ .destroyed →
    ∀ b : Bank, b = (if a then s.bank s.act else s.bank (!s.act)) → b.length.toNat ≤ Config.capacity →
    (b.length.toNat = 0 → exec (.sbRead a i) s = .next { s with
      hostq := s.hostq.tail, responses := s.responses ++ [0x0000#16] }) ∧
    (i.toNat < b.length.toNat → exec (.sbRead a i) s = .next { s with
      hostq := s.hostq.tail, responses := s.responses ++ [BitVec.ofNat 16 (b.data.read i.toNat).toNat] }) ∧
    (0 < b.length.toNat → b.length.toNat ≤ i.toNat → exec (.sbRead a i) s = .next { s with
      hostq := s.hostq.tail, diag := s.diag ++ [.boundsViolation i], responses := s.responses ++ [0x8300#16] })

/-- `SB.RESET` (40_scrollbuffer R80): every slot of the shadow bank blank, `length` and `cursor` 0; the active bank and
everything else as before. -/
def Obligations.SbResetClearsShadowBank : Prop :=
  decodeCmd 0x100000#24 = .ok .sbReset ∧
  ∀ s : State, s.sess ≠ .destroyed →
    ∃ t, exec .sbReset s = .next t ∧
      (∀ j, t.shadow.data.read j = 0x00#8) ∧ t.shadow.length = 0 ∧ t.shadow.cursor = 0 ∧ t.active = s.active ∧
      t = { s with
        bank0 := t.bank0, bank1 := t.bank1, hostq := s.hostq.tail, responses := s.responses ++ [0x0000#16] }

/-- `SB.APPEND g` (40_scrollbuffer R81): slot `length` of the shadow bank takes the glyph and `length` moves up by one; a
full bank answers `BufferFull` and nothing changes; every other byte of the glyph store reads as before. -/
def Obligations.SbAppendWritesAtLength : Prop :=
  (∀ g : Byte, decodeCmd (cmdWord 0x11#8 (0#8 ++ g)) = .ok (.sbAppend g)) ∧
  ∀ (g : Byte) (s : State), s.sess ≠ .destroyed → s.shadow.data.wf = true →
    (s.shadow.length.toNat < Config.capacity →
      ∃ t, exec (.sbAppend g) s = .next t ∧
        (∀ j, t.shadow.data.read j = if j = s.shadow.length.toNat then g else s.shadow.data.read j) ∧
        t.shadow.length.toNat = s.shadow.length.toNat + 1 ∧ t.shadow.cursor = s.shadow.cursor ∧ t.active = s.active ∧
        t = { s with
          bank0 := t.bank0, bank1 := t.bank1, hostq := s.hostq.tail, responses := s.responses ++ [0x0000#16] }) ∧
    (s.shadow.length.toNat = Config.capacity →
      exec (.sbAppend g) s = .next { s with
        hostq := s.hostq.tail, diag := s.diag ++ [.bufferFull g], responses := s.responses ++ [0x8500#16] })

/-- `SB.ORLAST m` (40_scrollbuffer R82): the newest slot of the shadow bank takes the OR; an empty bank answers
`BoundsViolation(0xFF)` and nothing changes; every other byte of the glyph store reads as before. -/
def Obligations.SbOrlastMarksNewestGlyph : Prop :=
  (∀ m : Byte, decodeCmd (cmdWord 0x12#8 (0#8 ++ m)) = .ok (.sbOrlast m)) ∧
  ∀ (m : Byte) (s : State), s.sess ≠ .destroyed → s.shadow.data.wf = true →
    (0 < s.shadow.length.toNat → s.shadow.length.toNat ≤ Config.capacity →
      ∃ t, exec (.sbOrlast m) s = .next t ∧
        (∀ j, t.shadow.data.read j =
          if j = s.shadow.length.toNat - 1 then s.shadow.data.read j ||| m else s.shadow.data.read j) ∧
        t.shadow.length = s.shadow.length ∧ t.shadow.cursor = s.shadow.cursor ∧ t.active = s.active ∧
        t = { s with
          bank0 := t.bank0, bank1 := t.bank1, hostq := s.hostq.tail, responses := s.responses ++ [0x0000#16] }) ∧
    (s.shadow.length.toNat = 0 →
      exec (.sbOrlast m) s = .next { s with
        hostq := s.hostq.tail, diag := s.diag ++ [.boundsViolation 0xFF], responses := s.responses ++ [0x8300#16] })

/-- `SB.COMMIT` (40_scrollbuffer R86): held, with nothing changed, while the sequencer is in `BEGIN`, `ISSUE`, `WAIT`,
`NEXT` or `END`; otherwise the banks are swapped, an idle sequencer with no stop requested starts, and nothing else
changes. -/
def Obligations.SbCommitSwapsBetweenCycles : Prop :=
  decodeCmd 0x130000#24 = .ok .sbCommit ∧
  ∀ s : State, s.sess ≠ .destroyed →
    (s.rph = .rBegin ∨ s.rph = .rIssue ∨ s.rph = .rWait ∨ s.rph = .rNext ∨ s.rph = .rEnd →
      exec .sbCommit s = .next s) ∧
    (s.rph = .rIdle ∨ s.rph = .rSleep ∨ s.rph = .rHalted →
      exec .sbCommit s = .next { s with
        act := !s.act
        rph := if s.rph = .rIdle ∧ s.stopReq = false then .rBegin else s.rph
        hostq := s.hostq.tail
        responses := s.responses ++ [0x0000#16] })

/-- The double-buffering discipline (20_memory R51): a host command changes only the shadow bank, or swaps the banks and
changes neither; an engine's step changes of the banks only the active cursor; `act` changes only by an `SB.COMMIT`
between cycles. -/
def Obligations.DoubleBufferingKeepsBanksApart : Prop :=
  (∀ (i : Instr) (s t : State), exec i s = .next t →
    (i ≠ .sbCommit → t.act = s.act ∧ t.active = s.active) ∧
    (i = .sbCommit → t.bank0 = s.bank0 ∧ t.bank1 = s.bank1 ∧ (t.act ≠ s.act → s.midCycle = false))) ∧
  (∀ (turn : Turn) (s t : State), turn ≠ .host → takeTurn turn s = .next t →
    t.act = s.act ∧ t.shadow = s.shadow ∧ t.active.data = s.active.data ∧ t.active.length = s.active.length)

/-! ### The wire transport -/

/-- `WT.INIT` from an uninitialised session, by the draw of `INIT_OK` (41_wire_transport R101): ready at once under
DEVNODE, the first of six GPIO accesses next under MMIO, or aborted: the session destroyed, the stop raised, an idle
sequencer halted. -/
def Obligations.WtInitAcceptance : Prop :=
  decodeCmd 0x010000#24 = .ok .wtInit ∧
  ∀ s : State, s.sess = .uninit →
    (s.nextInitOk = true → s.cfg.backend = .devnode →
      exec .wtInit s = .next { s.afterInitOk with
        wst := .ready, sess := .ready, hostq := s.hostq.tail, responses := s.responses ++ [0x0000#16] }) ∧
    (s.nextInitOk = true → s.cfg.backend = .mmio →
      exec .wtInit s = .next { s.afterInitOk with iph := .readLoad1, hostq := s.hostq.tail }) ∧
    (s.nextInitOk = false →
      exec .wtInit s = .next { s.afterInitOk with
        sess := .destroyed
        stopReq := true
        rph := if s.rph = .rIdle then .rHalted else s.rph
        diag := s.diag ++ [.initializationFailure s.cfg.backend]
        hostq := s.hostq.tail
        responses := s.responses ++ [0x8100#16] })

/-- The six accesses of an MMIO initialisation (41_wire_transport R101, R102): after six wire steps the three pins' fields
hold `FSEL_OUT`, every other bit of every function-select register is as it was, the bus saw three reads each followed by
a write of the same register, no line or trace changed, and the transport and the session are ready. -/
def Obligations.InitialisationMakesPinsOutputs : Prop :=
  ∀ s : State, s.iph = .readLoad1 → s.fph = .fIdle → Store.wf (fselUnlisted s.cfg.toParams) s.fsel = true →
    ∃ t, runTurns (List.replicate 6 .wt) s = .next t ∧
      t.iph = .none0 ∧ t.wst = .ready ∧ t.sess = .ready ∧ t.responses = s.responses ++ [0x0000#16] ∧
      (∀ (l : Line) (k : Nat), k < 3 →
        (t.fselRead (s.cfg.row l).fselOff).getLsbD ((s.cfg.row l).fselShift.val + k) = s.cfg.fselOut.getLsbD k) ∧
      (∀ off k : Nat, (∀ l : Line, (s.cfg.row l).fselOff = off →
          k < (s.cfg.row l).fselShift.val ∨ (s.cfg.row l).fselShift.val + 3 ≤ k) →
        (t.fselRead off).getLsbD k = (s.fselRead off).getLsbD k) ∧
      (∃ a b c d e f : Word32, t.bus = s.bus ++
        [.read s.cfg.loadPin.fselOff a, .write s.cfg.loadPin.fselOff b, .read s.cfg.clkPin.fselOff c,
          .write s.cfg.clkPin.fselOff d, .read s.cfg.dinPin.fselOff e, .write s.cfg.dinPin.fselOff f]) ∧
      t = { s with
        iph := t.iph, wst := t.wst, sess := t.sess, responses := t.responses, fsel := t.fsel, bus := t.bus,
        ftmp := t.ftmp }

/-- The word `dir_write` writes (41_wire_transport R102): only the three bits of the field differ from the word read, and
they hold the function code. -/
def Obligations.DirectionWriteKeepsOtherFields : Prop :=
  ∀ (read : Word32) (shift : Nat) (fn : BitVec 3) (k : Nat), shift ≤ 29 →
    (fselWord read shift fn).getLsbD k =
      if shift ≤ k ∧ k < shift + 3 then fn.getLsbD (k - shift) else read.getLsbD k

/-- The lost update (20_memory R48, 70_reset R212), for each of the three pins: whatever another GPIO user writes into the
register between the read and the write of the pin's direction update, the write puts back the word read, with the pin's
field replaced. (That the other user's write reaches other pins' fields only is the model's reading, log 10.) -/
def Obligations.LostUpdateOfOtherFields : Prop :=
  ∀ (s : State) (l : Line) (w : Word32), s.iph = InitPhase.reading l → s.fph = .fIdle →
    Store.wf (fselUnlisted s.cfg.toParams) s.fsel = true →
    ∃ t, runTurns [.wt, .gpio (s.cfg.row l).fselOff w, .wt] s = .next t ∧
      t.fselRead (s.cfg.row l).fselOff =
        fselWord (s.fselRead (s.cfg.row l).fselOff) (s.cfg.row l).fselShift.val s.cfg.fselOut

/-- `WT.SEND reg, val` (41_wire_transport R106, R107): held while WT is busy; dropped whole with `TransportFailure` when
the transport is not ready or `XFAIL` is drawn; otherwise the frame with `reg` in its high byte is started. -/
def Obligations.WtSendStartsOrDropsFrame : Prop :=
  (∀ reg val : Byte, decodeCmd (cmdWord 0x02#8 (reg ++ val)) = .ok (.wtSend reg val)) ∧
  ∀ (reg val : Byte) (f : Word16) (s : State), f.toNat = reg.toNat * 256 + val.toNat → s.sess ≠ .destroyed →
    (s.fph ≠ .fIdle → exec (.wtSend reg val) s = .next s) ∧
    (s.fph = .fIdle → s.wst = .ready → s.nextXfail = false →
      exec (.wtSend reg val) s = .next { s.afterXfail with
        sh := f, fown := .host, bitn := 15, fph := .fLoadA, hostq := s.hostq.tail }) ∧
    (s.fph = .fIdle → s.wst = .ready → s.nextXfail = true →
      exec (.wtSend reg val) s = .next { s.afterXfail with
        diag := s.diag ++ [.transportFailure f], hostq := s.hostq.tail, responses := s.responses ++ [0x8400#16] }) ∧
    (s.fph = .fIdle → s.wst ≠ .ready →
      exec (.wtSend reg val) s = .next { s with
        diag := s.diag ++ [.transportFailure f], hostq := s.hostq.tail, responses := s.responses ++ [0x8400#16] })

/-- `WT.WRITE2 b` (41_wire_transport R112): two bytes are exactly `WT.SEND` of them, and start the frame where that does;
any other length is rejected with `TransportFailure(length)` and nothing is sent; a destroyed session refuses it. What a
refused write records and answers is the model's choice (log 13). -/
def Obligations.WtWrite2IsOneFrame : Prop :=
  ∀ (b : List Byte) (s : State),
    present s (.bytes b) = exec (.wtWrite2 b) s ∧
    (∀ reg val : Byte, b = [reg, val] → s.sess ≠ .destroyed →
      exec (.wtWrite2 b) s = exec (.wtSend reg val) s ∧
      (s.fph = .fIdle → s.wst = .ready → s.nextXfail = false →
        exec (.wtWrite2 b) s = .next { s.afterXfail with
          sh := reg ++ val, fown := .host, bitn := 15, fph := .fLoadA, hostq := s.hostq.tail })) ∧
    (b.length ≠ 2 → s.sess ≠ .destroyed →
      exec (.wtWrite2 b) s = .next { s with
        diag := s.diag ++ [.transportLength b.length], hostq := s.hostq.tail,
        responses := s.responses ++ [0x8400#16] }) ∧
    (s.sess = .destroyed →
      exec (.wtWrite2 b) s = .next { s with
        diag := s.diag ++ [.badState none], hostq := s.hostq.tail, responses := s.responses ++ [0x8700#16] })

/-- `WT.CLOSE` (41_wire_transport R113): held, with nothing changed, while a frame is in flight or the sequencer is neither
`IDLE` nor `HALTED`; otherwise the transport is closed, the session destroyed, an idle sequencer halted, and nothing else
changes. -/
def Obligations.WtCloseWaitsThenDestroys : Prop :=
  decodeCmd 0x030000#24 = .ok .wtClose ∧
  ∀ s : State, s.sess ≠ .destroyed →
    (s.fph ≠ .fIdle ∨ (s.rph ≠ .rIdle ∧ s.rph ≠ .rHalted) → exec .wtClose s = .next s) ∧
    (s.fph = .fIdle → s.rph = .rIdle ∨ s.rph = .rHalted →
      exec .wtClose s = .next { s with
        rph := .rHalted, wst := .closed, sess := .destroyed, hostq := s.hostq.tail,
        responses := s.responses ++ [0x0000#16] })

/-- `Pin(line, level)` (41_wire_transport R103, R104; 20_memory R47): the line takes the level and the event is recorded,
whatever level the line had; under MMIO it is exactly one write of a word with the pin's one bit into its set or clear
register, and no other pin is driven. Asserting LOAD drives it to `LOAD_ASSERT_LEVEL`, deasserting it to the other level. -/
def Obligations.PinEventIsOneStrobe : Prop :=
  ∀ (s : State) (l : Line) (level : Bool),
    (s.cfg.backend = .devnode → s.pinEvent l level = { s with
      lines := s.lines.set l (Level.ofBool level), trace := s.trace ++ [.pin l level] }) ∧
    (s.cfg.backend = .mmio → s.pinEvent l level = { s with
      lines := s.lines.set l (Level.ofBool level)
      trace := s.trace ++ [.pin l level]
      bus := s.bus ++ [.write (if level then (s.cfg.row l).setOff else (s.cfg.row l).clrOff)
        (1#32 <<< (s.cfg.row l).levelBit.val)] }) ∧
    s.loadEvent true = s.pinEvent .load s.cfg.loadAssertLevel ∧
    s.loadEvent false = s.pinEvent .load (!s.cfg.loadAssertLevel)

/-- A strobe word acts on exactly the pins of its register whose bit is 1; every other pin keeps its level
(20_memory R47, 10_state R31). -/
def Obligations.StrobeActsOnItsBitsOnly : Prop :=
  ∀ (s : State) (off : Nat) (w : Word32) (r : PinRow), Store.wf latchUnlisted s.out = true →
    r ∈ s.cfg.pins →
    ((∃ q ∈ s.cfg.pins, q.setOff = off) → (s.gpioEffect off w).latch r.pin =
      if r.setOff = off ∧ w.getLsbD r.levelBit.val = true then .hi else s.latch r.pin) ∧
    ((∃ q ∈ s.cfg.pins, q.clrOff = off) → (s.gpioEffect off w).latch r.pin =
      if r.clrOff = off ∧ w.getLsbD r.levelBit.val = true then .lo else s.latch r.pin)

/-- Other GPIO users never reach the block's pins (10_state R10; the model's reading, log 10): their writes leave the lines
and the function fields of the three pins as they were, and change nothing but function-select registers and other pins'
latches. -/
def Obligations.OtherUsersLeaveOwnPins : Prop :=
  ∀ (s : State) (off : Nat) (w : Word32), Store.wf (fselUnlisted s.cfg.toParams) s.fsel = true →
    s.otherGpioWrite off w = { s with
      fsel := (s.otherGpioWrite off w).fsel, out := (s.otherGpioWrite off w).out } ∧
    ∀ (l : Line) (k : Nat), k < 3 →
      ((s.otherGpioWrite off w).fselRead (s.cfg.row l).fselOff).getLsbD ((s.cfg.row l).fselShift.val + k) =
        (s.fselRead (s.cfg.row l).fselOff).getLsbD ((s.cfg.row l).fselShift.val + k)

/-- A started frame takes exactly 83 wire steps, whatever it carries (41_wire_transport R105, R108, R111): the trace gains
the frame's events, bit 15 first, `frames` gains the frame, LOAD is left asserted, CLK at 1, DIN at the last bit, and the
owner is woken: the host by its response, the sequencer by `NEXT`. Nothing else changes but the bus history. -/
def Obligations.FrameRunsToCompletion : Prop :=
  ∀ s : State, s.fph = .fLoadA → s.bitn = 15 →
    ∃ t, runTurns (List.replicate 83 .wt) s = .next t ∧
      t.trace = s.trace ++ frameEvents s.cfg.loadAssertLevel s.sh ∧
      t.frames = s.frames ++ [(s.sh.extractLsb' 8 8, s.sh.extractLsb' 0 8)] ∧
      t.fph = .fIdle ∧ t.bitn = 0 ∧
      t.lines = { load := Level.ofBool s.cfg.loadAssertLevel, clk := .hi, din := Level.ofBool (s.sh.getLsbD 0) } ∧
      (s.fown = .host → t.responses = s.responses ++ [0x0000#16] ∧ t.rph = s.rph) ∧
      (s.fown = .rl → t.responses = s.responses ∧ t.rph = .rNext) ∧
      (s.cfg.backend = .devnode → t.bus = s.bus) ∧
      (s.cfg.backend = .mmio → ∃ ws, t.bus = s.bus ++ ws ∧ ws.length = 51 ∧ ∀ x ∈ ws, ∃ off w, x = .write off w) ∧
      t = { s with
        trace := t.trace, frames := t.frames, fph := t.fph, bitn := t.bitn, lines := t.lines,
        responses := t.responses, rph := t.rph, bus := t.bus }

/-- The counts of a frame (41_wire_transport R110): 51 pin events (3 of LOAD, 32 of CLK, 16 of DIN) and 32 delays, 83 events
in all; the DIN levels are the frame's bits, bit 15 first. -/
def Obligations.FrameEventCounts : Prop :=
  ∀ (assertLevel : Bool) (f : Word16),
    (frameEvents assertLevel f).length = 83 ∧ pinCount (frameEvents assertLevel f) = 51 ∧
    (frameEvents assertLevel f).countP (fun e => e == .delay) = 32 ∧
    (frameEvents assertLevel f).countP (fun e => e == .pin .load true || e == .pin .load false) = 3 ∧
    (frameEvents assertLevel f).countP (fun e => e == .pin .clk true) = 16 ∧
    (frameEvents assertLevel f).countP (fun e => e == .pin .clk false) = 16 ∧
    (frameEvents assertLevel f).filterMap (fun e => match e with
      | .pin .din v => some v
      | _ => none) = (List.range 16).map (fun t => f.getLsbD (15 - t))

/-- What frames deliver (41_wire_transport R123): whatever the receiver held, after a frame its shift and output registers
hold the frame; over any number of frames exactly those words are delivered, in order, but for at most one extra word at
the very start, and none if LOAD was already asserted. -/
def Obligations.ReceiverGetsEveryFrame : Prop :=
  ∀ (d : ReceiverDraws) (assertLevel : Bool) (r : Receiver) (fs : List Word16) (f : Word16),
    let r' := r.observeAll d assertLevel ((fs ++ [f]).flatMap (frameEvents assertLevel))
    r'.sr = f ∧ r'.out = f ∧
    (∃ extra : List Word16, extra.length ≤ 1 ∧ (r.load = Level.ofBool assertLevel → extra = []) ∧
      r'.delivered = r.delivered ++ extra ++ (fs ++ [f]))

/-- DIN changes only while CLK is low (70_reset R210): the step keeps CLK low from the clearing of a bit to its rise, and
every DIN event is issued with CLK low. -/
def Obligations.DinChangesOnlyWhileClkLow : Prop :=
  ∀ s t : State, s.ClkLowInBit → step s = .next t →
    t.ClkLowInBit ∧ ∀ v, t.trace = s.trace ++ [.pin .din v] → s.lines.clk = .lo

/-! ### The refresh sequencer -/

/-- Phase `ISSUE` (42_refresh R132): the sequencer's turn changes nothing while a frame is in flight, whoever's it is;
otherwise it reads the glyph at `idx` (40_scrollbuffer R85) and offers the frame of digit `7 - pos` to WT, which starts it
(`WAIT`) or drops it (`NEXT`, 41_wire_transport R107). -/
def Obligations.IssueWaitsThenOffersFrame : Prop :=
  ∀ s : State, s.rph = .rIssue →
    (s.fph ≠ .fIdle → takeTurn .rl s = .next s) ∧
    (s.fph = .fIdle → s.active.length.toNat ≤ Config.capacity →
      ∀ (g : Byte) (f : Word16) (events : List Diag),
        g = (if s.idx.toNat < s.active.length.toNat then s.active.data.read s.idx.toNat else 0x00#8) →
        f = positionReg s.cfg.toParams s.pos.toNat ++ g →
        events = (if 0 < s.active.length.toNat ∧ s.active.length.toNat ≤ s.idx.toNat then [.boundsViolation s.idx]
          else []) →
        (s.wst ≠ .ready → takeTurn .rl s = .next { s with
          rph := .rNext, diag := s.diag ++ events ++ [.transportFailure f] }) ∧
        (s.wst = .ready → s.nextXfail = true → takeTurn .rl s = .next { s.afterXfail with
          rph := .rNext, diag := s.diag ++ events ++ [.transportFailure f] }) ∧
        (s.wst = .ready → s.nextXfail = false → takeTurn .rl s = .next { s.afterXfail with
          rph := .rWait, sh := f, fown := .rl, bitn := 15, fph := .fLoadA, diag := s.diag ++ events }))

/-- One whole cycle (42_refresh R130 to R139, R144, R145, R147), with any of its eight frames dropped: the frames sent are
those of the eight-glyph circular window starting at the cursor, leftmost digit first, less the dropped ones, each of which
raises `TransportFailure`; the cursor moves by one, `idx` ends eight further, `pos` at 7; the bank's glyphs, the shadow bank
and `act` are untouched. -/
def Obligations.CycleShowsCircularWindow : Prop :=
  ∀ (s : State) (dropped rest : List Bool), s.rph = .rBegin → s.fph = .fIdle → s.wst = .ready → s.active.Good →
    dropped.length = 8 → s.xfailIn = dropped ++ rest →
    ∃ t, runTurns (cycleTurns dropped) s = .next t ∧
      t.frames = s.frames ++ keptFrames (windowFrames s.cfg.toParams s.active) dropped ∧
      t.diag = s.diag ++ droppedEvents (windowFrames s.cfg.toParams s.active) dropped ∧
      t.trace = s.trace ++ (keptFrames (windowFrames s.cfg.toParams s.active) dropped).flatMap
        (fun f => frameEvents s.cfg.loadAssertLevel (f.1 ++ f.2)) ∧
      t.active.cursor.toNat = pointerAfter s.active s.active.cursor 1 ∧
      t.idx.toNat = pointerAfter s.active s.active.cursor 8 ∧ t.pos = 7 ∧ t.rph = .rSleep ∧ t.fph = .fIdle ∧
      t.act = s.act ∧ t.shadow = s.shadow ∧ t.active.data = s.active.data ∧ t.active.length = s.active.length ∧
      t.responses = s.responses ∧ t.xfailIn = rest ∧ t.sess = s.sess ∧ t.wst = s.wst ∧ t.stopReq = s.stopReq

/-- A cycle with the transport not ready (42_refresh R147): all eight frames are dropped, no wire event occurs, and the
cursor moves by one all the same. -/
def Obligations.CycleWithoutTransport : Prop :=
  ∀ s : State, s.rph = .rBegin → s.fph = .fIdle → s.wst ≠ .ready → s.active.Good →
    ∃ t, runTurns (List.replicate 18 .rl) s = .next t ∧
      t.diag = s.diag ++ (windowFrames s.cfg.toParams s.active).map (fun f => .transportFailure (f.1 ++ f.2)) ∧
      t.frames = s.frames ∧ t.trace = s.trace ∧ t.lines = s.lines ∧ t.rph = .rSleep ∧
      t.active.cursor.toNat = pointerAfter s.active s.active.cursor 1

/-- Between cycles (42_refresh R140, R141; 60_exceptions R178, R179): without a stop only the timer moves the sequencer, to
a new cycle; with one the timer is ignored and the sequencer halts. -/
def Obligations.SleepEndsByTimerOrStop : Prop :=
  ∀ s : State, s.rph = .rSleep →
    (s.stopReq = false →
      takeTurn .wake s = .next { s with rph := .rBegin } ∧ takeTurn .rl s = .next s) ∧
    (s.stopReq = true →
      takeTurn .wake s = .next s ∧ takeTurn .rl s = .next { s with rph := .rHalted })

/-- `RL.STOP` (42_refresh R142): the stop request is raised, an idle sequencer halts, the response is immediate, and nothing
else changes, whatever the sequencer and WT are doing. -/
def Obligations.RlStopRaisesStop : Prop :=
  decodeCmd 0x200000#24 = .ok .rlStop ∧
  ∀ s : State, s.sess ≠ .destroyed →
    exec .rlStop s = .next { s with
      stopReq := true
      rph := if s.rph = .rIdle then .rHalted else s.rph
      hostq := s.hostq.tail
      responses := s.responses ++ [0x0000#16] }

/-- The sequencer is started once (42_refresh R148): a step that leaves `IDLE` is the host's, by a commit (its own or a
text's) to `BEGIN`, or by a stop, a close or a failed initialisation to `HALTED`; and no step comes back to `IDLE`. -/
def Obligations.IdleIsLeftOnce : Prop :=
  ∀ s t : State, s.Inv → step s = .next t →
    (t.rph = .rIdle → s.rph = .rIdle) ∧
    (s.rph = .rIdle → t.rph ≠ .rIdle →
      ∃ moves i, s.nextTurn = .host ∧
        ((∃ r, s.hostq = .present r :: moves ∧ decodeRequest r = .ok i) ∨
          (∃ c, s.hostq = .compile c :: moves ∧ i = .sbCommit)) ∧
        ((i = .sbCommit ∧ t.rph = .rBegin) ∨ ((i = .rlStop ∨ i = .wtClose ∨ i = .wtInit) ∧ t.rph = .rHalted)))

/-- Teardown is bounded (42_refresh R143, R141): once a stop is requested, with the sequencer and WT taking turns and the
host waiting, the sequencer is halted and WT idle after at most 1000 turns of each. -/
def Obligations.StopIsReachedWithinBound : Prop :=
  ∀ s : State, s.Inv → s.iph = .none0 → s.stopReq = true →
    ∃ t, runTurns (List.replicate 1000 [Turn.rl, Turn.wt]).flatten s = .next t ∧ t.rph = .rHalted ∧ t.fph = .fIdle

/-! ### The machine -/

/-- Every step keeps the invariant: the banks' invariants (I-a), (I-b), (I-c) and canonical stores, the read pointer of a
running cycle inside the active prefix, and the agreement of session, transport and sequencer (10_state R16, R25, R29, R38;
41_wire_transport R105; 42_refresh R133). -/
def Obligations.StepKeepsInvariant : Prop :=
  ∀ s t : State, s.Inv → step s = .next t → t.Inv

/-- The state after reset meets the invariant (10_state R16). -/
def Obligations.ResetMeetsInvariant : Prop := State.reset.Inv

/-- From a state that meets the invariant no step faults or is refused: no error transfers control (60_exceptions R170). -/
def Obligations.NoStepStops : Prop := ∀ s : State, s.Inv → ∃ t, step s = .next t

/-- From a state that meets the invariant the sequencer never raises `BoundsViolation`: the events an engine's step adds are
`TransportFailure`s (40_scrollbuffer R85, 60_exceptions R174). -/
def Obligations.SequencerNeverViolatesBounds : Prop :=
  ∀ (s t : State) (turn : Turn), s.Inv → turn ≠ .host → takeTurn turn s = .next t →
    t.diag = s.diag ∨ ∃ f, t.diag = s.diag ++ [.transportFailure f]

/-- What no step undoes (10_state R20, R28, R29, R33, R36; 42_refresh R141): the stop request, the halted sequencer and the
destroyed session stay, the histories only grow, and the parameters do not change. That `responses` and `bus` only grow is
about the model's own histories (log 12). -/
def Obligations.NoStepUndoesTheseThings : Prop :=
  ∀ s t : State, step s = .next t →
    (s.stopReq = true → t.stopReq = true) ∧
    (s.Inv → (s.sess = .destroyed → t.sess = .destroyed) ∧ (s.rph = .rHalted → t.rph = .rHalted)) ∧
    s.trace <+: t.trace ∧ s.frames <+: t.frames ∧ s.diag <+: t.diag ∧ s.responses <+: t.responses ∧ s.bus <+: t.bus ∧
    t.cfg = s.cfg

/-- What reset leaves (10_state R37, 70_reset R201, R202): the values the spec gives. -/
def Obligations.ResetValues : Prop :=
  (∀ k j, (State.reset.bank k).data.read j = 0x00#8 ∧ (State.reset.bank k).length = 0 ∧
    (State.reset.bank k).cursor = 0) ∧
  State.reset.act = false ∧ State.reset.rph = .rIdle ∧ State.reset.stopReq = false ∧ State.reset.wst = .uninit ∧
  State.reset.fph = .fIdle ∧ State.reset.iph = .none0 ∧ State.reset.sess = .uninit ∧
  State.reset.lines = { load := .unknown, clk := .unknown, din := .unknown } ∧
  (∀ off, State.reset.fselRead off = fselUnlisted State.reset.cfg.toParams off) ∧
  (∀ pin, State.reset.latch pin = .unknown) ∧
  State.reset.trace = [] ∧ State.reset.frames = [] ∧ State.reset.diag = []

/-- After reset no engine has a step: the first step of any execution is a host command (70_reset R203). -/
def Obligations.NoEngineStepAtReset : Prop :=
  ∀ s : State, s = { State.reset with
      cfg := s.cfg, hostq := s.hostq, sched := s.sched, initOkIn := s.initOkIn, xfailIn := s.xfailIn, draws := s.draws } →
    takeTurn .rl s = .next s ∧ takeTurn .wt s = .next s ∧ takeTurn .wake s = .next s

/-- The end of a run (70_reset R206): no agent of the block has a step, and the host has none pending; the lines keep
their levels whatever other GPIO users do. -/
def Obligations.EndedRunStaysEnded : Prop :=
  ∀ (s : State) (turn : Turn), s.Ended →
    ((∀ off w, turn ≠ .gpio off w) → takeTurn turn s = .next s) ∧
    (∀ off w, turn = .gpio off w → ∃ t, takeTurn turn s = .next t ∧ t.Ended ∧ t.lines = s.lines ∧ t.trace = s.trace)

/-- The values the spec leaves unspecified at reset do not matter (70_reset R201, 93_implementation_defined U7): two states
that differ only in them, where no rule has written them yet, stay so step by step, and one stops exactly when the other
does. So no behaviour rests on the values the model gives them (log 5). -/
def Obligations.UnspecifiedRegistersDoNotMatter : Prop :=
  ∀ s t : State, s.Inv → SameButUnread s t →
    (∀ s', step s = .next s' → ∃ t', step t = .next t' ∧ SameButUnread s' t') ∧
    (∀ r, step s = .fault r ↔ step t = .fault r) ∧ (∀ r, step s = .refused r ↔ step t = .refused r)

/-- The configuration check (20_memory R46, 93_implementation_defined U20): a misaligned offset, one outside the window, two
equal pin numbers, or a decimal-point mask without exactly one bit is refused; a set that passes is the machine after reset
with those parameters; and no state of the machine holds a set that the check refuses. That a settle delay not above the
chip's minimum is refused too is the model's choice (log 11): 70_reset R211 leaves it to the implementation. -/
def Obligations.BadConfigurationRefused : Prop :=
  (∀ s : State, configure s.cfg.toParams = .next { State.reset with cfg := s.cfg } ∧
    ∀ r ∈ s.cfg.pins, ∀ off, (off = r.fselOff ∨ off = r.setOff ∨ off = r.clrOff) →
      off % 4 = 0 ∧ off + 4 ≤ s.cfg.gpioSize) ∧
  ∀ p : Params,
    (p.ok = true → ∃ t, configure p = .next t ∧ t.cfg.toParams = p ∧ t = { State.reset with cfg := t.cfg }) ∧
    (((∃ r ∈ p.pins, ∃ off, (off = r.fselOff ∨ off = r.setOff ∨ off = r.clrOff) ∧
        (off % 4 ≠ 0 ∨ p.gpioSize < off + 4)) ∨
      p.loadPin.pin = p.clkPin.pin ∨ p.loadPin.pin = p.dinPin.pin ∨ p.clkPin.pin = p.dinPin.pin ∨
      (List.range 8).countP (fun k => p.dpMask.getLsbD k) ≠ 1 ∨ p.tSettle ≤ p.tChipMin) →
      configure p = .refused .badConfiguration)

/-! ### The host's text -/

/-- The loop of `TEXT` (43_text_compile R151), one turn of the host at a time: `SB.RESET`, then for each character, while
`full` is 0, the command the rule names, with `lead` and `full` after it; `full` is read from the response to the append of
the character's own glyph. A character without a glyph raises `EncodingFailure` first (a turn of its own, log 15) and counts
as blank. After the loop, `SB.COMMIT`. -/
def Obligations.TextCompileFollowsRule : Prop :=
  (∀ (p : Params) (text : List Char), (Pseudo.text text).expand p =
    [.present (encode .sbReset), .compile { left := text, lead := false, full := false, reported := false }]) ∧
  ∀ (s s' : State) (turns : List Turn) (c : Compile) (moves : List HostMove), s.sched = .host :: turns →
    s.hostWaiting = false → s.hostq = .compile c :: moves → s' = { s with sched := turns } →
    (c.left = [] ∨ c.full = true → step s = exec .sbCommit s') ∧
    ∀ (ch : Char) (cs : List Char), c.left = ch :: cs → c.full = false →
      ((ch = '.' ∨ ch = ',') →
        (s.shadow.length.toNat = 0 → ∀ t, exec (.sbAppend s.cfg.dpMask) s' = .next t → step s = .next { t with
          hostq := .compile { left := cs, lead := true, full := false, reported := false } :: moves }) ∧
        (s.shadow.length.toNat ≠ 0 → ∀ t, exec (.sbOrlast s.cfg.dpMask) s' = .next t → step s = .next { t with
          hostq := .compile { left := cs, lead := c.lead, full := false, reported := false } :: moves })) ∧
      (ch ≠ '.' → ch ≠ ',' →
        (s.cfg.glyphOf ch = none → c.reported = false → step s = .next { s' with
          hostq := .compile { c with reported := true } :: moves, diag := s.diag ++ [.encodingFailure ch] }) ∧
        ∀ g : Byte, (s.cfg.glyphOf ch = some g ∨ (s.cfg.glyphOf ch = none ∧ c.reported = true ∧ g = 0x00)) →
          (c.lead = true → ∀ t, exec (.sbOrlast g) s' = .next t → step s = .next { t with
            hostq := .compile { left := cs, lead := false, full := false, reported := false } :: moves }) ∧
          (c.lead = false → ∀ t, exec (.sbAppend g) s' = .next t → step s = .next { t with
            hostq := .compile {
              left := cs, lead := false, full := decide (t.responses = s.responses ++ [0x8500#16]),
              reported := false } :: moves }))

/-- A compiled message (43_text_compile R150 to R156): in a session that is not destroyed, `TEXT` issues exactly the moves
of `compileChars`, one a turn, and they leave in the shadow bank exactly the message's glyphs, the cursor at 0, the active
bank and the sequencer untouched; its `SB.COMMIT` is the next command. The number of turns counts one of its own for each
`EncodingFailure`, which is the model's choice (log 15). -/
def Obligations.TextLeavesItsMessage : Prop :=
  ∀ (s : State) (text : List Char) (moves rest : List HostMove), s.sess ≠ .destroyed → s.hostWaiting = false →
    s.hostq = (Pseudo.text text).expand s.cfg.toParams ++ rest →
    moves = commandMove .sbReset :: compileChars s.cfg.toParams text 0 false →
    ∃ (t : State) (c : Compile),
      runTurns (List.replicate moves.length .host) s = .next { t with hostq := .compile c :: rest } ∧
      (c.left = [] ∨ c.full = true) ∧
      runTurns (List.replicate moves.length .host) { s with hostq := moves ++ rest } = .next t ∧
      t.shadow.Holds (messageGlyphs s.cfg.toParams text [] false) ∧ t.shadow.cursor = 0 ∧ t.active = s.active ∧
      t.act = s.act ∧ t.rph = s.rph ∧ t.trace = s.trace ∧ t.hostq = rest

/-- `TEXT` in a destroyed session (43_text_compile R151, 30_encoding R69): every command is refused with `BadState`, so
`full` stays 0 and every character is issued; nothing but the events and the responses is left of it. Two choices of the
model stand in it (log 15): `n` of R151 is read from the shadow bank's `length`, which no refused append changes, so that a
dot is an append while that bank is empty and a mark otherwise (a host that counts its own appends from 0 would differ on a
bank that is not empty); and each `EncodingFailure` takes a turn of its own. -/
def Obligations.TextInDestroyedSessionIsRefused : Prop :=
  ∀ (s : State) (text : List Char) (events : List Diag) (rest : List HostMove), s.sess = .destroyed →
    s.hostWaiting = false → s.hostq = (Pseudo.text text).expand s.cfg.toParams ++ rest →
    events = refusedText s.cfg.toParams s.shadow.length.toNat text →
    runTurns (List.replicate events.length .host) s = .next { s with
      hostq := rest, diag := s.diag ++ events, responses := s.responses ++ List.replicate (text.length + 2) 0x8700#16 }

/-- The boot (70_reset R205): `WT.INIT`, and the startup stops if it fails, whether by its draw or because the session is not
uninitialised (30_encoding R69): none of its configuration frames, nor its first message, is presented. Once the block is
initialised they are what the host presents next. The order among the five frames, and the turn in which the host reads the
response, are the model's choices (log 23). -/
def Obligations.BootStopsIfInitFails : Prop :=
  ∀ (s : State) (scanLimit intensity : Byte) (text : List Char) (rest : List HostMove), s.hostWaiting = false →
    s.hostq = bootMoves s.cfg.toParams scanLimit intensity text ++ rest →
    (s.sess = .uninit → s.nextInitOk = false →
      runTurns [.host, .host] s = .next { s.afterInitOk with
        sess := .destroyed
        stopReq := true
        rph := if s.rph = .rIdle then .rHalted else s.rph
        diag := s.diag ++ [.initializationFailure s.cfg.backend]
        hostq := rest
        responses := s.responses ++ [0x8100#16] }) ∧
    (s.sess ≠ .uninit →
      runTurns [.host, .host] s = .next { s with
        diag := s.diag ++ [.badState (some 0x01)], hostq := rest, responses := s.responses ++ [0x8700#16] }) ∧
    ∀ moves : List HostMove,
      moves = [.present (encode (.wtSend s.cfg.regDecode s.cfg.decodeOff)),
        .present (encode (.wtSend s.cfg.regScanlimit scanLimit)),
        .present (encode (.wtSend s.cfg.regIntensity intensity)),
        .present (encode (.wtSend s.cfg.regShutdown s.cfg.shutdownOn)),
        .present (encode (.wtSend s.cfg.regTest s.cfg.testOff))] ++ (Pseudo.text text).expand s.cfg.toParams ++ rest →
      (s.sess = .uninit → s.nextInitOk = true → s.cfg.backend = .devnode →
        runTurns [.host, .host] s = .next { s.afterInitOk with
          wst := .ready, sess := .ready, hostq := moves, responses := s.responses ++ [0x0000#16] }) ∧
      (s.sess = .uninit → s.nextInitOk = true → s.cfg.backend = .mmio → s.fph = .fIdle →
        ∃ t, runTurns (.host :: List.replicate 6 .wt ++ [.host]) s = .next t ∧ t.hostq = moves ∧ t.sess = .ready ∧
          t.wst = .ready ∧ t.responses = s.responses ++ [0x0000#16] ∧ t.diag = s.diag)
end

