-- ==== Sys2Proof/Laws/Store.lean ====
section
/-! SUPPORT. The laws of the canonical store: what a read after a write gives, and that every write keeps the canonical
form. Everything about the glyph store and the GPIO window rests on these. -/

namespace Sys2Proof

namespace Store

variable {α : Type} (dflt : Nat → α)

@[simp] theorem read_nil (a : Nat) : Store.read dflt [] a = dflt a := rfl

theorem read_cons (k : Nat) (v : α) (m : Store α) (a : Nat) :
    Store.read dflt ((k, v) :: m) a = if k = a then v else Store.read dflt m a := rfl

/-- An address below every listed one is unlisted. -/
theorem read_below {m : Store α} {a : Nat} (h : ∀ c ∈ m, a < c.1) : Store.read dflt m a = dflt a := by
  induction m with
  | nil => rfl
  | cons c m ih =>
    obtain ⟨k, v⟩ := c
    have hk : a < k := h (k, v) (by simp)
    rw [read_cons, if_neg (by omega), ih fun c hc => h c (by simp [hc])]

variable [DecidableEq α]

@[simp] theorem wf_nil : Store.wf dflt [] = true := rfl

/-- The canonical form of a store, taken apart. -/
theorem wf_cons (k : Nat) (v : α) (m : Store α) :
    Store.wf dflt ((k, v) :: m) = true ↔ v ≠ dflt k ∧ (∀ c ∈ m, k < c.1) ∧ Store.wf dflt m = true := by
  simp [Store.wf, and_assoc]

theorem read_put {m : Store α} {a : Nat} (h : ∀ c ∈ m, a < c.1) (v : α) (b : Nat) :
    Store.read dflt (Store.put dflt a v m) b = if b = a then v else Store.read dflt m b := by
  unfold Store.put
  split_ifs with hv hb hb
  · subst hb; rw [read_below dflt h, hv]
  · rfl
  · rw [read_cons, if_pos hb.symm]
  · rw [read_cons, if_neg (by omega)]

theorem wf_put {m : Store α} {a : Nat} (h : ∀ c ∈ m, a < c.1) (hm : Store.wf dflt m = true) (v : α) :
    Store.wf dflt (Store.put dflt a v m) = true := by
  unfold Store.put
  split_ifs with hv
  · exact hm
  · exact (wf_cons dflt a v m).mpr ⟨hv, h, hm⟩

theorem mem_put {m : Store α} {a : Nat} {v : α} {c : Nat × α} (h : c ∈ Store.put dflt a v m) : c.1 = a ∨ c ∈ m := by
  unfold Store.put at h
  split_ifs at h with hv
  · exact .inr h
  · rcases List.mem_cons.mp h with rfl | h
    · exact .inl rfl
    · exact .inr h

/-- A write lists no address but its own and those listed before. -/
theorem mem_write {m : Store α} {a : Nat} {v : α} {c : Nat × α} (h : c ∈ Store.write dflt m a v) :
    c.1 = a ∨ c ∈ m := by
  induction m with
  | nil => exact mem_put dflt h
  | cons d m ih =>
    obtain ⟨k, x⟩ := d
    unfold Store.write at h
    split_ifs at h with h1 h2
    · exact mem_put dflt h
    · rcases mem_put dflt h with h | h
      · exact .inl h
      · exact .inr (by simp [h])
    · rcases List.mem_cons.mp h with rfl | h
      · exact .inr (by simp)
      · rcases ih h with h | h
        · exact .inl h
        · exact .inr (by simp [h])

theorem write_cons (k : Nat) (x : α) (m : Store α) (a : Nat) (v : α) :
    Store.write dflt ((k, x) :: m) a v =
      if a < k then Store.put dflt a v ((k, x) :: m)
      else if a = k then Store.put dflt a v m else (k, x) :: Store.write dflt m a v := rfl

/-- A read after a write: the value written at its address, every other address as before. -/
theorem read_write {m : Store α} (hm : Store.wf dflt m = true) (a : Nat) (v : α) (b : Nat) :
    Store.read dflt (Store.write dflt m a v) b = if b = a then v else Store.read dflt m b := by
  induction m with
  | nil => exact read_put dflt (by simp) v b
  | cons c m ih =>
    obtain ⟨k, x⟩ := c
    obtain ⟨-, hk, hm'⟩ := (wf_cons dflt k x m).mp hm
    rw [write_cons]
    by_cases h1 : a < k
    · rw [if_pos h1]
      refine read_put dflt ?_ v b
      intro c hc
      rcases List.mem_cons.mp hc with rfl | hc
      · exact h1
      · exact h1.trans (hk c hc)
    · rw [if_neg h1]
      by_cases h2 : a = k
      · subst h2
        rw [if_pos rfl, read_put dflt hk v b, read_cons]
        split_ifs <;> first | rfl | omega
      · rw [if_neg h2, read_cons, read_cons, ih hm']
        split_ifs <;> first | rfl | omega

/-- A write keeps the canonical form. -/
theorem wf_write {m : Store α} (hm : Store.wf dflt m = true) (a : Nat) (v : α) :
    Store.wf dflt (Store.write dflt m a v) = true := by
  induction m with
  | nil => exact wf_put dflt (by simp) rfl v
  | cons c m ih =>
    obtain ⟨k, x⟩ := c
    obtain ⟨hx, hk, hm'⟩ := (wf_cons dflt k x m).mp hm
    unfold Store.write
    split_ifs with h1 h2
    · refine wf_put dflt ?_ hm v
      intro c hc
      rcases List.mem_cons.mp hc with rfl | hc
      · exact h1
      · exact h1.trans (hk c hc)
    · subst h2; exact wf_put dflt hk hm' v
    · refine (wf_cons dflt k x _).mpr ⟨hx, ?_, ih hm'⟩
      intro c hc
      rcases mem_write dflt hc with h | h
      · omega
      · exact hk c h

/-- Two canonical stores that read alike are the same list. -/
theorem ext_of_wf {m n : Store α} (hm : Store.wf dflt m = true) (hn : Store.wf dflt n = true)
    (h : ∀ a, Store.read dflt m a = Store.read dflt n a) : m = n := by
  induction m generalizing n with
  | nil =>
    cases n with
    | nil => rfl
    | cons c n =>
      obtain ⟨k, x⟩ := c
      have := h k
      rw [read_cons, if_pos rfl, read_nil] at this
      exact absurd this.symm ((wf_cons dflt k x n).mp hn).1
  | cons c m ih =>
    obtain ⟨k, x⟩ := c
    obtain ⟨hx, hk, hm'⟩ := (wf_cons dflt k x m).mp hm
    cases n with
    | nil =>
      have := h k
      rw [read_cons, if_pos rfl, read_nil] at this
      exact absurd this hx
    | cons d n =>
      obtain ⟨l, y⟩ := d
      obtain ⟨hy, hl, hn'⟩ := (wf_cons dflt l y n).mp hn
      have hkl : k = l := by
        rcases lt_trichotomy k l with hlt | heq | hgt
        · have := h k
          rw [read_cons, if_pos rfl, read_below dflt (m := (l, y) :: n)] at this
          · exact absurd this hx
          · intro c hc
            rcases List.mem_cons.mp hc with rfl | hc
            · exact hlt
            · exact hlt.trans (hl c hc)
        · exact heq
        · have := (h l).symm
          rw [read_cons, if_pos rfl, read_below dflt (m := (k, x) :: m)] at this
          · exact absurd this hy
          · intro c hc
            rcases List.mem_cons.mp hc with rfl | hc
            · exact hgt
            · exact hgt.trans (hk c hc)
      subst hkl
      have hxy : x = y := by
        have := h k
        rwa [read_cons, read_cons, if_pos rfl, if_pos rfl] at this
      subst hxy
      rw [ih hm' hn']
      intro a
      by_cases hka : k = a
      · subst hka; rw [read_below dflt hk, read_below dflt hl]
      · have := h a
        rwa [read_cons, read_cons, if_neg hka, if_neg hka] at this

end Store

end Sys2Proof
end

