-- ==== Sys2Proof/Laws/State.lean ====
section
/-! SUPPORT. What each named update of the state does to each field: one lemma per field per update, so that no later proof
unfolds a record update. -/

namespace Sys2Proof.Machine

namespace State

/-! ### `setBank` -/

@[simp] theorem setBank_cfg (s : State) (k : Bool) (b : Bank) : (s.setBank k b).cfg = s.cfg := by cases k <;> rfl
@[simp] theorem setBank_bank0 (s : State) (k : Bool) (b : Bank) : (s.setBank k b).bank0 = if k then s.bank0 else b := by
  cases k <;> rfl
@[simp] theorem setBank_bank1 (s : State) (k : Bool) (b : Bank) : (s.setBank k b).bank1 = if k then b else s.bank1 := by
  cases k <;> rfl
@[simp] theorem setBank_act (s : State) (k : Bool) (b : Bank) : (s.setBank k b).act = s.act := by cases k <;> rfl
@[simp] theorem setBank_rph (s : State) (k : Bool) (b : Bank) : (s.setBank k b).rph = s.rph := by cases k <;> rfl
@[simp] theorem setBank_pos (s : State) (k : Bool) (b : Bank) : (s.setBank k b).pos = s.pos := by cases k <;> rfl
@[simp] theorem setBank_idx (s : State) (k : Bool) (b : Bank) : (s.setBank k b).idx = s.idx := by cases k <;> rfl
@[simp] theorem setBank_stopReq (s : State) (k : Bool) (b : Bank) : (s.setBank k b).stopReq = s.stopReq := by
  cases k <;> rfl
@[simp] theorem setBank_wst (s : State) (k : Bool) (b : Bank) : (s.setBank k b).wst = s.wst := by cases k <;> rfl
@[simp] theorem setBank_sh (s : State) (k : Bool) (b : Bank) : (s.setBank k b).sh = s.sh := by cases k <;> rfl
@[simp] theorem setBank_bitn (s : State) (k : Bool) (b : Bank) : (s.setBank k b).bitn = s.bitn := by cases k <;> rfl
@[simp] theorem setBank_fph (s : State) (k : Bool) (b : Bank) : (s.setBank k b).fph = s.fph := by cases k <;> rfl
@[simp] theorem setBank_fown (s : State) (k : Bool) (b : Bank) : (s.setBank k b).fown = s.fown := by cases k <;> rfl
@[simp] theorem setBank_iph (s : State) (k : Bool) (b : Bank) : (s.setBank k b).iph = s.iph := by cases k <;> rfl
@[simp] theorem setBank_ftmp (s : State) (k : Bool) (b : Bank) : (s.setBank k b).ftmp = s.ftmp := by cases k <;> rfl
@[simp] theorem setBank_sess (s : State) (k : Bool) (b : Bank) : (s.setBank k b).sess = s.sess := by cases k <;> rfl
@[simp] theorem setBank_lines (s : State) (k : Bool) (b : Bank) : (s.setBank k b).lines = s.lines := by cases k <;> rfl
@[simp] theorem setBank_fsel (s : State) (k : Bool) (b : Bank) : (s.setBank k b).fsel = s.fsel := by cases k <;> rfl
@[simp] theorem setBank_out (s : State) (k : Bool) (b : Bank) : (s.setBank k b).out = s.out := by cases k <;> rfl
@[simp] theorem setBank_trace (s : State) (k : Bool) (b : Bank) : (s.setBank k b).trace = s.trace := by cases k <;> rfl
@[simp] theorem setBank_frames (s : State) (k : Bool) (b : Bank) : (s.setBank k b).frames = s.frames := by
  cases k <;> rfl
@[simp] theorem setBank_diag (s : State) (k : Bool) (b : Bank) : (s.setBank k b).diag = s.diag := by cases k <;> rfl
@[simp] theorem setBank_responses (s : State) (k : Bool) (b : Bank) : (s.setBank k b).responses = s.responses := by
  cases k <;> rfl
@[simp] theorem setBank_bus (s : State) (k : Bool) (b : Bank) : (s.setBank k b).bus = s.bus := by cases k <;> rfl
@[simp] theorem setBank_hostq (s : State) (k : Bool) (b : Bank) : (s.setBank k b).hostq = s.hostq := by cases k <;> rfl
@[simp] theorem setBank_sched (s : State) (k : Bool) (b : Bank) : (s.setBank k b).sched = s.sched := by cases k <;> rfl
@[simp] theorem setBank_initOkIn (s : State) (k : Bool) (b : Bank) : (s.setBank k b).initOkIn = s.initOkIn := by
  cases k <;> rfl
@[simp] theorem setBank_xfailIn (s : State) (k : Bool) (b : Bank) : (s.setBank k b).xfailIn = s.xfailIn := by
  cases k <;> rfl
@[simp] theorem setBank_draws (s : State) (k : Bool) (b : Bank) : (s.setBank k b).draws = s.draws := by cases k <;> rfl

/-! ### `setShadow` -/

@[simp] theorem setShadow_cfg (s : State) (b : Bank) : (s.setShadow b).cfg = s.cfg := setBank_cfg s (!s.act) b
@[simp] theorem setShadow_act (s : State) (b : Bank) : (s.setShadow b).act = s.act := setBank_act s (!s.act) b
@[simp] theorem setShadow_rph (s : State) (b : Bank) : (s.setShadow b).rph = s.rph := setBank_rph s (!s.act) b
@[simp] theorem setShadow_pos (s : State) (b : Bank) : (s.setShadow b).pos = s.pos := setBank_pos s (!s.act) b
@[simp] theorem setShadow_idx (s : State) (b : Bank) : (s.setShadow b).idx = s.idx := setBank_idx s (!s.act) b
@[simp] theorem setShadow_stopReq (s : State) (b : Bank) : (s.setShadow b).stopReq = s.stopReq :=
  setBank_stopReq s (!s.act) b
@[simp] theorem setShadow_wst (s : State) (b : Bank) : (s.setShadow b).wst = s.wst := setBank_wst s (!s.act) b
@[simp] theorem setShadow_sh (s : State) (b : Bank) : (s.setShadow b).sh = s.sh := setBank_sh s (!s.act) b
@[simp] theorem setShadow_bitn (s : State) (b : Bank) : (s.setShadow b).bitn = s.bitn := setBank_bitn s (!s.act) b
@[simp] theorem setShadow_fph (s : State) (b : Bank) : (s.setShadow b).fph = s.fph := setBank_fph s (!s.act) b
@[simp] theorem setShadow_fown (s : State) (b : Bank) : (s.setShadow b).fown = s.fown := setBank_fown s (!s.act) b
@[simp] theorem setShadow_iph (s : State) (b : Bank) : (s.setShadow b).iph = s.iph := setBank_iph s (!s.act) b
@[simp] theorem setShadow_ftmp (s : State) (b : Bank) : (s.setShadow b).ftmp = s.ftmp := setBank_ftmp s (!s.act) b
@[simp] theorem setShadow_sess (s : State) (b : Bank) : (s.setShadow b).sess = s.sess := setBank_sess s (!s.act) b
@[simp] theorem setShadow_lines (s : State) (b : Bank) : (s.setShadow b).lines = s.lines := setBank_lines s (!s.act) b
@[simp] theorem setShadow_fsel (s : State) (b : Bank) : (s.setShadow b).fsel = s.fsel := setBank_fsel s (!s.act) b
@[simp] theorem setShadow_out (s : State) (b : Bank) : (s.setShadow b).out = s.out := setBank_out s (!s.act) b
@[simp] theorem setShadow_trace (s : State) (b : Bank) : (s.setShadow b).trace = s.trace := setBank_trace s (!s.act) b
@[simp] theorem setShadow_frames (s : State) (b : Bank) : (s.setShadow b).frames = s.frames :=
  setBank_frames s (!s.act) b
@[simp] theorem setShadow_diag (s : State) (b : Bank) : (s.setShadow b).diag = s.diag := setBank_diag s (!s.act) b
@[simp] theorem setShadow_responses (s : State) (b : Bank) : (s.setShadow b).responses = s.responses :=
  setBank_responses s (!s.act) b
@[simp] theorem setShadow_bus (s : State) (b : Bank) : (s.setShadow b).bus = s.bus := setBank_bus s (!s.act) b
@[simp] theorem setShadow_hostq (s : State) (b : Bank) : (s.setShadow b).hostq = s.hostq := setBank_hostq s (!s.act) b
@[simp] theorem setShadow_sched (s : State) (b : Bank) : (s.setShadow b).sched = s.sched := setBank_sched s (!s.act) b
@[simp] theorem setShadow_initOkIn (s : State) (b : Bank) : (s.setShadow b).initOkIn = s.initOkIn :=
  setBank_initOkIn s (!s.act) b
@[simp] theorem setShadow_xfailIn (s : State) (b : Bank) : (s.setShadow b).xfailIn = s.xfailIn :=
  setBank_xfailIn s (!s.act) b
@[simp] theorem setShadow_draws (s : State) (b : Bank) : (s.setShadow b).draws = s.draws := setBank_draws s (!s.act) b

/-! ### `setActive` -/

@[simp] theorem setActive_cfg (s : State) (b : Bank) : (s.setActive b).cfg = s.cfg := setBank_cfg s s.act b
@[simp] theorem setActive_act (s : State) (b : Bank) : (s.setActive b).act = s.act := setBank_act s s.act b
@[simp] theorem setActive_rph (s : State) (b : Bank) : (s.setActive b).rph = s.rph := setBank_rph s s.act b
@[simp] theorem setActive_pos (s : State) (b : Bank) : (s.setActive b).pos = s.pos := setBank_pos s s.act b
@[simp] theorem setActive_idx (s : State) (b : Bank) : (s.setActive b).idx = s.idx := setBank_idx s s.act b
@[simp] theorem setActive_stopReq (s : State) (b : Bank) : (s.setActive b).stopReq = s.stopReq :=
  setBank_stopReq s s.act b
@[simp] theorem setActive_wst (s : State) (b : Bank) : (s.setActive b).wst = s.wst := setBank_wst s s.act b
@[simp] theorem setActive_sh (s : State) (b : Bank) : (s.setActive b).sh = s.sh := setBank_sh s s.act b
@[simp] theorem setActive_bitn (s : State) (b : Bank) : (s.setActive b).bitn = s.bitn := setBank_bitn s s.act b
@[simp] theorem setActive_fph (s : State) (b : Bank) : (s.setActive b).fph = s.fph := setBank_fph s s.act b
@[simp] theorem setActive_fown (s : State) (b : Bank) : (s.setActive b).fown = s.fown := setBank_fown s s.act b
@[simp] theorem setActive_iph (s : State) (b : Bank) : (s.setActive b).iph = s.iph := setBank_iph s s.act b
@[simp] theorem setActive_ftmp (s : State) (b : Bank) : (s.setActive b).ftmp = s.ftmp := setBank_ftmp s s.act b
@[simp] theorem setActive_sess (s : State) (b : Bank) : (s.setActive b).sess = s.sess := setBank_sess s s.act b
@[simp] theorem setActive_lines (s : State) (b : Bank) : (s.setActive b).lines = s.lines := setBank_lines s s.act b
@[simp] theorem setActive_fsel (s : State) (b : Bank) : (s.setActive b).fsel = s.fsel := setBank_fsel s s.act b
@[simp] theorem setActive_out (s : State) (b : Bank) : (s.setActive b).out = s.out := setBank_out s s.act b
@[simp] theorem setActive_trace (s : State) (b : Bank) : (s.setActive b).trace = s.trace := setBank_trace s s.act b
@[simp] theorem setActive_frames (s : State) (b : Bank) : (s.setActive b).frames = s.frames := setBank_frames s s.act b
@[simp] theorem setActive_diag (s : State) (b : Bank) : (s.setActive b).diag = s.diag := setBank_diag s s.act b
@[simp] theorem setActive_responses (s : State) (b : Bank) : (s.setActive b).responses = s.responses :=
  setBank_responses s s.act b
@[simp] theorem setActive_bus (s : State) (b : Bank) : (s.setActive b).bus = s.bus := setBank_bus s s.act b
@[simp] theorem setActive_hostq (s : State) (b : Bank) : (s.setActive b).hostq = s.hostq := setBank_hostq s s.act b
@[simp] theorem setActive_sched (s : State) (b : Bank) : (s.setActive b).sched = s.sched := setBank_sched s s.act b
@[simp] theorem setActive_initOkIn (s : State) (b : Bank) : (s.setActive b).initOkIn = s.initOkIn :=
  setBank_initOkIn s s.act b
@[simp] theorem setActive_xfailIn (s : State) (b : Bank) : (s.setActive b).xfailIn = s.xfailIn :=
  setBank_xfailIn s s.act b
@[simp] theorem setActive_draws (s : State) (b : Bank) : (s.setActive b).draws = s.draws := setBank_draws s s.act b

/-! ### `raise` -/

@[simp] theorem raise_cfg (s : State) (e : Diag) : (s.raise e).cfg = s.cfg := rfl
@[simp] theorem raise_bank0 (s : State) (e : Diag) : (s.raise e).bank0 = s.bank0 := rfl
@[simp] theorem raise_bank1 (s : State) (e : Diag) : (s.raise e).bank1 = s.bank1 := rfl
@[simp] theorem raise_act (s : State) (e : Diag) : (s.raise e).act = s.act := rfl
@[simp] theorem raise_rph (s : State) (e : Diag) : (s.raise e).rph = s.rph := rfl
@[simp] theorem raise_pos (s : State) (e : Diag) : (s.raise e).pos = s.pos := rfl
@[simp] theorem raise_idx (s : State) (e : Diag) : (s.raise e).idx = s.idx := rfl
@[simp] theorem raise_stopReq (s : State) (e : Diag) : (s.raise e).stopReq = s.stopReq := rfl
@[simp] theorem raise_wst (s : State) (e : Diag) : (s.raise e).wst = s.wst := rfl
@[simp] theorem raise_sh (s : State) (e : Diag) : (s.raise e).sh = s.sh := rfl
@[simp] theorem raise_bitn (s : State) (e : Diag) : (s.raise e).bitn = s.bitn := rfl
@[simp] theorem raise_fph (s : State) (e : Diag) : (s.raise e).fph = s.fph := rfl
@[simp] theorem raise_fown (s : State) (e : Diag) : (s.raise e).fown = s.fown := rfl
@[simp] theorem raise_iph (s : State) (e : Diag) : (s.raise e).iph = s.iph := rfl
@[simp] theorem raise_ftmp (s : State) (e : Diag) : (s.raise e).ftmp = s.ftmp := rfl
@[simp] theorem raise_sess (s : State) (e : Diag) : (s.raise e).sess = s.sess := rfl
@[simp] theorem raise_lines (s : State) (e : Diag) : (s.raise e).lines = s.lines := rfl
@[simp] theorem raise_fsel (s : State) (e : Diag) : (s.raise e).fsel = s.fsel := rfl
@[simp] theorem raise_out (s : State) (e : Diag) : (s.raise e).out = s.out := rfl
@[simp] theorem raise_trace (s : State) (e : Diag) : (s.raise e).trace = s.trace := rfl
@[simp] theorem raise_frames (s : State) (e : Diag) : (s.raise e).frames = s.frames := rfl
@[simp] theorem raise_diag (s : State) (e : Diag) : (s.raise e).diag = s.diag ++ [e] := rfl
@[simp] theorem raise_responses (s : State) (e : Diag) : (s.raise e).responses = s.responses := rfl
@[simp] theorem raise_bus (s : State) (e : Diag) : (s.raise e).bus = s.bus := rfl
@[simp] theorem raise_hostq (s : State) (e : Diag) : (s.raise e).hostq = s.hostq := rfl
@[simp] theorem raise_sched (s : State) (e : Diag) : (s.raise e).sched = s.sched := rfl
@[simp] theorem raise_initOkIn (s : State) (e : Diag) : (s.raise e).initOkIn = s.initOkIn := rfl
@[simp] theorem raise_xfailIn (s : State) (e : Diag) : (s.raise e).xfailIn = s.xfailIn := rfl
@[simp] theorem raise_draws (s : State) (e : Diag) : (s.raise e).draws = s.draws := rfl

/-! ### `raiseOpt` -/

@[simp] theorem raiseOpt_cfg (s : State) (e : Option Diag) : (s.raiseOpt e).cfg = s.cfg := by
  cases e <;> simp [State.raiseOpt, State.raise]
@[simp] theorem raiseOpt_bank0 (s : State) (e : Option Diag) : (s.raiseOpt e).bank0 = s.bank0 := by
  cases e <;> simp [State.raiseOpt, State.raise]
@[simp] theorem raiseOpt_bank1 (s : State) (e : Option Diag) : (s.raiseOpt e).bank1 = s.bank1 := by
  cases e <;> simp [State.raiseOpt, State.raise]
@[simp] theorem raiseOpt_act (s : State) (e : Option Diag) : (s.raiseOpt e).act = s.act := by
  cases e <;> simp [State.raiseOpt, State.raise]
@[simp] theorem raiseOpt_rph (s : State) (e : Option Diag) : (s.raiseOpt e).rph = s.rph := by
  cases e <;> simp [State.raiseOpt, State.raise]
@[simp] theorem raiseOpt_pos (s : State) (e : Option Diag) : (s.raiseOpt e).pos = s.pos := by
  cases e <;> simp [State.raiseOpt, State.raise]
@[simp] theorem raiseOpt_idx (s : State) (e : Option Diag) : (s.raiseOpt e).idx = s.idx := by
  cases e <;> simp [State.raiseOpt, State.raise]
@[simp] theorem raiseOpt_stopReq (s : State) (e : Option Diag) : (s.raiseOpt e).stopReq = s.stopReq := by
  cases e <;> simp [State.raiseOpt, State.raise]
@[simp] theorem raiseOpt_wst (s : State) (e : Option Diag) : (s.raiseOpt e).wst = s.wst := by
  cases e <;> simp [State.raiseOpt, State.raise]
@[simp] theorem raiseOpt_sh (s : State) (e : Option Diag) : (s.raiseOpt e).sh = s.sh := by
  cases e <;> simp [State.raiseOpt, State.raise]
@[simp] theorem raiseOpt_bitn (s : State) (e : Option Diag) : (s.raiseOpt e).bitn = s.bitn := by
  cases e <;> simp [State.raiseOpt, State.raise]
@[simp] theorem raiseOpt_fph (s : State) (e : Option Diag) : (s.raiseOpt e).fph = s.fph := by
  cases e <;> simp [State.raiseOpt, State.raise]
@[simp] theorem raiseOpt_fown (s : State) (e : Option Diag) : (s.raiseOpt e).fown = s.fown := by
  cases e <;> simp [State.raiseOpt, State.raise]
@[simp] theorem raiseOpt_iph (s : State) (e : Option Diag) : (s.raiseOpt e).iph = s.iph := by
  cases e <;> simp [State.raiseOpt, State.raise]
@[simp] theorem raiseOpt_ftmp (s : State) (e : Option Diag) : (s.raiseOpt e).ftmp = s.ftmp := by
  cases e <;> simp [State.raiseOpt, State.raise]
@[simp] theorem raiseOpt_sess (s : State) (e : Option Diag) : (s.raiseOpt e).sess = s.sess := by
  cases e <;> simp [State.raiseOpt, State.raise]
@[simp] theorem raiseOpt_lines (s : State) (e : Option Diag) : (s.raiseOpt e).lines = s.lines := by
  cases e <;> simp [State.raiseOpt, State.raise]
@[simp] theorem raiseOpt_fsel (s : State) (e : Option Diag) : (s.raiseOpt e).fsel = s.fsel := by
  cases e <;> simp [State.raiseOpt, State.raise]
@[simp] theorem raiseOpt_out (s : State) (e : Option Diag) : (s.raiseOpt e).out = s.out := by
  cases e <;> simp [State.raiseOpt, State.raise]
@[simp] theorem raiseOpt_trace (s : State) (e : Option Diag) : (s.raiseOpt e).trace = s.trace := by
  cases e <;> simp [State.raiseOpt, State.raise]
@[simp] theorem raiseOpt_frames (s : State) (e : Option Diag) : (s.raiseOpt e).frames = s.frames := by
  cases e <;> simp [State.raiseOpt, State.raise]
@[simp] theorem raiseOpt_diag (s : State) (e : Option Diag) : (s.raiseOpt e).diag = s.diag ++ e.toList := by
  cases e <;> simp [State.raiseOpt, State.raise]
@[simp] theorem raiseOpt_responses (s : State) (e : Option Diag) : (s.raiseOpt e).responses = s.responses := by
  cases e <;> simp [State.raiseOpt, State.raise]
@[simp] theorem raiseOpt_bus (s : State) (e : Option Diag) : (s.raiseOpt e).bus = s.bus := by
  cases e <;> simp [State.raiseOpt, State.raise]
@[simp] theorem raiseOpt_hostq (s : State) (e : Option Diag) : (s.raiseOpt e).hostq = s.hostq := by
  cases e <;> simp [State.raiseOpt, State.raise]
@[simp] theorem raiseOpt_sched (s : State) (e : Option Diag) : (s.raiseOpt e).sched = s.sched := by
  cases e <;> simp [State.raiseOpt, State.raise]
@[simp] theorem raiseOpt_initOkIn (s : State) (e : Option Diag) : (s.raiseOpt e).initOkIn = s.initOkIn := by
  cases e <;> simp [State.raiseOpt, State.raise]
@[simp] theorem raiseOpt_xfailIn (s : State) (e : Option Diag) : (s.raiseOpt e).xfailIn = s.xfailIn := by
  cases e <;> simp [State.raiseOpt, State.raise]
@[simp] theorem raiseOpt_draws (s : State) (e : Option Diag) : (s.raiseOpt e).draws = s.draws := by
  cases e <;> simp [State.raiseOpt, State.raise]

/-! ### `respond` -/

@[simp] theorem respond_cfg (s : State) (r : Word16) : (s.respond r).cfg = s.cfg := rfl
@[simp] theorem respond_bank0 (s : State) (r : Word16) : (s.respond r).bank0 = s.bank0 := rfl
@[simp] theorem respond_bank1 (s : State) (r : Word16) : (s.respond r).bank1 = s.bank1 := rfl
@[simp] theorem respond_act (s : State) (r : Word16) : (s.respond r).act = s.act := rfl
@[simp] theorem respond_rph (s : State) (r : Word16) : (s.respond r).rph = s.rph := rfl
@[simp] theorem respond_pos (s : State) (r : Word16) : (s.respond r).pos = s.pos := rfl
@[simp] theorem respond_idx (s : State) (r : Word16) : (s.respond r).idx = s.idx := rfl
@[simp] theorem respond_stopReq (s : State) (r : Word16) : (s.respond r).stopReq = s.stopReq := rfl
@[simp] theorem respond_wst (s : State) (r : Word16) : (s.respond r).wst = s.wst := rfl
@[simp] theorem respond_sh (s : State) (r : Word16) : (s.respond r).sh = s.sh := rfl
@[simp] theorem respond_bitn (s : State) (r : Word16) : (s.respond r).bitn = s.bitn := rfl
@[simp] theorem respond_fph (s : State) (r : Word16) : (s.respond r).fph = s.fph := rfl
@[simp] theorem respond_fown (s : State) (r : Word16) : (s.respond r).fown = s.fown := rfl
@[simp] theorem respond_iph (s : State) (r : Word16) : (s.respond r).iph = s.iph := rfl
@[simp] theorem respond_ftmp (s : State) (r : Word16) : (s.respond r).ftmp = s.ftmp := rfl
@[simp] theorem respond_sess (s : State) (r : Word16) : (s.respond r).sess = s.sess := rfl
@[simp] theorem respond_lines (s : State) (r : Word16) : (s.respond r).lines = s.lines := rfl
@[simp] theorem respond_fsel (s : State) (r : Word16) : (s.respond r).fsel = s.fsel := rfl
@[simp] theorem respond_out (s : State) (r : Word16) : (s.respond r).out = s.out := rfl
@[simp] theorem respond_trace (s : State) (r : Word16) : (s.respond r).trace = s.trace := rfl
@[simp] theorem respond_frames (s : State) (r : Word16) : (s.respond r).frames = s.frames := rfl
@[simp] theorem respond_diag (s : State) (r : Word16) : (s.respond r).diag = s.diag := rfl
@[simp] theorem respond_responses (s : State) (r : Word16) : (s.respond r).responses = s.responses ++ [r] := rfl
@[simp] theorem respond_bus (s : State) (r : Word16) : (s.respond r).bus = s.bus := rfl
@[simp] theorem respond_hostq (s : State) (r : Word16) : (s.respond r).hostq = s.hostq := rfl
@[simp] theorem respond_sched (s : State) (r : Word16) : (s.respond r).sched = s.sched := rfl
@[simp] theorem respond_initOkIn (s : State) (r : Word16) : (s.respond r).initOkIn = s.initOkIn := rfl
@[simp] theorem respond_xfailIn (s : State) (r : Word16) : (s.respond r).xfailIn = s.xfailIn := rfl
@[simp] theorem respond_draws (s : State) (r : Word16) : (s.respond r).draws = s.draws := rfl

/-! ### `accept` -/

@[simp] theorem accept_cfg (s : State) : (s.accept).cfg = s.cfg := rfl
@[simp] theorem accept_bank0 (s : State) : (s.accept).bank0 = s.bank0 := rfl
@[simp] theorem accept_bank1 (s : State) : (s.accept).bank1 = s.bank1 := rfl
@[simp] theorem accept_act (s : State) : (s.accept).act = s.act := rfl
@[simp] theorem accept_rph (s : State) : (s.accept).rph = s.rph := rfl
@[simp] theorem accept_pos (s : State) : (s.accept).pos = s.pos := rfl
@[simp] theorem accept_idx (s : State) : (s.accept).idx = s.idx := rfl
@[simp] theorem accept_stopReq (s : State) : (s.accept).stopReq = s.stopReq := rfl
@[simp] theorem accept_wst (s : State) : (s.accept).wst = s.wst := rfl
@[simp] theorem accept_sh (s : State) : (s.accept).sh = s.sh := rfl
@[simp] theorem accept_bitn (s : State) : (s.accept).bitn = s.bitn := rfl
@[simp] theorem accept_fph (s : State) : (s.accept).fph = s.fph := rfl
@[simp] theorem accept_fown (s : State) : (s.accept).fown = s.fown := rfl
@[simp] theorem accept_iph (s : State) : (s.accept).iph = s.iph := rfl
@[simp] theorem accept_ftmp (s : State) : (s.accept).ftmp = s.ftmp := rfl
@[simp] theorem accept_sess (s : State) : (s.accept).sess = s.sess := rfl
@[simp] theorem accept_lines (s : State) : (s.accept).lines = s.lines := rfl
@[simp] theorem accept_fsel (s : State) : (s.accept).fsel = s.fsel := rfl
@[simp] theorem accept_out (s : State) : (s.accept).out = s.out := rfl
@[simp] theorem accept_trace (s : State) : (s.accept).trace = s.trace := rfl
@[simp] theorem accept_frames (s : State) : (s.accept).frames = s.frames := rfl
@[simp] theorem accept_diag (s : State) : (s.accept).diag = s.diag := rfl
@[simp] theorem accept_responses (s : State) : (s.accept).responses = s.responses := rfl
@[simp] theorem accept_bus (s : State) : (s.accept).bus = s.bus := rfl
@[simp] theorem accept_hostq (s : State) : (s.accept).hostq = s.hostq.tail := rfl
@[simp] theorem accept_sched (s : State) : (s.accept).sched = s.sched := rfl
@[simp] theorem accept_initOkIn (s : State) : (s.accept).initOkIn = s.initOkIn := rfl
@[simp] theorem accept_xfailIn (s : State) : (s.accept).xfailIn = s.xfailIn := rfl
@[simp] theorem accept_draws (s : State) : (s.accept).draws = s.draws := rfl

/-! ### `finish` -/

@[simp] theorem finish_cfg (s : State) (e : Option Diag) (v : Byte) : (s.finish e v).cfg = s.cfg := by
  simp [State.finish]
@[simp] theorem finish_bank0 (s : State) (e : Option Diag) (v : Byte) : (s.finish e v).bank0 = s.bank0 := by
  simp [State.finish]
@[simp] theorem finish_bank1 (s : State) (e : Option Diag) (v : Byte) : (s.finish e v).bank1 = s.bank1 := by
  simp [State.finish]
@[simp] theorem finish_act (s : State) (e : Option Diag) (v : Byte) : (s.finish e v).act = s.act := by
  simp [State.finish]
@[simp] theorem finish_rph (s : State) (e : Option Diag) (v : Byte) : (s.finish e v).rph = s.rph := by
  simp [State.finish]
@[simp] theorem finish_pos (s : State) (e : Option Diag) (v : Byte) : (s.finish e v).pos = s.pos := by
  simp [State.finish]
@[simp] theorem finish_idx (s : State) (e : Option Diag) (v : Byte) : (s.finish e v).idx = s.idx := by
  simp [State.finish]
@[simp] theorem finish_stopReq (s : State) (e : Option Diag) (v : Byte) : (s.finish e v).stopReq = s.stopReq := by
  simp [State.finish]
@[simp] theorem finish_wst (s : State) (e : Option Diag) (v : Byte) : (s.finish e v).wst = s.wst := by
  simp [State.finish]
@[simp] theorem finish_sh (s : State) (e : Option Diag) (v : Byte) : (s.finish e v).sh = s.sh := by simp [State.finish]
@[simp] theorem finish_bitn (s : State) (e : Option Diag) (v : Byte) : (s.finish e v).bitn = s.bitn := by
  simp [State.finish]
@[simp] theorem finish_fph (s : State) (e : Option Diag) (v : Byte) : (s.finish e v).fph = s.fph := by
  simp [State.finish]
@[simp] theorem finish_fown (s : State) (e : Option Diag) (v : Byte) : (s.finish e v).fown = s.fown := by
  simp [State.finish]
@[simp] theorem finish_iph (s : State) (e : Option Diag) (v : Byte) : (s.finish e v).iph = s.iph := by
  simp [State.finish]
@[simp] theorem finish_ftmp (s : State) (e : Option Diag) (v : Byte) : (s.finish e v).ftmp = s.ftmp := by
  simp [State.finish]
@[simp] theorem finish_sess (s : State) (e : Option Diag) (v : Byte) : (s.finish e v).sess = s.sess := by
  simp [State.finish]
@[simp] theorem finish_lines (s : State) (e : Option Diag) (v : Byte) : (s.finish e v).lines = s.lines := by
  simp [State.finish]
@[simp] theorem finish_fsel (s : State) (e : Option Diag) (v : Byte) : (s.finish e v).fsel = s.fsel := by
  simp [State.finish]
@[simp] theorem finish_out (s : State) (e : Option Diag) (v : Byte) : (s.finish e v).out = s.out := by
  simp [State.finish]
@[simp] theorem finish_trace (s : State) (e : Option Diag) (v : Byte) : (s.finish e v).trace = s.trace := by
  simp [State.finish]
@[simp] theorem finish_frames (s : State) (e : Option Diag) (v : Byte) : (s.finish e v).frames = s.frames := by
  simp [State.finish]
@[simp] theorem finish_diag (s : State) (e : Option Diag) (v : Byte) : (s.finish e v).diag = s.diag ++ e.toList := by
  simp [State.finish]
@[simp] theorem finish_responses (s : State) (e : Option Diag) (v : Byte) : (s.finish e v).responses = s.responses ++ [response e v] := by
  simp [State.finish]
@[simp] theorem finish_bus (s : State) (e : Option Diag) (v : Byte) : (s.finish e v).bus = s.bus := by
  simp [State.finish]
@[simp] theorem finish_hostq (s : State) (e : Option Diag) (v : Byte) : (s.finish e v).hostq = s.hostq.tail := by
  simp [State.finish]
@[simp] theorem finish_sched (s : State) (e : Option Diag) (v : Byte) : (s.finish e v).sched = s.sched := by
  simp [State.finish]
@[simp] theorem finish_initOkIn (s : State) (e : Option Diag) (v : Byte) : (s.finish e v).initOkIn = s.initOkIn := by
  simp [State.finish]
@[simp] theorem finish_xfailIn (s : State) (e : Option Diag) (v : Byte) : (s.finish e v).xfailIn = s.xfailIn := by
  simp [State.finish]
@[simp] theorem finish_draws (s : State) (e : Option Diag) (v : Byte) : (s.finish e v).draws = s.draws := by
  simp [State.finish]

/-! ### `afterInitOk` -/

@[simp] theorem afterInitOk_cfg (s : State) : (s.afterInitOk).cfg = s.cfg := by
  unfold State.afterInitOk; split <;> simp_all
@[simp] theorem afterInitOk_bank0 (s : State) : (s.afterInitOk).bank0 = s.bank0 := by
  unfold State.afterInitOk; split <;> simp_all
@[simp] theorem afterInitOk_bank1 (s : State) : (s.afterInitOk).bank1 = s.bank1 := by
  unfold State.afterInitOk; split <;> simp_all
@[simp] theorem afterInitOk_act (s : State) : (s.afterInitOk).act = s.act := by
  unfold State.afterInitOk; split <;> simp_all
@[simp] theorem afterInitOk_rph (s : State) : (s.afterInitOk).rph = s.rph := by
  unfold State.afterInitOk; split <;> simp_all
@[simp] theorem afterInitOk_pos (s : State) : (s.afterInitOk).pos = s.pos := by
  unfold State.afterInitOk; split <;> simp_all
@[simp] theorem afterInitOk_idx (s : State) : (s.afterInitOk).idx = s.idx := by
  unfold State.afterInitOk; split <;> simp_all
@[simp] theorem afterInitOk_stopReq (s : State) : (s.afterInitOk).stopReq = s.stopReq := by
  unfold State.afterInitOk; split <;> simp_all
@[simp] theorem afterInitOk_wst (s : State) : (s.afterInitOk).wst = s.wst := by
  unfold State.afterInitOk; split <;> simp_all
@[simp] theorem afterInitOk_sh (s : State) : (s.afterInitOk).sh = s.sh := by
  unfold State.afterInitOk; split <;> simp_all
@[simp] theorem afterInitOk_bitn (s : State) : (s.afterInitOk).bitn = s.bitn := by
  unfold State.afterInitOk; split <;> simp_all
@[simp] theorem afterInitOk_fph (s : State) : (s.afterInitOk).fph = s.fph := by
  unfold State.afterInitOk; split <;> simp_all
@[simp] theorem afterInitOk_fown (s : State) : (s.afterInitOk).fown = s.fown := by
  unfold State.afterInitOk; split <;> simp_all
@[simp] theorem afterInitOk_iph (s : State) : (s.afterInitOk).iph = s.iph := by
  unfold State.afterInitOk; split <;> simp_all
@[simp] theorem afterInitOk_ftmp (s : State) : (s.afterInitOk).ftmp = s.ftmp := by
  unfold State.afterInitOk; split <;> simp_all
@[simp] theorem afterInitOk_sess (s : State) : (s.afterInitOk).sess = s.sess := by
  unfold State.afterInitOk; split <;> simp_all
@[simp] theorem afterInitOk_lines (s : State) : (s.afterInitOk).lines = s.lines := by
  unfold State.afterInitOk; split <;> simp_all
@[simp] theorem afterInitOk_fsel (s : State) : (s.afterInitOk).fsel = s.fsel := by
  unfold State.afterInitOk; split <;> simp_all
@[simp] theorem afterInitOk_out (s : State) : (s.afterInitOk).out = s.out := by
  unfold State.afterInitOk; split <;> simp_all
@[simp] theorem afterInitOk_trace (s : State) : (s.afterInitOk).trace = s.trace := by
  unfold State.afterInitOk; split <;> simp_all
@[simp] theorem afterInitOk_frames (s : State) : (s.afterInitOk).frames = s.frames := by
  unfold State.afterInitOk; split <;> simp_all
@[simp] theorem afterInitOk_diag (s : State) : (s.afterInitOk).diag = s.diag := by
  unfold State.afterInitOk; split <;> simp_all
@[simp] theorem afterInitOk_responses (s : State) : (s.afterInitOk).responses = s.responses := by
  unfold State.afterInitOk; split <;> simp_all
@[simp] theorem afterInitOk_bus (s : State) : (s.afterInitOk).bus = s.bus := by
  unfold State.afterInitOk; split <;> simp_all
@[simp] theorem afterInitOk_hostq (s : State) : (s.afterInitOk).hostq = s.hostq := by
  unfold State.afterInitOk; split <;> simp_all
@[simp] theorem afterInitOk_sched (s : State) : (s.afterInitOk).sched = s.sched := by
  unfold State.afterInitOk; split <;> simp_all
@[simp] theorem afterInitOk_initOkIn (s : State) : (s.afterInitOk).initOkIn = s.initOkIn.tail := by
  unfold State.afterInitOk; split <;> simp_all
@[simp] theorem afterInitOk_xfailIn (s : State) : (s.afterInitOk).xfailIn = s.xfailIn := by
  unfold State.afterInitOk; split <;> simp_all

/-! ### `afterXfail` -/

@[simp] theorem afterXfail_cfg (s : State) : (s.afterXfail).cfg = s.cfg := by
  unfold State.afterXfail; split <;> simp_all
@[simp] theorem afterXfail_bank0 (s : State) : (s.afterXfail).bank0 = s.bank0 := by
  unfold State.afterXfail; split <;> simp_all
@[simp] theorem afterXfail_bank1 (s : State) : (s.afterXfail).bank1 = s.bank1 := by
  unfold State.afterXfail; split <;> simp_all
@[simp] theorem afterXfail_act (s : State) : (s.afterXfail).act = s.act := by
  unfold State.afterXfail; split <;> simp_all
@[simp] theorem afterXfail_rph (s : State) : (s.afterXfail).rph = s.rph := by
  unfold State.afterXfail; split <;> simp_all
@[simp] theorem afterXfail_pos (s : State) : (s.afterXfail).pos = s.pos := by
  unfold State.afterXfail; split <;> simp_all
@[simp] theorem afterXfail_idx (s : State) : (s.afterXfail).idx = s.idx := by
  unfold State.afterXfail; split <;> simp_all
@[simp] theorem afterXfail_stopReq (s : State) : (s.afterXfail).stopReq = s.stopReq := by
  unfold State.afterXfail; split <;> simp_all
@[simp] theorem afterXfail_wst (s : State) : (s.afterXfail).wst = s.wst := by
  unfold State.afterXfail; split <;> simp_all
@[simp] theorem afterXfail_sh (s : State) : (s.afterXfail).sh = s.sh := by unfold State.afterXfail; split <;> simp_all
@[simp] theorem afterXfail_bitn (s : State) : (s.afterXfail).bitn = s.bitn := by
  unfold State.afterXfail; split <;> simp_all
@[simp] theorem afterXfail_fph (s : State) : (s.afterXfail).fph = s.fph := by
  unfold State.afterXfail; split <;> simp_all
@[simp] theorem afterXfail_fown (s : State) : (s.afterXfail).fown = s.fown := by
  unfold State.afterXfail; split <;> simp_all
@[simp] theorem afterXfail_iph (s : State) : (s.afterXfail).iph = s.iph := by
  unfold State.afterXfail; split <;> simp_all
@[simp] theorem afterXfail_ftmp (s : State) : (s.afterXfail).ftmp = s.ftmp := by
  unfold State.afterXfail; split <;> simp_all
@[simp] theorem afterXfail_sess (s : State) : (s.afterXfail).sess = s.sess := by
  unfold State.afterXfail; split <;> simp_all
@[simp] theorem afterXfail_lines (s : State) : (s.afterXfail).lines = s.lines := by
  unfold State.afterXfail; split <;> simp_all
@[simp] theorem afterXfail_fsel (s : State) : (s.afterXfail).fsel = s.fsel := by
  unfold State.afterXfail; split <;> simp_all
@[simp] theorem afterXfail_out (s : State) : (s.afterXfail).out = s.out := by
  unfold State.afterXfail; split <;> simp_all
@[simp] theorem afterXfail_trace (s : State) : (s.afterXfail).trace = s.trace := by
  unfold State.afterXfail; split <;> simp_all
@[simp] theorem afterXfail_frames (s : State) : (s.afterXfail).frames = s.frames := by
  unfold State.afterXfail; split <;> simp_all
@[simp] theorem afterXfail_diag (s : State) : (s.afterXfail).diag = s.diag := by
  unfold State.afterXfail; split <;> simp_all
@[simp] theorem afterXfail_responses (s : State) : (s.afterXfail).responses = s.responses := by
  unfold State.afterXfail; split <;> simp_all
@[simp] theorem afterXfail_bus (s : State) : (s.afterXfail).bus = s.bus := by
  unfold State.afterXfail; split <;> simp_all
@[simp] theorem afterXfail_hostq (s : State) : (s.afterXfail).hostq = s.hostq := by
  unfold State.afterXfail; split <;> simp_all
@[simp] theorem afterXfail_sched (s : State) : (s.afterXfail).sched = s.sched := by
  unfold State.afterXfail; split <;> simp_all
@[simp] theorem afterXfail_initOkIn (s : State) : (s.afterXfail).initOkIn = s.initOkIn := by
  unfold State.afterXfail; split <;> simp_all
@[simp] theorem afterXfail_xfailIn (s : State) : (s.afterXfail).xfailIn = s.xfailIn.tail := by
  unfold State.afterXfail; split <;> simp_all

/-! ### `afterTurn` -/

@[simp] theorem afterTurn_cfg (s : State) : (s.afterTurn).cfg = s.cfg := by unfold State.afterTurn; split <;> simp_all
@[simp] theorem afterTurn_bank0 (s : State) : (s.afterTurn).bank0 = s.bank0 := by
  unfold State.afterTurn; split <;> simp_all
@[simp] theorem afterTurn_bank1 (s : State) : (s.afterTurn).bank1 = s.bank1 := by
  unfold State.afterTurn; split <;> simp_all
@[simp] theorem afterTurn_act (s : State) : (s.afterTurn).act = s.act := by unfold State.afterTurn; split <;> simp_all
@[simp] theorem afterTurn_rph (s : State) : (s.afterTurn).rph = s.rph := by unfold State.afterTurn; split <;> simp_all
@[simp] theorem afterTurn_pos (s : State) : (s.afterTurn).pos = s.pos := by unfold State.afterTurn; split <;> simp_all
@[simp] theorem afterTurn_idx (s : State) : (s.afterTurn).idx = s.idx := by unfold State.afterTurn; split <;> simp_all
@[simp] theorem afterTurn_stopReq (s : State) : (s.afterTurn).stopReq = s.stopReq := by
  unfold State.afterTurn; split <;> simp_all
@[simp] theorem afterTurn_wst (s : State) : (s.afterTurn).wst = s.wst := by unfold State.afterTurn; split <;> simp_all
@[simp] theorem afterTurn_sh (s : State) : (s.afterTurn).sh = s.sh := by unfold State.afterTurn; split <;> simp_all
@[simp] theorem afterTurn_bitn (s : State) : (s.afterTurn).bitn = s.bitn := by
  unfold State.afterTurn; split <;> simp_all
@[simp] theorem afterTurn_fph (s : State) : (s.afterTurn).fph = s.fph := by unfold State.afterTurn; split <;> simp_all
@[simp] theorem afterTurn_fown (s : State) : (s.afterTurn).fown = s.fown := by
  unfold State.afterTurn; split <;> simp_all
@[simp] theorem afterTurn_iph (s : State) : (s.afterTurn).iph = s.iph := by unfold State.afterTurn; split <;> simp_all
@[simp] theorem afterTurn_ftmp (s : State) : (s.afterTurn).ftmp = s.ftmp := by
  unfold State.afterTurn; split <;> simp_all
@[simp] theorem afterTurn_sess (s : State) : (s.afterTurn).sess = s.sess := by
  unfold State.afterTurn; split <;> simp_all
@[simp] theorem afterTurn_lines (s : State) : (s.afterTurn).lines = s.lines := by
  unfold State.afterTurn; split <;> simp_all
@[simp] theorem afterTurn_fsel (s : State) : (s.afterTurn).fsel = s.fsel := by
  unfold State.afterTurn; split <;> simp_all
@[simp] theorem afterTurn_out (s : State) : (s.afterTurn).out = s.out := by unfold State.afterTurn; split <;> simp_all
@[simp] theorem afterTurn_trace (s : State) : (s.afterTurn).trace = s.trace := by
  unfold State.afterTurn; split <;> simp_all
@[simp] theorem afterTurn_frames (s : State) : (s.afterTurn).frames = s.frames := by
  unfold State.afterTurn; split <;> simp_all
@[simp] theorem afterTurn_diag (s : State) : (s.afterTurn).diag = s.diag := by
  unfold State.afterTurn; split <;> simp_all
@[simp] theorem afterTurn_responses (s : State) : (s.afterTurn).responses = s.responses := by
  unfold State.afterTurn; split <;> simp_all
@[simp] theorem afterTurn_bus (s : State) : (s.afterTurn).bus = s.bus := by unfold State.afterTurn; split <;> simp_all
@[simp] theorem afterTurn_hostq (s : State) : (s.afterTurn).hostq = s.hostq := by
  unfold State.afterTurn; split <;> simp_all
@[simp] theorem afterTurn_sched (s : State) : (s.afterTurn).sched = s.sched.tail := by
  unfold State.afterTurn; split <;> simp_all
@[simp] theorem afterTurn_initOkIn (s : State) : (s.afterTurn).initOkIn = s.initOkIn := by
  unfold State.afterTurn; split <;> simp_all
@[simp] theorem afterTurn_xfailIn (s : State) : (s.afterTurn).xfailIn = s.xfailIn := by
  unfold State.afterTurn; split <;> simp_all

/-! ### `fselWrite` -/

@[simp] theorem fselWrite_cfg (s : State) (off : Nat) (w : Word32) : (s.fselWrite off w).cfg = s.cfg := rfl
@[simp] theorem fselWrite_bank0 (s : State) (off : Nat) (w : Word32) : (s.fselWrite off w).bank0 = s.bank0 := rfl
@[simp] theorem fselWrite_bank1 (s : State) (off : Nat) (w : Word32) : (s.fselWrite off w).bank1 = s.bank1 := rfl
@[simp] theorem fselWrite_act (s : State) (off : Nat) (w : Word32) : (s.fselWrite off w).act = s.act := rfl
@[simp] theorem fselWrite_rph (s : State) (off : Nat) (w : Word32) : (s.fselWrite off w).rph = s.rph := rfl
@[simp] theorem fselWrite_pos (s : State) (off : Nat) (w : Word32) : (s.fselWrite off w).pos = s.pos := rfl
@[simp] theorem fselWrite_idx (s : State) (off : Nat) (w : Word32) : (s.fselWrite off w).idx = s.idx := rfl
@[simp] theorem fselWrite_stopReq (s : State) (off : Nat) (w : Word32) : (s.fselWrite off w).stopReq = s.stopReq := rfl
@[simp] theorem fselWrite_wst (s : State) (off : Nat) (w : Word32) : (s.fselWrite off w).wst = s.wst := rfl
@[simp] theorem fselWrite_sh (s : State) (off : Nat) (w : Word32) : (s.fselWrite off w).sh = s.sh := rfl
@[simp] theorem fselWrite_bitn (s : State) (off : Nat) (w : Word32) : (s.fselWrite off w).bitn = s.bitn := rfl
@[simp] theorem fselWrite_fph (s : State) (off : Nat) (w : Word32) : (s.fselWrite off w).fph = s.fph := rfl
@[simp] theorem fselWrite_fown (s : State) (off : Nat) (w : Word32) : (s.fselWrite off w).fown = s.fown := rfl
@[simp] theorem fselWrite_iph (s : State) (off : Nat) (w : Word32) : (s.fselWrite off w).iph = s.iph := rfl
@[simp] theorem fselWrite_ftmp (s : State) (off : Nat) (w : Word32) : (s.fselWrite off w).ftmp = s.ftmp := rfl
@[simp] theorem fselWrite_sess (s : State) (off : Nat) (w : Word32) : (s.fselWrite off w).sess = s.sess := rfl
@[simp] theorem fselWrite_lines (s : State) (off : Nat) (w : Word32) : (s.fselWrite off w).lines = s.lines := rfl
@[simp] theorem fselWrite_fsel (s : State) (off : Nat) (w : Word32) : (s.fselWrite off w).fsel = Store.write (fselUnlisted s.cfg.toParams) s.fsel off w :=
  rfl
@[simp] theorem fselWrite_out (s : State) (off : Nat) (w : Word32) : (s.fselWrite off w).out = s.out := rfl
@[simp] theorem fselWrite_trace (s : State) (off : Nat) (w : Word32) : (s.fselWrite off w).trace = s.trace := rfl
@[simp] theorem fselWrite_frames (s : State) (off : Nat) (w : Word32) : (s.fselWrite off w).frames = s.frames := rfl
@[simp] theorem fselWrite_diag (s : State) (off : Nat) (w : Word32) : (s.fselWrite off w).diag = s.diag := rfl
@[simp] theorem fselWrite_responses (s : State) (off : Nat) (w : Word32) : (s.fselWrite off w).responses = s.responses :=
  rfl
@[simp] theorem fselWrite_bus (s : State) (off : Nat) (w : Word32) : (s.fselWrite off w).bus = s.bus := rfl
@[simp] theorem fselWrite_hostq (s : State) (off : Nat) (w : Word32) : (s.fselWrite off w).hostq = s.hostq := rfl
@[simp] theorem fselWrite_sched (s : State) (off : Nat) (w : Word32) : (s.fselWrite off w).sched = s.sched := rfl
@[simp] theorem fselWrite_initOkIn (s : State) (off : Nat) (w : Word32) : (s.fselWrite off w).initOkIn = s.initOkIn :=
  rfl
@[simp] theorem fselWrite_xfailIn (s : State) (off : Nat) (w : Word32) : (s.fselWrite off w).xfailIn = s.xfailIn := rfl
@[simp] theorem fselWrite_draws (s : State) (off : Nat) (w : Word32) : (s.fselWrite off w).draws = s.draws := rfl

/-! ### `strobeLines` -/

@[simp] theorem strobeLines_cfg (s : State) (h : PinRow → Bool) (v : Level) : (s.strobeLines h v).cfg = s.cfg := rfl
@[simp] theorem strobeLines_bank0 (s : State) (h : PinRow → Bool) (v : Level) : (s.strobeLines h v).bank0 = s.bank0 :=
  rfl
@[simp] theorem strobeLines_bank1 (s : State) (h : PinRow → Bool) (v : Level) : (s.strobeLines h v).bank1 = s.bank1 :=
  rfl
@[simp] theorem strobeLines_act (s : State) (h : PinRow → Bool) (v : Level) : (s.strobeLines h v).act = s.act := rfl
@[simp] theorem strobeLines_rph (s : State) (h : PinRow → Bool) (v : Level) : (s.strobeLines h v).rph = s.rph := rfl
@[simp] theorem strobeLines_pos (s : State) (h : PinRow → Bool) (v : Level) : (s.strobeLines h v).pos = s.pos := rfl
@[simp] theorem strobeLines_idx (s : State) (h : PinRow → Bool) (v : Level) : (s.strobeLines h v).idx = s.idx := rfl
@[simp] theorem strobeLines_stopReq (s : State) (h : PinRow → Bool) (v : Level) : (s.strobeLines h v).stopReq = s.stopReq :=
  rfl
@[simp] theorem strobeLines_wst (s : State) (h : PinRow → Bool) (v : Level) : (s.strobeLines h v).wst = s.wst := rfl
@[simp] theorem strobeLines_sh (s : State) (h : PinRow → Bool) (v : Level) : (s.strobeLines h v).sh = s.sh := rfl
@[simp] theorem strobeLines_bitn (s : State) (h : PinRow → Bool) (v : Level) : (s.strobeLines h v).bitn = s.bitn := rfl
@[simp] theorem strobeLines_fph (s : State) (h : PinRow → Bool) (v : Level) : (s.strobeLines h v).fph = s.fph := rfl
@[simp] theorem strobeLines_fown (s : State) (h : PinRow → Bool) (v : Level) : (s.strobeLines h v).fown = s.fown := rfl
@[simp] theorem strobeLines_iph (s : State) (h : PinRow → Bool) (v : Level) : (s.strobeLines h v).iph = s.iph := rfl
@[simp] theorem strobeLines_ftmp (s : State) (h : PinRow → Bool) (v : Level) : (s.strobeLines h v).ftmp = s.ftmp := rfl
@[simp] theorem strobeLines_sess (s : State) (h : PinRow → Bool) (v : Level) : (s.strobeLines h v).sess = s.sess := rfl
@[simp] theorem strobeLines_fsel (s : State) (h : PinRow → Bool) (v : Level) : (s.strobeLines h v).fsel = s.fsel := rfl
@[simp] theorem strobeLines_out (s : State) (h : PinRow → Bool) (v : Level) : (s.strobeLines h v).out = s.out := rfl
@[simp] theorem strobeLines_trace (s : State) (h : PinRow → Bool) (v : Level) : (s.strobeLines h v).trace = s.trace :=
  rfl
@[simp] theorem strobeLines_frames (s : State) (h : PinRow → Bool) (v : Level) : (s.strobeLines h v).frames = s.frames :=
  rfl
@[simp] theorem strobeLines_diag (s : State) (h : PinRow → Bool) (v : Level) : (s.strobeLines h v).diag = s.diag := rfl
@[simp] theorem strobeLines_responses (s : State) (h : PinRow → Bool) (v : Level) : (s.strobeLines h v).responses = s.responses :=
  rfl
@[simp] theorem strobeLines_bus (s : State) (h : PinRow → Bool) (v : Level) : (s.strobeLines h v).bus = s.bus := rfl
@[simp] theorem strobeLines_hostq (s : State) (h : PinRow → Bool) (v : Level) : (s.strobeLines h v).hostq = s.hostq :=
  rfl
@[simp] theorem strobeLines_sched (s : State) (h : PinRow → Bool) (v : Level) : (s.strobeLines h v).sched = s.sched :=
  rfl
@[simp] theorem strobeLines_initOkIn (s : State) (h : PinRow → Bool) (v : Level) : (s.strobeLines h v).initOkIn = s.initOkIn :=
  rfl
@[simp] theorem strobeLines_xfailIn (s : State) (h : PinRow → Bool) (v : Level) : (s.strobeLines h v).xfailIn = s.xfailIn :=
  rfl
@[simp] theorem strobeLines_draws (s : State) (h : PinRow → Bool) (v : Level) : (s.strobeLines h v).draws = s.draws :=
  rfl

/-! ### `strobeOthers` -/

@[simp] theorem strobeOthers_cfg (s : State) (h : PinRow → Bool) (v : Level) : (s.strobeOthers h v).cfg = s.cfg := rfl
@[simp] theorem strobeOthers_bank0 (s : State) (h : PinRow → Bool) (v : Level) : (s.strobeOthers h v).bank0 = s.bank0 :=
  rfl
@[simp] theorem strobeOthers_bank1 (s : State) (h : PinRow → Bool) (v : Level) : (s.strobeOthers h v).bank1 = s.bank1 :=
  rfl
@[simp] theorem strobeOthers_act (s : State) (h : PinRow → Bool) (v : Level) : (s.strobeOthers h v).act = s.act := rfl
@[simp] theorem strobeOthers_rph (s : State) (h : PinRow → Bool) (v : Level) : (s.strobeOthers h v).rph = s.rph := rfl
@[simp] theorem strobeOthers_pos (s : State) (h : PinRow → Bool) (v : Level) : (s.strobeOthers h v).pos = s.pos := rfl
@[simp] theorem strobeOthers_idx (s : State) (h : PinRow → Bool) (v : Level) : (s.strobeOthers h v).idx = s.idx := rfl
@[simp] theorem strobeOthers_stopReq (s : State) (h : PinRow → Bool) (v : Level) : (s.strobeOthers h v).stopReq = s.stopReq :=
  rfl
@[simp] theorem strobeOthers_wst (s : State) (h : PinRow → Bool) (v : Level) : (s.strobeOthers h v).wst = s.wst := rfl
@[simp] theorem strobeOthers_sh (s : State) (h : PinRow → Bool) (v : Level) : (s.strobeOthers h v).sh = s.sh := rfl
@[simp] theorem strobeOthers_bitn (s : State) (h : PinRow → Bool) (v : Level) : (s.strobeOthers h v).bitn = s.bitn :=
  rfl
@[simp] theorem strobeOthers_fph (s : State) (h : PinRow → Bool) (v : Level) : (s.strobeOthers h v).fph = s.fph := rfl
@[simp] theorem strobeOthers_fown (s : State) (h : PinRow → Bool) (v : Level) : (s.strobeOthers h v).fown = s.fown :=
  rfl
@[simp] theorem strobeOthers_iph (s : State) (h : PinRow → Bool) (v : Level) : (s.strobeOthers h v).iph = s.iph := rfl
@[simp] theorem strobeOthers_ftmp (s : State) (h : PinRow → Bool) (v : Level) : (s.strobeOthers h v).ftmp = s.ftmp :=
  rfl
@[simp] theorem strobeOthers_sess (s : State) (h : PinRow → Bool) (v : Level) : (s.strobeOthers h v).sess = s.sess :=
  rfl
@[simp] theorem strobeOthers_lines (s : State) (h : PinRow → Bool) (v : Level) : (s.strobeOthers h v).lines = s.lines :=
  rfl
@[simp] theorem strobeOthers_fsel (s : State) (h : PinRow → Bool) (v : Level) : (s.strobeOthers h v).fsel = s.fsel :=
  rfl
@[simp] theorem strobeOthers_out (s : State) (h : PinRow → Bool) (v : Level) : (s.strobeOthers h v).out = strobeLatches h v s.cfg.otherPins s.out :=
  rfl
@[simp] theorem strobeOthers_trace (s : State) (h : PinRow → Bool) (v : Level) : (s.strobeOthers h v).trace = s.trace :=
  rfl
@[simp] theorem strobeOthers_frames (s : State) (h : PinRow → Bool) (v : Level) : (s.strobeOthers h v).frames = s.frames :=
  rfl
@[simp] theorem strobeOthers_diag (s : State) (h : PinRow → Bool) (v : Level) : (s.strobeOthers h v).diag = s.diag :=
  rfl
@[simp] theorem strobeOthers_responses (s : State) (h : PinRow → Bool) (v : Level) : (s.strobeOthers h v).responses = s.responses :=
  rfl
@[simp] theorem strobeOthers_bus (s : State) (h : PinRow → Bool) (v : Level) : (s.strobeOthers h v).bus = s.bus := rfl
@[simp] theorem strobeOthers_hostq (s : State) (h : PinRow → Bool) (v : Level) : (s.strobeOthers h v).hostq = s.hostq :=
  rfl
@[simp] theorem strobeOthers_sched (s : State) (h : PinRow → Bool) (v : Level) : (s.strobeOthers h v).sched = s.sched :=
  rfl
@[simp] theorem strobeOthers_initOkIn (s : State) (h : PinRow → Bool) (v : Level) : (s.strobeOthers h v).initOkIn = s.initOkIn :=
  rfl
@[simp] theorem strobeOthers_xfailIn (s : State) (h : PinRow → Bool) (v : Level) : (s.strobeOthers h v).xfailIn = s.xfailIn :=
  rfl
@[simp] theorem strobeOthers_draws (s : State) (h : PinRow → Bool) (v : Level) : (s.strobeOthers h v).draws = s.draws :=
  rfl

/-! ### `gpioEffect` -/

@[simp] theorem gpioEffect_cfg (s : State) (off : Nat) (w : Word32) : (s.gpioEffect off w).cfg = s.cfg := by
  unfold State.gpioEffect; split_ifs <;> rfl
@[simp] theorem gpioEffect_bank0 (s : State) (off : Nat) (w : Word32) : (s.gpioEffect off w).bank0 = s.bank0 := by
  unfold State.gpioEffect; split_ifs <;> rfl
@[simp] theorem gpioEffect_bank1 (s : State) (off : Nat) (w : Word32) : (s.gpioEffect off w).bank1 = s.bank1 := by
  unfold State.gpioEffect; split_ifs <;> rfl
@[simp] theorem gpioEffect_act (s : State) (off : Nat) (w : Word32) : (s.gpioEffect off w).act = s.act := by
  unfold State.gpioEffect; split_ifs <;> rfl
@[simp] theorem gpioEffect_rph (s : State) (off : Nat) (w : Word32) : (s.gpioEffect off w).rph = s.rph := by
  unfold State.gpioEffect; split_ifs <;> rfl
@[simp] theorem gpioEffect_pos (s : State) (off : Nat) (w : Word32) : (s.gpioEffect off w).pos = s.pos := by
  unfold State.gpioEffect; split_ifs <;> rfl
@[simp] theorem gpioEffect_idx (s : State) (off : Nat) (w : Word32) : (s.gpioEffect off w).idx = s.idx := by
  unfold State.gpioEffect; split_ifs <;> rfl
@[simp] theorem gpioEffect_stopReq (s : State) (off : Nat) (w : Word32) : (s.gpioEffect off w).stopReq = s.stopReq := by
  unfold State.gpioEffect; split_ifs <;> rfl
@[simp] theorem gpioEffect_wst (s : State) (off : Nat) (w : Word32) : (s.gpioEffect off w).wst = s.wst := by
  unfold State.gpioEffect; split_ifs <;> rfl
@[simp] theorem gpioEffect_sh (s : State) (off : Nat) (w : Word32) : (s.gpioEffect off w).sh = s.sh := by
  unfold State.gpioEffect; split_ifs <;> rfl
@[simp] theorem gpioEffect_bitn (s : State) (off : Nat) (w : Word32) : (s.gpioEffect off w).bitn = s.bitn := by
  unfold State.gpioEffect; split_ifs <;> rfl
@[simp] theorem gpioEffect_fph (s : State) (off : Nat) (w : Word32) : (s.gpioEffect off w).fph = s.fph := by
  unfold State.gpioEffect; split_ifs <;> rfl
@[simp] theorem gpioEffect_fown (s : State) (off : Nat) (w : Word32) : (s.gpioEffect off w).fown = s.fown := by
  unfold State.gpioEffect; split_ifs <;> rfl
@[simp] theorem gpioEffect_iph (s : State) (off : Nat) (w : Word32) : (s.gpioEffect off w).iph = s.iph := by
  unfold State.gpioEffect; split_ifs <;> rfl
@[simp] theorem gpioEffect_ftmp (s : State) (off : Nat) (w : Word32) : (s.gpioEffect off w).ftmp = s.ftmp := by
  unfold State.gpioEffect; split_ifs <;> rfl
@[simp] theorem gpioEffect_sess (s : State) (off : Nat) (w : Word32) : (s.gpioEffect off w).sess = s.sess := by
  unfold State.gpioEffect; split_ifs <;> rfl
@[simp] theorem gpioEffect_trace (s : State) (off : Nat) (w : Word32) : (s.gpioEffect off w).trace = s.trace := by
  unfold State.gpioEffect; split_ifs <;> rfl
@[simp] theorem gpioEffect_frames (s : State) (off : Nat) (w : Word32) : (s.gpioEffect off w).frames = s.frames := by
  unfold State.gpioEffect; split_ifs <;> rfl
@[simp] theorem gpioEffect_diag (s : State) (off : Nat) (w : Word32) : (s.gpioEffect off w).diag = s.diag := by
  unfold State.gpioEffect; split_ifs <;> rfl
@[simp] theorem gpioEffect_responses (s : State) (off : Nat) (w : Word32) : (s.gpioEffect off w).responses = s.responses := by
  unfold State.gpioEffect; split_ifs <;> rfl
@[simp] theorem gpioEffect_bus (s : State) (off : Nat) (w : Word32) : (s.gpioEffect off w).bus = s.bus := by
  unfold State.gpioEffect; split_ifs <;> rfl
@[simp] theorem gpioEffect_hostq (s : State) (off : Nat) (w : Word32) : (s.gpioEffect off w).hostq = s.hostq := by
  unfold State.gpioEffect; split_ifs <;> rfl
@[simp] theorem gpioEffect_sched (s : State) (off : Nat) (w : Word32) : (s.gpioEffect off w).sched = s.sched := by
  unfold State.gpioEffect; split_ifs <;> rfl
@[simp] theorem gpioEffect_initOkIn (s : State) (off : Nat) (w : Word32) : (s.gpioEffect off w).initOkIn = s.initOkIn := by
  unfold State.gpioEffect; split_ifs <;> rfl
@[simp] theorem gpioEffect_xfailIn (s : State) (off : Nat) (w : Word32) : (s.gpioEffect off w).xfailIn = s.xfailIn := by
  unfold State.gpioEffect; split_ifs <;> rfl
@[simp] theorem gpioEffect_draws (s : State) (off : Nat) (w : Word32) : (s.gpioEffect off w).draws = s.draws := by
  unfold State.gpioEffect; split_ifs <;> rfl

/-! ### `busRead` -/

@[simp] theorem busRead_cfg (s : State) (off : Nat) : (s.busRead off).cfg = s.cfg := rfl
@[simp] theorem busRead_bank0 (s : State) (off : Nat) : (s.busRead off).bank0 = s.bank0 := rfl
@[simp] theorem busRead_bank1 (s : State) (off : Nat) : (s.busRead off).bank1 = s.bank1 := rfl
@[simp] theorem busRead_act (s : State) (off : Nat) : (s.busRead off).act = s.act := rfl
@[simp] theorem busRead_rph (s : State) (off : Nat) : (s.busRead off).rph = s.rph := rfl
@[simp] theorem busRead_pos (s : State) (off : Nat) : (s.busRead off).pos = s.pos := rfl
@[simp] theorem busRead_idx (s : State) (off : Nat) : (s.busRead off).idx = s.idx := rfl
@[simp] theorem busRead_stopReq (s : State) (off : Nat) : (s.busRead off).stopReq = s.stopReq := rfl
@[simp] theorem busRead_wst (s : State) (off : Nat) : (s.busRead off).wst = s.wst := rfl
@[simp] theorem busRead_sh (s : State) (off : Nat) : (s.busRead off).sh = s.sh := rfl
@[simp] theorem busRead_bitn (s : State) (off : Nat) : (s.busRead off).bitn = s.bitn := rfl
@[simp] theorem busRead_fph (s : State) (off : Nat) : (s.busRead off).fph = s.fph := rfl
@[simp] theorem busRead_fown (s : State) (off : Nat) : (s.busRead off).fown = s.fown := rfl
@[simp] theorem busRead_iph (s : State) (off : Nat) : (s.busRead off).iph = s.iph := rfl
@[simp] theorem busRead_ftmp (s : State) (off : Nat) : (s.busRead off).ftmp = s.ftmp := rfl
@[simp] theorem busRead_sess (s : State) (off : Nat) : (s.busRead off).sess = s.sess := rfl
@[simp] theorem busRead_lines (s : State) (off : Nat) : (s.busRead off).lines = s.lines := rfl
@[simp] theorem busRead_fsel (s : State) (off : Nat) : (s.busRead off).fsel = s.fsel := rfl
@[simp] theorem busRead_out (s : State) (off : Nat) : (s.busRead off).out = s.out := rfl
@[simp] theorem busRead_trace (s : State) (off : Nat) : (s.busRead off).trace = s.trace := rfl
@[simp] theorem busRead_frames (s : State) (off : Nat) : (s.busRead off).frames = s.frames := rfl
@[simp] theorem busRead_diag (s : State) (off : Nat) : (s.busRead off).diag = s.diag := rfl
@[simp] theorem busRead_responses (s : State) (off : Nat) : (s.busRead off).responses = s.responses := rfl
@[simp] theorem busRead_bus (s : State) (off : Nat) : (s.busRead off).bus = s.bus ++ [.read off (s.fselRead off)] := rfl
@[simp] theorem busRead_hostq (s : State) (off : Nat) : (s.busRead off).hostq = s.hostq := rfl
@[simp] theorem busRead_sched (s : State) (off : Nat) : (s.busRead off).sched = s.sched := rfl
@[simp] theorem busRead_initOkIn (s : State) (off : Nat) : (s.busRead off).initOkIn = s.initOkIn := rfl
@[simp] theorem busRead_xfailIn (s : State) (off : Nat) : (s.busRead off).xfailIn = s.xfailIn := rfl
@[simp] theorem busRead_draws (s : State) (off : Nat) : (s.busRead off).draws = s.draws := rfl

/-! ### `busWrite` -/

@[simp] theorem busWrite_cfg (s : State) (off : Nat) (w : Word32) : (s.busWrite off w).cfg = s.cfg := by
  simp [State.busWrite]
@[simp] theorem busWrite_bank0 (s : State) (off : Nat) (w : Word32) : (s.busWrite off w).bank0 = s.bank0 := by
  simp [State.busWrite]
@[simp] theorem busWrite_bank1 (s : State) (off : Nat) (w : Word32) : (s.busWrite off w).bank1 = s.bank1 := by
  simp [State.busWrite]
@[simp] theorem busWrite_act (s : State) (off : Nat) (w : Word32) : (s.busWrite off w).act = s.act := by
  simp [State.busWrite]
@[simp] theorem busWrite_rph (s : State) (off : Nat) (w : Word32) : (s.busWrite off w).rph = s.rph := by
  simp [State.busWrite]
@[simp] theorem busWrite_pos (s : State) (off : Nat) (w : Word32) : (s.busWrite off w).pos = s.pos := by
  simp [State.busWrite]
@[simp] theorem busWrite_idx (s : State) (off : Nat) (w : Word32) : (s.busWrite off w).idx = s.idx := by
  simp [State.busWrite]
@[simp] theorem busWrite_stopReq (s : State) (off : Nat) (w : Word32) : (s.busWrite off w).stopReq = s.stopReq := by
  simp [State.busWrite]
@[simp] theorem busWrite_wst (s : State) (off : Nat) (w : Word32) : (s.busWrite off w).wst = s.wst := by
  simp [State.busWrite]
@[simp] theorem busWrite_sh (s : State) (off : Nat) (w : Word32) : (s.busWrite off w).sh = s.sh := by
  simp [State.busWrite]
@[simp] theorem busWrite_bitn (s : State) (off : Nat) (w : Word32) : (s.busWrite off w).bitn = s.bitn := by
  simp [State.busWrite]
@[simp] theorem busWrite_fph (s : State) (off : Nat) (w : Word32) : (s.busWrite off w).fph = s.fph := by
  simp [State.busWrite]
@[simp] theorem busWrite_fown (s : State) (off : Nat) (w : Word32) : (s.busWrite off w).fown = s.fown := by
  simp [State.busWrite]
@[simp] theorem busWrite_iph (s : State) (off : Nat) (w : Word32) : (s.busWrite off w).iph = s.iph := by
  simp [State.busWrite]
@[simp] theorem busWrite_ftmp (s : State) (off : Nat) (w : Word32) : (s.busWrite off w).ftmp = s.ftmp := by
  simp [State.busWrite]
@[simp] theorem busWrite_sess (s : State) (off : Nat) (w : Word32) : (s.busWrite off w).sess = s.sess := by
  simp [State.busWrite]
@[simp] theorem busWrite_trace (s : State) (off : Nat) (w : Word32) : (s.busWrite off w).trace = s.trace := by
  simp [State.busWrite]
@[simp] theorem busWrite_frames (s : State) (off : Nat) (w : Word32) : (s.busWrite off w).frames = s.frames := by
  simp [State.busWrite]
@[simp] theorem busWrite_diag (s : State) (off : Nat) (w : Word32) : (s.busWrite off w).diag = s.diag := by
  simp [State.busWrite]
@[simp] theorem busWrite_responses (s : State) (off : Nat) (w : Word32) : (s.busWrite off w).responses = s.responses := by
  simp [State.busWrite]
@[simp] theorem busWrite_bus (s : State) (off : Nat) (w : Word32) : (s.busWrite off w).bus = s.bus ++ [.write off w] := by
  simp [State.busWrite]
@[simp] theorem busWrite_hostq (s : State) (off : Nat) (w : Word32) : (s.busWrite off w).hostq = s.hostq := by
  simp [State.busWrite]
@[simp] theorem busWrite_sched (s : State) (off : Nat) (w : Word32) : (s.busWrite off w).sched = s.sched := by
  simp [State.busWrite]
@[simp] theorem busWrite_initOkIn (s : State) (off : Nat) (w : Word32) : (s.busWrite off w).initOkIn = s.initOkIn := by
  simp [State.busWrite]
@[simp] theorem busWrite_xfailIn (s : State) (off : Nat) (w : Word32) : (s.busWrite off w).xfailIn = s.xfailIn := by
  simp [State.busWrite]
@[simp] theorem busWrite_draws (s : State) (off : Nat) (w : Word32) : (s.busWrite off w).draws = s.draws := by
  simp [State.busWrite]

/-! ### `otherGpioWrite` -/

@[simp] theorem otherGpioWrite_cfg (s : State) (off : Nat) (w : Word32) : (s.otherGpioWrite off w).cfg = s.cfg := by
  unfold State.otherGpioWrite; split_ifs <;> rfl
@[simp] theorem otherGpioWrite_bank0 (s : State) (off : Nat) (w : Word32) : (s.otherGpioWrite off w).bank0 = s.bank0 := by
  unfold State.otherGpioWrite; split_ifs <;> rfl
@[simp] theorem otherGpioWrite_bank1 (s : State) (off : Nat) (w : Word32) : (s.otherGpioWrite off w).bank1 = s.bank1 := by
  unfold State.otherGpioWrite; split_ifs <;> rfl
@[simp] theorem otherGpioWrite_act (s : State) (off : Nat) (w : Word32) : (s.otherGpioWrite off w).act = s.act := by
  unfold State.otherGpioWrite; split_ifs <;> rfl
@[simp] theorem otherGpioWrite_rph (s : State) (off : Nat) (w : Word32) : (s.otherGpioWrite off w).rph = s.rph := by
  unfold State.otherGpioWrite; split_ifs <;> rfl
@[simp] theorem otherGpioWrite_pos (s : State) (off : Nat) (w : Word32) : (s.otherGpioWrite off w).pos = s.pos := by
  unfold State.otherGpioWrite; split_ifs <;> rfl
@[simp] theorem otherGpioWrite_idx (s : State) (off : Nat) (w : Word32) : (s.otherGpioWrite off w).idx = s.idx := by
  unfold State.otherGpioWrite; split_ifs <;> rfl
@[simp] theorem otherGpioWrite_stopReq (s : State) (off : Nat) (w : Word32) : (s.otherGpioWrite off w).stopReq = s.stopReq := by
  unfold State.otherGpioWrite; split_ifs <;> rfl
@[simp] theorem otherGpioWrite_wst (s : State) (off : Nat) (w : Word32) : (s.otherGpioWrite off w).wst = s.wst := by
  unfold State.otherGpioWrite; split_ifs <;> rfl
@[simp] theorem otherGpioWrite_sh (s : State) (off : Nat) (w : Word32) : (s.otherGpioWrite off w).sh = s.sh := by
  unfold State.otherGpioWrite; split_ifs <;> rfl
@[simp] theorem otherGpioWrite_bitn (s : State) (off : Nat) (w : Word32) : (s.otherGpioWrite off w).bitn = s.bitn := by
  unfold State.otherGpioWrite; split_ifs <;> rfl
@[simp] theorem otherGpioWrite_fph (s : State) (off : Nat) (w : Word32) : (s.otherGpioWrite off w).fph = s.fph := by
  unfold State.otherGpioWrite; split_ifs <;> rfl
@[simp] theorem otherGpioWrite_fown (s : State) (off : Nat) (w : Word32) : (s.otherGpioWrite off w).fown = s.fown := by
  unfold State.otherGpioWrite; split_ifs <;> rfl
@[simp] theorem otherGpioWrite_iph (s : State) (off : Nat) (w : Word32) : (s.otherGpioWrite off w).iph = s.iph := by
  unfold State.otherGpioWrite; split_ifs <;> rfl
@[simp] theorem otherGpioWrite_ftmp (s : State) (off : Nat) (w : Word32) : (s.otherGpioWrite off w).ftmp = s.ftmp := by
  unfold State.otherGpioWrite; split_ifs <;> rfl
@[simp] theorem otherGpioWrite_sess (s : State) (off : Nat) (w : Word32) : (s.otherGpioWrite off w).sess = s.sess := by
  unfold State.otherGpioWrite; split_ifs <;> rfl
@[simp] theorem otherGpioWrite_lines (s : State) (off : Nat) (w : Word32) : (s.otherGpioWrite off w).lines = s.lines := by
  unfold State.otherGpioWrite; split_ifs <;> rfl
@[simp] theorem otherGpioWrite_trace (s : State) (off : Nat) (w : Word32) : (s.otherGpioWrite off w).trace = s.trace := by
  unfold State.otherGpioWrite; split_ifs <;> rfl
@[simp] theorem otherGpioWrite_frames (s : State) (off : Nat) (w : Word32) : (s.otherGpioWrite off w).frames = s.frames := by
  unfold State.otherGpioWrite; split_ifs <;> rfl
@[simp] theorem otherGpioWrite_diag (s : State) (off : Nat) (w : Word32) : (s.otherGpioWrite off w).diag = s.diag := by
  unfold State.otherGpioWrite; split_ifs <;> rfl
@[simp] theorem otherGpioWrite_responses (s : State) (off : Nat) (w : Word32) : (s.otherGpioWrite off w).responses = s.responses := by
  unfold State.otherGpioWrite; split_ifs <;> rfl
@[simp] theorem otherGpioWrite_bus (s : State) (off : Nat) (w : Word32) : (s.otherGpioWrite off w).bus = s.bus := by
  unfold State.otherGpioWrite; split_ifs <;> rfl
@[simp] theorem otherGpioWrite_hostq (s : State) (off : Nat) (w : Word32) : (s.otherGpioWrite off w).hostq = s.hostq := by
  unfold State.otherGpioWrite; split_ifs <;> rfl
@[simp] theorem otherGpioWrite_sched (s : State) (off : Nat) (w : Word32) : (s.otherGpioWrite off w).sched = s.sched := by
  unfold State.otherGpioWrite; split_ifs <;> rfl
@[simp] theorem otherGpioWrite_initOkIn (s : State) (off : Nat) (w : Word32) : (s.otherGpioWrite off w).initOkIn = s.initOkIn := by
  unfold State.otherGpioWrite; split_ifs <;> rfl
@[simp] theorem otherGpioWrite_xfailIn (s : State) (off : Nat) (w : Word32) : (s.otherGpioWrite off w).xfailIn = s.xfailIn := by
  unfold State.otherGpioWrite; split_ifs <;> rfl
@[simp] theorem otherGpioWrite_draws (s : State) (off : Nat) (w : Word32) : (s.otherGpioWrite off w).draws = s.draws := by
  unfold State.otherGpioWrite; split_ifs <;> rfl

/-! ### `drive` -/

@[simp] theorem drive_cfg (s : State) (l : Line) (v : Bool) : (s.drive l v).cfg = s.cfg := by
  unfold State.drive; split <;> simp
@[simp] theorem drive_bank0 (s : State) (l : Line) (v : Bool) : (s.drive l v).bank0 = s.bank0 := by
  unfold State.drive; split <;> simp
@[simp] theorem drive_bank1 (s : State) (l : Line) (v : Bool) : (s.drive l v).bank1 = s.bank1 := by
  unfold State.drive; split <;> simp
@[simp] theorem drive_act (s : State) (l : Line) (v : Bool) : (s.drive l v).act = s.act := by
  unfold State.drive; split <;> simp
@[simp] theorem drive_rph (s : State) (l : Line) (v : Bool) : (s.drive l v).rph = s.rph := by
  unfold State.drive; split <;> simp
@[simp] theorem drive_pos (s : State) (l : Line) (v : Bool) : (s.drive l v).pos = s.pos := by
  unfold State.drive; split <;> simp
@[simp] theorem drive_idx (s : State) (l : Line) (v : Bool) : (s.drive l v).idx = s.idx := by
  unfold State.drive; split <;> simp
@[simp] theorem drive_stopReq (s : State) (l : Line) (v : Bool) : (s.drive l v).stopReq = s.stopReq := by
  unfold State.drive; split <;> simp
@[simp] theorem drive_wst (s : State) (l : Line) (v : Bool) : (s.drive l v).wst = s.wst := by
  unfold State.drive; split <;> simp
@[simp] theorem drive_sh (s : State) (l : Line) (v : Bool) : (s.drive l v).sh = s.sh := by
  unfold State.drive; split <;> simp
@[simp] theorem drive_bitn (s : State) (l : Line) (v : Bool) : (s.drive l v).bitn = s.bitn := by
  unfold State.drive; split <;> simp
@[simp] theorem drive_fph (s : State) (l : Line) (v : Bool) : (s.drive l v).fph = s.fph := by
  unfold State.drive; split <;> simp
@[simp] theorem drive_fown (s : State) (l : Line) (v : Bool) : (s.drive l v).fown = s.fown := by
  unfold State.drive; split <;> simp
@[simp] theorem drive_iph (s : State) (l : Line) (v : Bool) : (s.drive l v).iph = s.iph := by
  unfold State.drive; split <;> simp
@[simp] theorem drive_ftmp (s : State) (l : Line) (v : Bool) : (s.drive l v).ftmp = s.ftmp := by
  unfold State.drive; split <;> simp
@[simp] theorem drive_sess (s : State) (l : Line) (v : Bool) : (s.drive l v).sess = s.sess := by
  unfold State.drive; split <;> simp
@[simp] theorem drive_trace (s : State) (l : Line) (v : Bool) : (s.drive l v).trace = s.trace := by
  unfold State.drive; split <;> simp
@[simp] theorem drive_frames (s : State) (l : Line) (v : Bool) : (s.drive l v).frames = s.frames := by
  unfold State.drive; split <;> simp
@[simp] theorem drive_diag (s : State) (l : Line) (v : Bool) : (s.drive l v).diag = s.diag := by
  unfold State.drive; split <;> simp
@[simp] theorem drive_responses (s : State) (l : Line) (v : Bool) : (s.drive l v).responses = s.responses := by
  unfold State.drive; split <;> simp
@[simp] theorem drive_hostq (s : State) (l : Line) (v : Bool) : (s.drive l v).hostq = s.hostq := by
  unfold State.drive; split <;> simp
@[simp] theorem drive_sched (s : State) (l : Line) (v : Bool) : (s.drive l v).sched = s.sched := by
  unfold State.drive; split <;> simp
@[simp] theorem drive_initOkIn (s : State) (l : Line) (v : Bool) : (s.drive l v).initOkIn = s.initOkIn := by
  unfold State.drive; split <;> simp
@[simp] theorem drive_xfailIn (s : State) (l : Line) (v : Bool) : (s.drive l v).xfailIn = s.xfailIn := by
  unfold State.drive; split <;> simp
@[simp] theorem drive_draws (s : State) (l : Line) (v : Bool) : (s.drive l v).draws = s.draws := by
  unfold State.drive; split <;> simp

/-! ### `record` -/

@[simp] theorem record_cfg (s : State) (e : WireEvent) : (s.record e).cfg = s.cfg := rfl
@[simp] theorem record_bank0 (s : State) (e : WireEvent) : (s.record e).bank0 = s.bank0 := rfl
@[simp] theorem record_bank1 (s : State) (e : WireEvent) : (s.record e).bank1 = s.bank1 := rfl
@[simp] theorem record_act (s : State) (e : WireEvent) : (s.record e).act = s.act := rfl
@[simp] theorem record_rph (s : State) (e : WireEvent) : (s.record e).rph = s.rph := rfl
@[simp] theorem record_pos (s : State) (e : WireEvent) : (s.record e).pos = s.pos := rfl
@[simp] theorem record_idx (s : State) (e : WireEvent) : (s.record e).idx = s.idx := rfl
@[simp] theorem record_stopReq (s : State) (e : WireEvent) : (s.record e).stopReq = s.stopReq := rfl
@[simp] theorem record_wst (s : State) (e : WireEvent) : (s.record e).wst = s.wst := rfl
@[simp] theorem record_sh (s : State) (e : WireEvent) : (s.record e).sh = s.sh := rfl
@[simp] theorem record_bitn (s : State) (e : WireEvent) : (s.record e).bitn = s.bitn := rfl
@[simp] theorem record_fph (s : State) (e : WireEvent) : (s.record e).fph = s.fph := rfl
@[simp] theorem record_fown (s : State) (e : WireEvent) : (s.record e).fown = s.fown := rfl
@[simp] theorem record_iph (s : State) (e : WireEvent) : (s.record e).iph = s.iph := rfl
@[simp] theorem record_ftmp (s : State) (e : WireEvent) : (s.record e).ftmp = s.ftmp := rfl
@[simp] theorem record_sess (s : State) (e : WireEvent) : (s.record e).sess = s.sess := rfl
@[simp] theorem record_lines (s : State) (e : WireEvent) : (s.record e).lines = s.lines := rfl
@[simp] theorem record_fsel (s : State) (e : WireEvent) : (s.record e).fsel = s.fsel := rfl
@[simp] theorem record_out (s : State) (e : WireEvent) : (s.record e).out = s.out := rfl
@[simp] theorem record_trace (s : State) (e : WireEvent) : (s.record e).trace = s.trace ++ [e] := rfl
@[simp] theorem record_frames (s : State) (e : WireEvent) : (s.record e).frames = s.frames := rfl
@[simp] theorem record_diag (s : State) (e : WireEvent) : (s.record e).diag = s.diag := rfl
@[simp] theorem record_responses (s : State) (e : WireEvent) : (s.record e).responses = s.responses := rfl
@[simp] theorem record_bus (s : State) (e : WireEvent) : (s.record e).bus = s.bus := rfl
@[simp] theorem record_hostq (s : State) (e : WireEvent) : (s.record e).hostq = s.hostq := rfl
@[simp] theorem record_sched (s : State) (e : WireEvent) : (s.record e).sched = s.sched := rfl
@[simp] theorem record_initOkIn (s : State) (e : WireEvent) : (s.record e).initOkIn = s.initOkIn := rfl
@[simp] theorem record_xfailIn (s : State) (e : WireEvent) : (s.record e).xfailIn = s.xfailIn := rfl
@[simp] theorem record_draws (s : State) (e : WireEvent) : (s.record e).draws = s.draws := rfl

/-! ### `pinEvent` -/

@[simp] theorem pinEvent_cfg (s : State) (l : Line) (v : Bool) : (s.pinEvent l v).cfg = s.cfg := by
  simp [State.pinEvent]
@[simp] theorem pinEvent_bank0 (s : State) (l : Line) (v : Bool) : (s.pinEvent l v).bank0 = s.bank0 := by
  simp [State.pinEvent]
@[simp] theorem pinEvent_bank1 (s : State) (l : Line) (v : Bool) : (s.pinEvent l v).bank1 = s.bank1 := by
  simp [State.pinEvent]
@[simp] theorem pinEvent_act (s : State) (l : Line) (v : Bool) : (s.pinEvent l v).act = s.act := by
  simp [State.pinEvent]
@[simp] theorem pinEvent_rph (s : State) (l : Line) (v : Bool) : (s.pinEvent l v).rph = s.rph := by
  simp [State.pinEvent]
@[simp] theorem pinEvent_pos (s : State) (l : Line) (v : Bool) : (s.pinEvent l v).pos = s.pos := by
  simp [State.pinEvent]
@[simp] theorem pinEvent_idx (s : State) (l : Line) (v : Bool) : (s.pinEvent l v).idx = s.idx := by
  simp [State.pinEvent]
@[simp] theorem pinEvent_stopReq (s : State) (l : Line) (v : Bool) : (s.pinEvent l v).stopReq = s.stopReq := by
  simp [State.pinEvent]
@[simp] theorem pinEvent_wst (s : State) (l : Line) (v : Bool) : (s.pinEvent l v).wst = s.wst := by
  simp [State.pinEvent]
@[simp] theorem pinEvent_sh (s : State) (l : Line) (v : Bool) : (s.pinEvent l v).sh = s.sh := by simp [State.pinEvent]
@[simp] theorem pinEvent_bitn (s : State) (l : Line) (v : Bool) : (s.pinEvent l v).bitn = s.bitn := by
  simp [State.pinEvent]
@[simp] theorem pinEvent_fph (s : State) (l : Line) (v : Bool) : (s.pinEvent l v).fph = s.fph := by
  simp [State.pinEvent]
@[simp] theorem pinEvent_fown (s : State) (l : Line) (v : Bool) : (s.pinEvent l v).fown = s.fown := by
  simp [State.pinEvent]
@[simp] theorem pinEvent_iph (s : State) (l : Line) (v : Bool) : (s.pinEvent l v).iph = s.iph := by
  simp [State.pinEvent]
@[simp] theorem pinEvent_ftmp (s : State) (l : Line) (v : Bool) : (s.pinEvent l v).ftmp = s.ftmp := by
  simp [State.pinEvent]
@[simp] theorem pinEvent_sess (s : State) (l : Line) (v : Bool) : (s.pinEvent l v).sess = s.sess := by
  simp [State.pinEvent]
@[simp] theorem pinEvent_trace (s : State) (l : Line) (v : Bool) : (s.pinEvent l v).trace = s.trace ++ [.pin l v] := by
  simp [State.pinEvent]
@[simp] theorem pinEvent_frames (s : State) (l : Line) (v : Bool) : (s.pinEvent l v).frames = s.frames := by
  simp [State.pinEvent]
@[simp] theorem pinEvent_diag (s : State) (l : Line) (v : Bool) : (s.pinEvent l v).diag = s.diag := by
  simp [State.pinEvent]
@[simp] theorem pinEvent_responses (s : State) (l : Line) (v : Bool) : (s.pinEvent l v).responses = s.responses := by
  simp [State.pinEvent]
@[simp] theorem pinEvent_hostq (s : State) (l : Line) (v : Bool) : (s.pinEvent l v).hostq = s.hostq := by
  simp [State.pinEvent]
@[simp] theorem pinEvent_sched (s : State) (l : Line) (v : Bool) : (s.pinEvent l v).sched = s.sched := by
  simp [State.pinEvent]
@[simp] theorem pinEvent_initOkIn (s : State) (l : Line) (v : Bool) : (s.pinEvent l v).initOkIn = s.initOkIn := by
  simp [State.pinEvent]
@[simp] theorem pinEvent_xfailIn (s : State) (l : Line) (v : Bool) : (s.pinEvent l v).xfailIn = s.xfailIn := by
  simp [State.pinEvent]
@[simp] theorem pinEvent_draws (s : State) (l : Line) (v : Bool) : (s.pinEvent l v).draws = s.draws := by
  simp [State.pinEvent]

/-! ### `delayEvent` -/

@[simp] theorem delayEvent_cfg (s : State) : (s.delayEvent).cfg = s.cfg := rfl
@[simp] theorem delayEvent_bank0 (s : State) : (s.delayEvent).bank0 = s.bank0 := rfl
@[simp] theorem delayEvent_bank1 (s : State) : (s.delayEvent).bank1 = s.bank1 := rfl
@[simp] theorem delayEvent_act (s : State) : (s.delayEvent).act = s.act := rfl
@[simp] theorem delayEvent_rph (s : State) : (s.delayEvent).rph = s.rph := rfl
@[simp] theorem delayEvent_pos (s : State) : (s.delayEvent).pos = s.pos := rfl
@[simp] theorem delayEvent_idx (s : State) : (s.delayEvent).idx = s.idx := rfl
@[simp] theorem delayEvent_stopReq (s : State) : (s.delayEvent).stopReq = s.stopReq := rfl
@[simp] theorem delayEvent_wst (s : State) : (s.delayEvent).wst = s.wst := rfl
@[simp] theorem delayEvent_sh (s : State) : (s.delayEvent).sh = s.sh := rfl
@[simp] theorem delayEvent_bitn (s : State) : (s.delayEvent).bitn = s.bitn := rfl
@[simp] theorem delayEvent_fph (s : State) : (s.delayEvent).fph = s.fph := rfl
@[simp] theorem delayEvent_fown (s : State) : (s.delayEvent).fown = s.fown := rfl
@[simp] theorem delayEvent_iph (s : State) : (s.delayEvent).iph = s.iph := rfl
@[simp] theorem delayEvent_ftmp (s : State) : (s.delayEvent).ftmp = s.ftmp := rfl
@[simp] theorem delayEvent_sess (s : State) : (s.delayEvent).sess = s.sess := rfl
@[simp] theorem delayEvent_lines (s : State) : (s.delayEvent).lines = s.lines := rfl
@[simp] theorem delayEvent_fsel (s : State) : (s.delayEvent).fsel = s.fsel := rfl
@[simp] theorem delayEvent_out (s : State) : (s.delayEvent).out = s.out := rfl
@[simp] theorem delayEvent_trace (s : State) : (s.delayEvent).trace = s.trace ++ [.delay] := rfl
@[simp] theorem delayEvent_frames (s : State) : (s.delayEvent).frames = s.frames := rfl
@[simp] theorem delayEvent_diag (s : State) : (s.delayEvent).diag = s.diag := rfl
@[simp] theorem delayEvent_responses (s : State) : (s.delayEvent).responses = s.responses := rfl
@[simp] theorem delayEvent_bus (s : State) : (s.delayEvent).bus = s.bus := rfl
@[simp] theorem delayEvent_hostq (s : State) : (s.delayEvent).hostq = s.hostq := rfl
@[simp] theorem delayEvent_sched (s : State) : (s.delayEvent).sched = s.sched := rfl
@[simp] theorem delayEvent_initOkIn (s : State) : (s.delayEvent).initOkIn = s.initOkIn := rfl
@[simp] theorem delayEvent_xfailIn (s : State) : (s.delayEvent).xfailIn = s.xfailIn := rfl
@[simp] theorem delayEvent_draws (s : State) : (s.delayEvent).draws = s.draws := rfl

/-! ### `loadEvent` -/

@[simp] theorem loadEvent_cfg (s : State) (b : Bool) : (s.loadEvent b).cfg = s.cfg := by simp [State.loadEvent]
@[simp] theorem loadEvent_bank0 (s : State) (b : Bool) : (s.loadEvent b).bank0 = s.bank0 := by simp [State.loadEvent]
@[simp] theorem loadEvent_bank1 (s : State) (b : Bool) : (s.loadEvent b).bank1 = s.bank1 := by simp [State.loadEvent]
@[simp] theorem loadEvent_act (s : State) (b : Bool) : (s.loadEvent b).act = s.act := by simp [State.loadEvent]
@[simp] theorem loadEvent_rph (s : State) (b : Bool) : (s.loadEvent b).rph = s.rph := by simp [State.loadEvent]
@[simp] theorem loadEvent_pos (s : State) (b : Bool) : (s.loadEvent b).pos = s.pos := by simp [State.loadEvent]
@[simp] theorem loadEvent_idx (s : State) (b : Bool) : (s.loadEvent b).idx = s.idx := by simp [State.loadEvent]
@[simp] theorem loadEvent_stopReq (s : State) (b : Bool) : (s.loadEvent b).stopReq = s.stopReq := by
  simp [State.loadEvent]
@[simp] theorem loadEvent_wst (s : State) (b : Bool) : (s.loadEvent b).wst = s.wst := by simp [State.loadEvent]
@[simp] theorem loadEvent_sh (s : State) (b : Bool) : (s.loadEvent b).sh = s.sh := by simp [State.loadEvent]
@[simp] theorem loadEvent_bitn (s : State) (b : Bool) : (s.loadEvent b).bitn = s.bitn := by simp [State.loadEvent]
@[simp] theorem loadEvent_fph (s : State) (b : Bool) : (s.loadEvent b).fph = s.fph := by simp [State.loadEvent]
@[simp] theorem loadEvent_fown (s : State) (b : Bool) : (s.loadEvent b).fown = s.fown := by simp [State.loadEvent]
@[simp] theorem loadEvent_iph (s : State) (b : Bool) : (s.loadEvent b).iph = s.iph := by simp [State.loadEvent]
@[simp] theorem loadEvent_ftmp (s : State) (b : Bool) : (s.loadEvent b).ftmp = s.ftmp := by simp [State.loadEvent]
@[simp] theorem loadEvent_sess (s : State) (b : Bool) : (s.loadEvent b).sess = s.sess := by simp [State.loadEvent]
@[simp] theorem loadEvent_trace (s : State) (b : Bool) : (s.loadEvent b).trace = s.trace ++ [.pin .load (if b then s.cfg.loadAssertLevel else !s.cfg.loadAssertLevel)] := by
  simp [State.loadEvent]
@[simp] theorem loadEvent_frames (s : State) (b : Bool) : (s.loadEvent b).frames = s.frames := by simp [State.loadEvent]
@[simp] theorem loadEvent_diag (s : State) (b : Bool) : (s.loadEvent b).diag = s.diag := by simp [State.loadEvent]
@[simp] theorem loadEvent_responses (s : State) (b : Bool) : (s.loadEvent b).responses = s.responses := by
  simp [State.loadEvent]
@[simp] theorem loadEvent_hostq (s : State) (b : Bool) : (s.loadEvent b).hostq = s.hostq := by simp [State.loadEvent]
@[simp] theorem loadEvent_sched (s : State) (b : Bool) : (s.loadEvent b).sched = s.sched := by simp [State.loadEvent]
@[simp] theorem loadEvent_initOkIn (s : State) (b : Bool) : (s.loadEvent b).initOkIn = s.initOkIn := by
  simp [State.loadEvent]
@[simp] theorem loadEvent_xfailIn (s : State) (b : Bool) : (s.loadEvent b).xfailIn = s.xfailIn := by
  simp [State.loadEvent]
@[simp] theorem loadEvent_draws (s : State) (b : Bool) : (s.loadEvent b).draws = s.draws := by simp [State.loadEvent]

end State

end Sys2Proof.Machine
end

