-- ==== Sys2Proof/Laws/Bank.lean ====
section
/-! SUPPORT. The laws of one ScrollBuffer bank: the glyph store, the two read-pointer functions, and that every write keeps
the invariant of 10_state R16. -/

namespace Sys2Proof.Machine

/-! ### The glyph store -/

/-- A canonical glyph store read after a write. -/
theorem Memory.read_write {m : Memory} (hm : m.wf = true) (a : Nat) (v : Byte) (b : Nat) :
    (m.write a v).read b = if b = a then v else m.read b := by
  simp only [Memory.wf, Bool.and_eq_true] at hm
  exact Store.read_write _ hm.1 a v b

/-- A write inside the bank keeps the canonical form. -/
theorem Memory.wf_write {m : Memory} (hm : m.wf = true) {a : Nat} (ha : a < Config.capacity) (v : Byte) :
    (m.write a v).wf = true := by
  simp only [Memory.wf, Bool.and_eq_true, List.all_eq_true, decide_eq_true_eq] at hm ⊢
  refine ⟨Store.wf_write _ hm.1 a v, fun c hc => ?_⟩
  rcases Store.mem_write _ hc with h | h
  · omega
  · exact hm.2 c h

@[simp] theorem Memory.read_nil (a : Nat) : Memory.read [] a = 0 := rfl

@[simp] theorem Memory.wf_nil : Memory.wf [] = true := rfl

/-- A slot beyond every listed one reads blank. -/
theorem Memory.read_unlisted {m : Memory} {a : Nat} (h : ∀ c ∈ m, c.1 ≠ a) : m.read a = 0 := by
  induction m with
  | nil => rfl
  | cons c m ih =>
    have hc : c.1 ≠ a := h c (by simp)
    have : Memory.read (c :: m) a = Memory.read m a := by
      obtain ⟨k, v⟩ := c
      exact if_neg hc
    rw [this, ih fun c hc => h c (by simp [hc])]

/-! ### Slots -/

theorem Bank.store_inside {b : Bank} {i : Nat} (h : i < Config.capacity) (v : Byte) :
    b.store i v = some { b with data := b.data.write i v } := if_pos h

theorem Bank.load_inside {b : Bank} {i : Nat} (h : i < Config.capacity) : b.load i = some (b.data.read i) := if_pos h

/-- Everything a store into a bank can do. -/
theorem Bank.store_eq_some {b c : Bank} {i : Nat} {v : Byte} (h : b.store i v = some c) :
    i < Config.capacity ∧ c = { b with data := b.data.write i v } := by
  unfold Bank.store at h
  split_ifs at h with hi
  exact ⟨hi, (Option.some.inj h).symm⟩

/-! ### The read pointer -/

theorem Bank.advance_empty {b : Bank} (h : b.length = 0) (i : Byte) : b.advance i = (i, none) := if_pos h

theorem Bank.advance_outside {b : Bank} {i : Byte} (h : b.length ≠ 0) (hi : b.length ≤ i) :
    b.advance i = (i, some (.boundsViolation i)) := by
  unfold Bank.advance
  rw [if_neg h, if_pos hi]

/-- Inside the active prefix the successor is the circular one, and no event is raised. -/
theorem Bank.advance_inside {b : Bank} {i : Byte} (hi : i.toNat < b.length.toNat) :
    (b.advance i).1.toNat = (i.toNat + 1) % b.length.toNat ∧ (b.advance i).2 = none := by
  have h0 : b.length ≠ 0 := by rintro h; rw [h] at hi; simp at hi
  have h1 : ¬ b.length ≤ i := by rw [BitVec.le_def]; omega
  unfold Bank.advance
  rw [if_neg h0, if_neg h1]
  by_cases h2 : i = b.length - 1
  · have : i.toNat + 1 = b.length.toNat := by bv_omega
    rw [if_pos h2, this]
    simp
  · have : i.toNat + 1 ≠ b.length.toNat := by bv_omega
    rw [if_neg h2, Nat.mod_eq_of_lt (by omega)]
    refine ⟨?_, rfl⟩
    bv_omega

theorem Bank.readAt_empty {b : Bank} (h : b.length = 0) (i : Byte) : b.readAt i = some (Config.glyphBlank, none) := if_pos h

theorem Bank.readAt_outside {b : Bank} {i : Byte} (h : b.length ≠ 0) (hi : b.length ≤ i) :
    b.readAt i = some (Config.glyphBlank, some (.boundsViolation i)) := by
  unfold Bank.readAt
  rw [if_neg h, if_pos hi]

theorem Bank.readAt_inside {b : Bank} {i : Byte} (hi : i.toNat < b.length.toNat) (hl : b.length.toNat ≤ Config.capacity) :
    b.readAt i = some (b.data.read i.toNat, none) := by
  have h0 : b.length ≠ 0 := by rintro h; rw [h] at hi; simp at hi
  have h1 : ¬ b.length ≤ i := by rw [BitVec.le_def]; omega
  unfold Bank.readAt
  rw [if_neg h0, if_neg h1, Bank.load_inside (by omega)]
  rfl

/-- A bank of at most `C` glyphs can always be read. -/
theorem Bank.readAt_some {b : Bank} (hl : b.length.toNat ≤ Config.capacity) (i : Byte) : ∃ r, b.readAt i = some r := by
  by_cases h0 : b.length = 0
  · exact ⟨_, Bank.readAt_empty h0 i⟩
  · by_cases h1 : b.length ≤ i
    · exact ⟨_, Bank.readAt_outside h0 h1⟩
    · exact ⟨_, Bank.readAt_inside (by rw [BitVec.le_def] at h1; omega) hl⟩

/-! ### The invariant of a bank -/

theorem Bank.good_empty : Bank.empty.Good := by decide

/-- Appending below capacity keeps the invariant. -/
theorem Bank.good_append {b : Bank} (hb : b.Good) (h : b.length.toNat < Config.capacity) (g : Byte) :
    ({ b with data := b.data.write b.length.toNat g, length := b.length + 1 } : Bank).Good := by
  obtain ⟨hw, hl, hc, hz, hm⟩ := hb
  have h128 : b.length.toNat < 128 := h
  have hlen : (b.length + 1).toNat = b.length.toNat + 1 := by bv_omega
  refine ⟨Memory.wf_write hw h g, ?_, ?_, ?_, ?_⟩
  · simp only [hlen]; omega
  · intro _
    simp only [hlen]
    by_cases h0 : b.length.toNat = 0
    · rw [hz h0]; simp
    · have := hc (by omega); omega
  · intro h0; simp only [hlen] at h0; omega
  · intro c hc'
    simp only [hlen]
    rcases Store.mem_write _ hc' with h' | h'
    · omega
    · have := hm c h'; omega

/-- Rewriting a slot of the active prefix keeps the invariant. -/
theorem Bank.good_rewrite {b : Bank} (hb : b.Good) {i : Nat} (hi : i < b.length.toNat) (v : Byte) :
    ({ b with data := b.data.write i v } : Bank).Good := by
  obtain ⟨hw, hl, hc, hz, hm⟩ := hb
  refine ⟨Memory.wf_write hw (by omega) v, hl, hc, hz, ?_⟩
  intro c hc'
  rcases Store.mem_write _ hc' with h' | h'
  · exact h' ▸ hi
  · exact hm c h'

/-- Advancing the persistent cursor keeps the invariant, and raises nothing. -/
theorem Bank.good_cursor {b : Bank} (hb : b.Good) :
    ({ b with cursor := (b.advance b.cursor).1 } : Bank).Good ∧ (b.advance b.cursor).2 = none := by
  obtain ⟨hw, hl, hc, hz, hm⟩ := hb
  by_cases h0 : b.length.toNat = 0
  · have hb0 : b.length = 0 := by bv_omega
    rw [Bank.advance_empty hb0]
    exact ⟨⟨hw, hl, hc, hz, hm⟩, rfl⟩
  · have hin := Bank.advance_inside (hc (by omega))
    refine ⟨⟨hw, hl, fun _ => ?_, fun h => absurd h h0, hm⟩, hin.2⟩
    simp only [hin.1]
    exact Nat.mod_lt _ (by omega)

/-! ### Which bank -/

namespace State

@[simp] theorem setBank_bank (s : State) (k : Bool) (b : Bank) : (s.setBank k b).bank k = b := by cases k <;> rfl

@[simp] theorem setBank_bank_not (s : State) (k : Bool) (b : Bank) : (s.setBank k b).bank (!k) = s.bank (!k) := by
  cases k <;> rfl

@[simp] theorem setBank_bank_not' (s : State) (k : Bool) (b : Bank) : (s.setBank (!k) b).bank k = s.bank k := by
  cases k <;> rfl

@[simp] theorem setShadow_shadow (s : State) (b : Bank) : (s.setShadow b).shadow = b := by
  unfold setShadow shadow; simp

@[simp] theorem setShadow_active (s : State) (b : Bank) : (s.setShadow b).active = s.active := by
  unfold setShadow active; simp

@[simp] theorem setActive_active (s : State) (b : Bank) : (s.setActive b).active = b := by
  unfold setActive active; simp

@[simp] theorem setActive_shadow (s : State) (b : Bank) : (s.setActive b).shadow = s.shadow := by
  unfold setActive shadow; simp

/-- Both banks are good exactly when the active and the shadow bank are. -/
theorem banks_good (s : State) : (s.bank0.Good ∧ s.bank1.Good) ↔ (s.active.Good ∧ s.shadow.Good) := by
  unfold active shadow
  cases s.act
  · exact Iff.rfl
  · exact And.comm

end State

end Sys2Proof.Machine
end

