-- ==== Sys2Proof/Laws/Decode.lean ====
section
/-! SUPPORT. The laws of the encodings: the fields of a built word, a word from its fields, what the rows of the opcode
table say of the fields, and everything the decoder can do. -/

namespace Sys2Proof

/-! ### The fields of a word -/

theorem opField_cmdWord (op : Byte) (x : Word16) : opField (cmdWord op x) = op := by
  unfold opField cmdWord
  apply BitVec.eq_of_getLsbD_eq
  intro k hk
  simp only [BitVec.getLsbD_extractLsb', BitVec.getLsbD_append, hk, decide_true, Bool.true_and]
  rw [if_neg (by omega)]
  congr 1
  omega

theorem argField_cmdWord (op : Byte) (x : Word16) : argField (cmdWord op x) = x := by
  unfold argField cmdWord
  apply BitVec.eq_of_getLsbD_eq
  intro k hk
  simp only [BitVec.getLsbD_extractLsb', BitVec.getLsbD_append, hk, decide_true, Bool.true_and]
  rw [if_pos (by omega)]
  congr 1
  omega

/-- `arg[15:8]` through the operand. -/
theorem argHigh_eq (w : Word24) : argHigh w = (argField w).extractLsb' 8 8 := by
  unfold argHigh argField
  apply BitVec.eq_of_getLsbD_eq
  intro k hk
  simp only [BitVec.getLsbD_extractLsb', hk, decide_true, Bool.true_and, Nat.zero_add]
  rw [decide_eq_true (by omega), Bool.true_and]

theorem argLow_eq (w : Word24) : argLow w = (argField w).extractLsb' 0 8 := by
  unfold argLow argField
  apply BitVec.eq_of_getLsbD_eq
  intro k hk
  simp only [BitVec.getLsbD_extractLsb', hk, decide_true, Bool.true_and, Nat.zero_add]
  rw [decide_eq_true (by omega), Bool.true_and]

theorem argBank_eq (w : Word24) : argBank w = (argField w).getLsbD 15 := by
  unfold argBank argField
  simp only [BitVec.getLsbD_extractLsb', Nat.zero_add]
  rfl

theorem argQueryZero_eq (w : Word24) : argQueryZero w = (argField w).extractLsb' 8 7 := by
  unfold argQueryZero argField
  apply BitVec.eq_of_getLsbD_eq
  intro k hk
  simp only [BitVec.getLsbD_extractLsb', hk, decide_true, Bool.true_and, Nat.zero_add]
  rw [decide_eq_true (by omega), Bool.true_and]

theorem high_append (a b : Byte) : (a ++ b : Word16).extractLsb' 8 8 = a := by
  apply BitVec.eq_of_getLsbD_eq
  intro k hk
  simp only [BitVec.getLsbD_extractLsb', BitVec.getLsbD_append, hk, decide_true, Bool.true_and]
  rw [if_neg (by omega)]
  congr 1
  omega
theorem low_append (a b : Byte) : (a ++ b : Word16).extractLsb' 0 8 = b := by
  apply BitVec.eq_of_getLsbD_eq
  intro k hk
  simp only [BitVec.getLsbD_extractLsb', BitVec.getLsbD_append, hk, decide_true, Bool.true_and]
  rw [if_pos (by omega)]
  congr 1
  omega
theorem queryArg_low (a : Bool) (i : Byte) : (queryArg a i).extractLsb' 0 8 = i := by
  unfold queryArg
  apply BitVec.eq_of_getLsbD_eq
  intro k hk
  simp only [BitVec.getLsbD_extractLsb', BitVec.getLsbD_append, hk, decide_true, Bool.true_and]
  rw [if_pos (by omega)]
  congr 1
  omega
theorem queryArg_zero (a : Bool) (i : Byte) : (queryArg a i).extractLsb' 8 7 = 0 := by
  unfold queryArg
  apply BitVec.eq_of_getLsbD_eq
  intro k hk
  simp only [BitVec.getLsbD_extractLsb', BitVec.getLsbD_append, hk, decide_true, Bool.true_and]
  rw [if_neg (by omega), if_pos (by omega)]
  simp
theorem queryArg_bank (a : Bool) (i : Byte) : (queryArg a i).getLsbD 15 = a := by
  unfold queryArg
  simp only [BitVec.getLsbD_append]
  cases a <;> rfl

/-- A word is its two bytes. -/
theorem append_extract (x : Word16) : (x.extractLsb' 8 8 ++ x.extractLsb' 0 8 : Word16) = x := by
  apply BitVec.eq_of_getLsbD_eq
  intro k hk
  simp only [BitVec.getLsbD_append, BitVec.getLsbD_extractLsb', Nat.zero_add]
  by_cases h : k < 8
  · simp [h]
  · rw [if_neg h, decide_eq_true (by omega), Bool.true_and]
    congr 1
    omega
theorem cmdWord_fields (w : Word24) : cmdWord (opField w) (argField w) = w := by
  unfold cmdWord opField argField
  apply BitVec.eq_of_getLsbD_eq
  intro k hk
  simp only [BitVec.getLsbD_append, BitVec.getLsbD_extractLsb', Nat.zero_add]
  by_cases h : k < 16
  · simp [h]
  · rw [if_neg h, decide_eq_true (by omega), Bool.true_and]
    congr 1
    omega
theorem queryArg_fields (x : Word16) (h : x.extractLsb' 8 7 = 0) :
    queryArg (x.getLsbD 15) (x.extractLsb' 0 8) = x := by
  unfold queryArg
  apply BitVec.eq_of_getLsbD_eq
  intro k hk
  simp only [BitVec.getLsbD_append, BitVec.getLsbD_extractLsb', Nat.zero_add]
  by_cases h1 : k < 8
  · simp [h1]
  · rw [if_neg h1]
    by_cases h2 : k = 15
    · subst h2; simp
    · have := congrArg (fun v => v.getLsbD (k - 8)) h
      simp only [BitVec.getLsbD_extractLsb'] at this
      rw [decide_eq_true (by omega), Bool.true_and, show 8 + (k - 8) = k by omega] at this
      rw [if_pos (by omega), this]
      simp


theorem cmdWord_inj {a b : Byte} {x y : Word16} : cmdWord a x = cmdWord b y ↔ a = b ∧ x = y := by
  constructor
  · intro h
    exact ⟨by rw [← opField_cmdWord a x, h, opField_cmdWord], by rw [← argField_cmdWord a x, h, argField_cmdWord]⟩
  · rintro ⟨rfl, rfl⟩; rfl

theorem cmdWord_and (a b : Byte) (x y : Word16) : cmdWord a x &&& cmdWord b y = cmdWord (a &&& b) (x &&& y) := by
  unfold cmdWord
  exact BitVec.and_append

/-- Whether a word belongs to a row that fixes the `op` and the bits `zero` of the operand to 0. -/
theorem hits_iff (m : String) (op : Byte) (zero : Word16) (w : Word24) :
    (OpcodeRow.hits ⟨m, cmdWord op 0, cmdWord 0xFF#8 zero⟩ w = true) ↔ opField w = op ∧ argField w &&& zero = 0 := by
  unfold OpcodeRow.hits
  rw [beq_iff_eq]
  conv_lhs => rw [← cmdWord_fields w, cmdWord_and, cmdWord_inj]
  have : opField w &&& 0xFF#8 = opField w := by
    apply BitVec.eq_of_getLsbD_eq
    intro k hk
    rw [BitVec.getLsbD_and]
    have : (0xFF#8).getLsbD k = true := by
      interval_cases k <;> rfl
    simp [this]
  rw [this]

theorem and_high_zero (x : Word16) : x &&& 0xFF00#16 = 0 ↔ x.extractLsb' 8 8 = 0 := by
  constructor
  · intro h
    have h2 := congrArg (BitVec.extractLsb' 8 8) h
    rw [← append_extract x, show (0xFF00#16) = (0xFF#8 ++ 0#8 : Word16) from rfl, BitVec.and_append, high_append] at h2
    have h3 : (x.extractLsb' 8 8 &&& 0xFF#8) = x.extractLsb' 8 8 := BitVec.and_allOnes
    rw [h3] at h2
    exact h2
  · intro h
    rw [← append_extract x, h, show (0xFF00#16) = (0xFF#8 ++ 0#8 : Word16) from rfl, BitVec.and_append]
    simp
theorem and_query_zero (x : Word16) : x &&& 0x7F00#16 = 0 ↔ x.extractLsb' 8 7 = 0 := by
  constructor
  · intro h
    apply BitVec.eq_of_getLsbD_eq
    intro k hk
    have h2 := congrArg (fun v => v.getLsbD (8 + k)) h
    simp only [BitVec.getLsbD_and] at h2
    have h3 : (0x7F00#16).getLsbD (8 + k) = true := by interval_cases k <;> rfl
    rw [h3, Bool.and_true] at h2
    rw [BitVec.getLsbD_extractLsb', decide_eq_true hk, Bool.true_and, h2]
    simp
  · intro h
    apply BitVec.eq_of_getLsbD_eq
    intro k hk
    rw [BitVec.getLsbD_and]
    by_cases h1 : 8 ≤ k ∧ k < 15
    · have h2 := congrArg (fun v => v.getLsbD (k - 8)) h
      simp only [BitVec.getLsbD_extractLsb'] at h2
      rw [decide_eq_true (by omega), Bool.true_and, show 8 + (k - 8) = k by omega] at h2
      rw [h2]; simp
    · have h3 : (0x7F00#16).getLsbD k = false := by interval_cases k <;> first | rfl | omega
      rw [h3]; simp
theorem and_all_zero (x : Word16) : x &&& 0xFFFF#16 = 0 ↔ x = 0 := by
  have : x &&& 0xFFFF#16 = x := BitVec.and_allOnes
  rw [this]
theorem and_none_zero (x : Word16) : x &&& 0#16 = 0 ↔ True := by simp


theorem queryArg_bank' (a : Bool) (i : Byte) : (queryArg a i)[15] = a := queryArg_bank a i

/-- A command word from its two fields. -/
theorem cmdWord_of_fields {w : Word24} {op : Byte} {x : Word16} (h : opField w = op) (hx : argField w = x) :
    cmdWord op x = w := by
  rw [← h, ← hx, cmdWord_fields]

/-! ### The decoder -/

/-- Everything the decoder of command words can do (30_encoding R66, R67, R69 step 1). -/
theorem decodeCmd_cases (w : Word24) :
    (opField w = 0x01#8 ∧ argField w = 0 ∧ decodeCmd w = .ok .wtInit) ∨
    (opField w = 0x02#8 ∧ decodeCmd w = .ok (.wtSend (argHigh w) (argLow w))) ∨
    (opField w = 0x03#8 ∧ argField w = 0 ∧ decodeCmd w = .ok .wtClose) ∨
    (opField w = 0x10#8 ∧ argField w = 0 ∧ decodeCmd w = .ok .sbReset) ∨
    (opField w = 0x11#8 ∧ argHigh w = 0 ∧ decodeCmd w = .ok (.sbAppend (argLow w))) ∨
    (opField w = 0x12#8 ∧ argHigh w = 0 ∧ decodeCmd w = .ok (.sbOrlast (argLow w))) ∨
    (opField w = 0x13#8 ∧ argField w = 0 ∧ decodeCmd w = .ok .sbCommit) ∨
    (opField w = 0x14#8 ∧ argQueryZero w = 0 ∧ decodeCmd w = .ok (.sbAdvance (argBank w) (argLow w))) ∨
    (opField w = 0x15#8 ∧ argQueryZero w = 0 ∧ decodeCmd w = .ok (.sbRead (argBank w) (argLow w))) ∨
    (opField w = 0x20#8 ∧ argField w = 0 ∧ decodeCmd w = .ok .rlStop) ∨
    decodeCmd w = .error (.illegalCommand w) := by
  unfold decodeCmd
  by_cases h0 : opField w = 0x01#8
  · by_cases hz : argField w = 0
    · exact .inl ⟨h0, hz, by rw [if_pos h0, if_pos hz]⟩
    · exact .inr (.inr (.inr (.inr (.inr (.inr (.inr (.inr (.inr (.inr (by rw [if_pos h0, if_neg hz]))))))))))
  simp only [if_neg h0]
  by_cases h1 : opField w = 0x02#8
  · exact .inr (.inl ⟨h1, if_pos h1⟩)
  simp only [if_neg h1]
  by_cases h2 : opField w = 0x03#8
  · by_cases hz : argField w = 0
    · exact .inr (.inr (.inl ⟨h2, hz, by rw [if_pos h2, if_pos hz]⟩))
    · exact .inr (.inr (.inr (.inr (.inr (.inr (.inr (.inr (.inr (.inr (by rw [if_pos h2, if_neg hz]))))))))))
  simp only [if_neg h2]
  by_cases h3 : opField w = 0x10#8
  · by_cases hz : argField w = 0
    · exact .inr (.inr (.inr (.inl ⟨h3, hz, by rw [if_pos h3, if_pos hz]⟩)))
    · exact .inr (.inr (.inr (.inr (.inr (.inr (.inr (.inr (.inr (.inr (by rw [if_pos h3, if_neg hz]))))))))))
  simp only [if_neg h3]
  by_cases h4 : opField w = 0x11#8
  · by_cases hz : argHigh w = 0
    · exact .inr (.inr (.inr (.inr (.inl ⟨h4, hz, by rw [if_pos h4, if_pos hz]⟩))))
    · exact .inr (.inr (.inr (.inr (.inr (.inr (.inr (.inr (.inr (.inr (by rw [if_pos h4, if_neg hz]))))))))))
  simp only [if_neg h4]
  by_cases h5 : opField w = 0x12#8
  · by_cases hz : argHigh w = 0
    · exact .inr (.inr (.inr (.inr (.inr (.inl ⟨h5, hz, by rw [if_pos h5, if_pos hz]⟩)))))
    · exact .inr (.inr (.inr (.inr (.inr (.inr (.inr (.inr (.inr (.inr (by rw [if_pos h5, if_neg hz]))))))))))
  simp only [if_neg h5]
  by_cases h6 : opField w = 0x13#8
  · by_cases hz : argField w = 0
    · exact .inr (.inr (.inr (.inr (.inr (.inr (.inl ⟨h6, hz, by rw [if_pos h6, if_pos hz]⟩))))))
    · exact .inr (.inr (.inr (.inr (.inr (.inr (.inr (.inr (.inr (.inr (by rw [if_pos h6, if_neg hz]))))))))))
  simp only [if_neg h6]
  by_cases h7 : opField w = 0x14#8
  · by_cases hz : argQueryZero w = 0
    · exact .inr (.inr (.inr (.inr (.inr (.inr (.inr (.inl ⟨h7, hz, by rw [if_pos h7, if_pos hz]⟩)))))))
    · exact .inr (.inr (.inr (.inr (.inr (.inr (.inr (.inr (.inr (.inr (by rw [if_pos h7, if_neg hz]))))))))))
  simp only [if_neg h7]
  by_cases h8 : opField w = 0x15#8
  · by_cases hz : argQueryZero w = 0
    · exact .inr (.inr (.inr (.inr (.inr (.inr (.inr (.inr (.inl ⟨h8, hz, by rw [if_pos h8, if_pos hz]⟩))))))))
    · exact .inr (.inr (.inr (.inr (.inr (.inr (.inr (.inr (.inr (.inr (by rw [if_pos h8, if_neg hz]))))))))))
  simp only [if_neg h8]
  by_cases h9 : opField w = 0x20#8
  · by_cases hz : argField w = 0
    · exact .inr (.inr (.inr (.inr (.inr (.inr (.inr (.inr (.inr (.inl ⟨h9, hz, by rw [if_pos h9, if_pos hz]⟩)))))))))
    · exact .inr (.inr (.inr (.inr (.inr (.inr (.inr (.inr (.inr (.inr (by rw [if_pos h9, if_neg hz]))))))))))
  exact .inr (.inr (.inr (.inr (.inr (.inr (.inr (.inr (.inr (.inr (if_neg h9))))))))))

/-- The decoder rejects nothing but illegal words, by name. -/
theorem decodeCmd_error {w : Word24} {e : DecodeError} (h : decodeCmd w = .error e) : e = .illegalCommand w := by
  rcases decodeCmd_cases w with ⟨-, -, h'⟩ | ⟨-, h'⟩ | ⟨-, -, h'⟩ | ⟨-, -, h'⟩ | ⟨-, -, h'⟩ | ⟨-, -, h'⟩ | ⟨-, -, h'⟩ |
    ⟨-, -, h'⟩ | ⟨-, -, h'⟩ | ⟨-, -, h'⟩ | h' <;> rw [h'] at h <;> cases h
  rfl

/-! ### The opcode table -/

/-- What each row of the table says of a word's fields. -/
theorem rows_hit (w : Word24) :
   (OpcodeRow.hits ⟨"WT.INIT", 0x010000#24, 0xFFFFFF#24⟩ w = true ↔ opField w = 0x01#8 ∧ argField w = 0) ∧
   (OpcodeRow.hits ⟨"WT.SEND", 0x020000#24, 0xFF0000#24⟩ w = true ↔ opField w = 0x02#8) ∧
   (OpcodeRow.hits ⟨"WT.CLOSE", 0x030000#24, 0xFFFFFF#24⟩ w = true ↔ opField w = 0x03#8 ∧ argField w = 0) ∧
   (OpcodeRow.hits ⟨"SB.RESET", 0x100000#24, 0xFFFFFF#24⟩ w = true ↔ opField w = 0x10#8 ∧ argField w = 0) ∧
   (OpcodeRow.hits ⟨"SB.APPEND", 0x110000#24, 0xFFFF00#24⟩ w = true ↔ opField w = 0x11#8 ∧ argHigh w = 0) ∧
   (OpcodeRow.hits ⟨"SB.ORLAST", 0x120000#24, 0xFFFF00#24⟩ w = true ↔ opField w = 0x12#8 ∧ argHigh w = 0) ∧
   (OpcodeRow.hits ⟨"SB.COMMIT", 0x130000#24, 0xFFFFFF#24⟩ w = true ↔ opField w = 0x13#8 ∧ argField w = 0) ∧
   (OpcodeRow.hits ⟨"SB.ADVANCE", 0x140000#24, 0xFF7F00#24⟩ w = true ↔ opField w = 0x14#8 ∧ argQueryZero w = 0) ∧
   (OpcodeRow.hits ⟨"SB.READ", 0x150000#24, 0xFF7F00#24⟩ w = true ↔ opField w = 0x15#8 ∧ argQueryZero w = 0) ∧
   (OpcodeRow.hits ⟨"RL.STOP", 0x200000#24, 0xFFFFFF#24⟩ w = true ↔ opField w = 0x20#8 ∧ argField w = 0) := by
  have full (m : String) (op : Byte) : (OpcodeRow.hits ⟨m, cmdWord op 0, cmdWord 0xFF#8 0xFFFF#16⟩ w = true) ↔ opField w = op ∧ argField w = 0 :=
    (hits_iff m op 0xFFFF#16 w).trans (and_congr_right fun _ => and_all_zero _)
  have byte (m : String) (op : Byte) : (OpcodeRow.hits ⟨m, cmdWord op 0, cmdWord 0xFF#8 0xFF00#16⟩ w = true) ↔ opField w = op ∧ argHigh w = 0 :=
    (hits_iff m op 0xFF00#16 w).trans (and_congr_right fun _ => by rw [and_high_zero, argHigh_eq])
  have query (m : String) (op : Byte) : (OpcodeRow.hits ⟨m, cmdWord op 0, cmdWord 0xFF#8 0x7F00#16⟩ w = true) ↔ opField w = op ∧ argQueryZero w = 0 :=
    (hits_iff m op 0x7F00#16 w).trans (and_congr_right fun _ => by rw [and_query_zero, argQueryZero_eq])
  have send (m : String) (op : Byte) : (OpcodeRow.hits ⟨m, cmdWord op 0, cmdWord 0xFF#8 0#16⟩ w = true) ↔ opField w = op :=
    (hits_iff m op 0#16 w).trans (by simp)
  exact ⟨full _ 0x01, send _ 0x02, full _ 0x03, full _ 0x10, byte _ 0x11, byte _ 0x12, full _ 0x13, query _ 0x14, query _ 0x15, full _ 0x20⟩


end Sys2Proof
end

