-- ==== Sys2Proof/Laws/Port.lean ====
section
/-! SUPPORT. The laws of the ports: the response words, what finishing and refusing a command write, the check for a
destroyed session, and one equation per command for what it does while the session stands. Statements about a command go
through its equation, never through its definition. -/

namespace Sys2Proof.Machine

/-! ### Response words -/

/-- The response of a command that raised nothing is its value. -/
theorem response_none (v : Byte) : response none v = BitVec.ofNat 16 v.toNat := by
  unfold response
  apply BitVec.eq_of_toNat_eq
  have hv := v.isLt
  rw [BitVec.toNat_append, BitVec.toNat_ofNat, Nat.mod_eq_of_lt (by omega)]
  simp

/-- The response of a command that raised an event: `err`, the event's code, the value. -/
theorem response_some (e : Diag) (v : Byte) :
    response (some e) v = BitVec.ofNat 16 (0x8000 + e.code.toNat * 256 + v.toNat) := by
  unfold response
  apply BitVec.eq_of_toNat_eq
  have hv := v.isLt
  have hc := e.code.isLt
  have h1 : ((1#1 ++ e.code : BitVec 8)).toNat = 128 + e.code.toNat := by
    rw [BitVec.toNat_append, ← Nat.shiftLeft_add_eq_or_of_lt hc]; rfl
  rw [BitVec.toNat_append, h1, ← Nat.shiftLeft_add_eq_or_of_lt hv, BitVec.toNat_ofNat, Nat.mod_eq_of_lt (by omega),
    Nat.shiftLeft_eq]
  omega

/-! The words of the seven events. -/

theorem response_ok : response none 0 = 0x0000#16 := rfl

theorem response_initializationFailure (b : Backend) : response (some (.initializationFailure b)) 0 = 0x8100#16 := by
  rw [response_some]
  simp [Diag.code]

theorem response_boundsViolation (i v : Byte) :
    response (some (.boundsViolation i)) v = BitVec.ofNat 16 (0x8300 + v.toNat) := by
  rw [response_some]
  simp [Diag.code]

theorem response_transportFailure (f : Word16) : response (some (.transportFailure f)) 0 = 0x8400#16 := by
  rw [response_some]
  simp [Diag.code]

theorem response_transportLength (n : Nat) : response (some (.transportLength n)) 0 = 0x8400#16 := by
  rw [response_some]
  simp [Diag.code]

theorem response_bufferFull (g : Byte) : response (some (.bufferFull g)) 0 = 0x8500#16 := by
  rw [response_some]
  simp [Diag.code]

theorem response_illegalCommand (w : Word24) : response (some (.illegalCommand w)) 0 = 0x8600#16 := by
  rw [response_some]
  simp [Diag.code]

theorem response_badState (op : Option Byte) : response (some (.badState op)) 0 = 0x8700#16 := by
  rw [response_some]
  simp [Diag.code]

/-- `err` is set exactly when an event was raised. -/
theorem response_err (event : Option Diag) (v : Byte) : (response event v).getLsbD 15 = event.isSome := by
  cases event <;> unfold response <;> simp only [BitVec.getLsbD_append] <;> rfl

/-- `code` is the event's, and 0 without one. -/
theorem response_code (event : Option Diag) (v : Byte) :
    (response event v).extractLsb' 8 7 = (event.map Diag.code).getD 0 := by
  cases event with
  | none =>
    apply BitVec.eq_of_getLsbD_eq
    intro k hk
    unfold response
    simp only [BitVec.getLsbD_extractLsb', BitVec.getLsbD_append, hk, decide_true, Bool.true_and]
    rw [if_neg (by omega), if_pos (by omega)]
    simp
  | some e =>
    apply BitVec.eq_of_getLsbD_eq
    intro k hk
    unfold response
    simp only [BitVec.getLsbD_extractLsb', BitVec.getLsbD_append, hk, decide_true, Bool.true_and]
    rw [if_neg (by omega), if_pos (by omega)]
    congr 1
    omega

/-! ### Finishing and refusing -/

theorem State.finish_none (s : State) (v : Byte) :
    s.finish none v = { s with hostq := s.hostq.tail, responses := s.responses ++ [response none v] } := rfl

theorem State.finish_some (s : State) (e : Diag) (v : Byte) :
    s.finish (some e) v = { s with
      hostq := s.hostq.tail, diag := s.diag ++ [e], responses := s.responses ++ [response (some e) v] } := rfl

theorem State.refuse_eq (s : State) (e : Diag) :
    s.refuse e = { s with
      hostq := s.hostq.tail, diag := s.diag ++ [e], responses := s.responses ++ [response (some e) 0] } := rfl

/-! ### The check before a command -/

theorem gate_open {s : State} (h : s.sess ≠ .destroyed) (op : Option Byte) (rule : Result) : gate s op rule = rule :=
  if_neg h

theorem gate_closed {s : State} (h : s.sess = .destroyed) (op : Option Byte) (rule : Result) :
    gate s op rule = .next (s.refuse (.badState op)) := if_pos h

/-- A destroyed session refuses every command, a byte-port write of any length included. -/
theorem exec_closed {s : State} (h : s.sess = .destroyed) (i : Instr) :
    exec i s = .next (s.refuse (.badState (opOf i))) := by
  cases i with
  | wtWrite2 b =>
    show execWtWrite2 b s = _
    unfold execWtWrite2
    split
    · exact gate_closed h _ _
    · exact gate_closed h _ _
  | wtInit => exact gate_closed h _ _
  | wtSend reg val => exact gate_closed h _ _
  | wtClose => exact gate_closed h _ _
  | sbReset => exact gate_closed h _ _
  | sbAppend g => exact gate_closed h _ _
  | sbOrlast m => exact gate_closed h _ _
  | sbCommit => exact gate_closed h _ _
  | sbAdvance a k => exact gate_closed h _ _
  | sbRead a k => exact gate_closed h _ _
  | rlStop => exact gate_closed h _ _

/-! ### One equation per command -/

section

variable {s : State} (h : s.sess ≠ .destroyed)

include h

theorem exec_wtInit_uninit (hu : s.sess = .uninit) : exec .wtInit s = .next s.acceptInit :=
  (gate_open h _ _).trans (if_neg (by rw [hu]; decide))

theorem exec_wtInit_again (hu : s.sess ≠ .uninit) : exec .wtInit s = .next (s.refuse (.badState (some 0x01))) :=
  (gate_open h _ _).trans (if_pos (by simpa using hu))

theorem exec_wtSend (reg val : Byte) : exec (.wtSend reg val) s = sendFrame s (reg ++ val) := gate_open h _ _

theorem exec_wtClose : exec .wtClose s =
    if s.wtBusy then .next s
    else if s.rph = .rIdle ∨ s.rph = .rHalted then .next (s.closeSession.finish none 0)
    else .next s := gate_open h _ _

theorem exec_sbReset : exec .sbReset s = .next ((s.setShadow Bank.empty).finish none 0) := gate_open h _ _

theorem exec_sbAppend_full (g : Byte) (hl : s.shadow.length.toNat = Config.capacity) :
    exec (.sbAppend g) s = .next (s.finish (some (.bufferFull g)) 0) := (gate_open h _ _).trans (if_pos hl)

theorem exec_sbAppend_room (g : Byte) (hl : s.shadow.length.toNat < Config.capacity) :
    exec (.sbAppend g) s = .next ((s.setShadow { s.shadow with
      data := s.shadow.data.write s.shadow.length.toNat g, length := s.shadow.length + 1 }).finish none 0) := by
  refine (gate_open h _ _).trans ((if_neg (by omega)).trans ?_)
  rw [Bank.store_inside hl]

theorem exec_sbOrlast_empty (m : Byte) (hl : s.shadow.length = 0) :
    exec (.sbOrlast m) s = .next (s.finish (some (.boundsViolation 0xFF)) 0) := (gate_open h _ _).trans (if_pos hl)

theorem exec_sbOrlast_some (m : Byte) (h0 : s.shadow.length ≠ 0) (hl : s.shadow.length.toNat ≤ Config.capacity) :
    exec (.sbOrlast m) s = .next ((s.setShadow { s.shadow with
      data := s.shadow.data.write (s.shadow.length.toNat - 1)
        (s.shadow.data.read (s.shadow.length.toNat - 1) ||| m) }).finish none 0) := by
  have h128 : s.shadow.length.toNat ≤ 128 := hl
  have hn : (s.shadow.length - 1).toNat = s.shadow.length.toNat - 1 := by bv_omega
  refine (gate_open h _ _).trans ((if_neg h0).trans ?_)
  rw [hn, Bank.store_inside (show s.shadow.length.toNat - 1 < 128 by omega)]

theorem exec_sbCommit : exec .sbCommit s =
    if s.midCycle then .next s else .next (({ s with act := !s.act }.lazyStart).finish none 0) := gate_open h _ _

theorem exec_sbAdvance (a : Bool) (k : Byte) : exec (.sbAdvance a k) s =
    .next (s.finish ((s.queried a).advance k).2 ((s.queried a).advance k).1) := gate_open h _ _

theorem exec_sbRead (a : Bool) (k : Byte) : exec (.sbRead a k) s =
    match (s.queried a).readAt k with
    | none => .fault (.noSuchSlot k.toNat)
    | some (g, event) => .next (s.finish event g) := gate_open h _ _

theorem exec_rlStop : exec .rlStop s = .next (s.requestStop.finish none 0) := gate_open h _ _

theorem exec_wtWrite2_pair (reg val : Byte) : exec (.wtWrite2 [reg, val]) s = sendFrame s (reg ++ val) := gate_open h _ _

theorem exec_wtWrite2_other {b : List Byte} (hb : b.length ≠ 2) :
    exec (.wtWrite2 b) s = .next (s.finish (some (.transportLength b.length)) 0) := by
  show execWtWrite2 b s = _
  unfold execWtWrite2
  split
  · exact absurd rfl hb
  · exact gate_open h _ _

end

/-! ### The banks a command writes -/

/-- A write of the shadow bank changes nothing but the two banks. -/
theorem State.setShadow_frame (s : State) (b : Bank) :
    s.setShadow b = { s with bank0 := (s.setShadow b).bank0, bank1 := (s.setShadow b).bank1 } := by
  unfold State.setShadow State.setBank
  cases s.act <;> rfl

/-- A write of the active bank changes nothing but the two banks. -/
theorem State.setActive_frame (s : State) (b : Bank) :
    s.setActive b = { s with bank0 := (s.setActive b).bank0, bank1 := (s.setActive b).bank1 } := by
  unfold State.setActive State.setBank
  cases s.act <;> rfl

/-! ### Frame acceptance -/

theorem State.acceptFrame_notReady {s : State} (h : s.wst ≠ .ready) (o : Owner) (f : Word16) :
    s.acceptFrame o f = (false, s.raise (.transportFailure f)) := by
  unfold State.acceptFrame
  exact if_pos (by simpa using h)

theorem State.acceptFrame_fails {s : State} (h : s.wst = .ready) (hx : s.nextXfail = true) (o : Owner) (f : Word16) :
    s.acceptFrame o f = (false, s.afterXfail.raise (.transportFailure f)) := by
  unfold State.acceptFrame
  rw [if_neg (by rw [h]; decide), if_pos hx]

theorem State.acceptFrame_starts {s : State} (h : s.wst = .ready) (hx : s.nextXfail = false) (o : Owner) (f : Word16) :
    s.acceptFrame o f = (true, { s.afterXfail with sh := f, fown := o, bitn := 15, fph := .fLoadA }) := by
  unfold State.acceptFrame
  rw [if_neg (by rw [h]; decide), if_neg (by rw [hx]; decide)]

theorem State.wtBusy_iff (s : State) : s.wtBusy = true ↔ s.fph ≠ .fIdle := by simp [State.wtBusy]

theorem State.wtBusy_false_iff (s : State) : s.wtBusy = false ↔ s.fph = .fIdle := by simp [State.wtBusy]

end Sys2Proof.Machine
end

