-- ==== Sys2Proof/Laws/Exec.lean ====
section
/-! SUPPORT. Everything a command can do, said once: the cases of `exec i s = .next t`, each with the condition it holds
under and the state it ends in. A statement about all commands is a case analysis on `exec_next`. -/

namespace Sys2Proof.Machine

/-! ### The acceptance step of `WT.INIT`, and of a host frame -/

theorem State.acceptInit_fails {s : State} (h : s.nextInitOk = false) :
    s.acceptInit = s.afterInitOk.abortInit.finish (some (.initializationFailure s.cfg.backend)) 0 := by
  unfold State.acceptInit
  rw [if_neg (by rw [h]; decide)]

theorem State.startInit_devnode {s : State} (hb : s.cfg.backend = .devnode) :
    s.startInit = { s with wst := .ready, sess := .ready }.finish none 0 := by
  unfold State.startInit
  split
  · rfl
  · rename_i h; rw [hb] at h; cases h

theorem State.startInit_mmio {s : State} (hb : s.cfg.backend = .mmio) :
    s.startInit = { s.accept with iph := .readLoad1 } := by
  unfold State.startInit
  split
  · rename_i h; rw [hb] at h; cases h
  · rfl

theorem State.acceptInit_devnode {s : State} (h : s.nextInitOk = true) (hb : s.cfg.backend = .devnode) :
    s.acceptInit = { s.afterInitOk with wst := .ready, sess := .ready }.finish none 0 := by
  unfold State.acceptInit
  rw [if_pos h, State.startInit_devnode (by rw [State.afterInitOk_cfg]; exact hb)]

theorem State.acceptInit_mmio {s : State} (h : s.nextInitOk = true) (hb : s.cfg.backend = .mmio) :
    s.acceptInit = { s.afterInitOk.accept with iph := .readLoad1 } := by
  unfold State.acceptInit
  rw [if_pos h, State.startInit_mmio (by rw [State.afterInitOk_cfg]; exact hb)]

theorem sendFrame_held {s : State} (h : s.fph ≠ .fIdle) (f : Word16) : sendFrame s f = .next s :=
  if_pos (s.wtBusy_iff.mpr h)

theorem sendFrame_notReady {s : State} (h : s.fph = .fIdle) (hw : s.wst ≠ .ready) (f : Word16) :
    sendFrame s f = .next (s.finish (some (.transportFailure f)) 0) := by
  unfold sendFrame State.startHostFrame
  rw [if_neg (by rw [s.wtBusy_iff]; exact not_not_intro h), State.acceptFrame_notReady hw]
  rfl

theorem sendFrame_fails {s : State} (h : s.fph = .fIdle) (hw : s.wst = .ready) (hx : s.nextXfail = true) (f : Word16) :
    sendFrame s f = .next (s.afterXfail.finish (some (.transportFailure f)) 0) := by
  unfold sendFrame State.startHostFrame
  rw [if_neg (by rw [s.wtBusy_iff]; exact not_not_intro h), State.acceptFrame_fails hw hx]
  rfl

theorem sendFrame_starts {s : State} (h : s.fph = .fIdle) (hw : s.wst = .ready) (hx : s.nextXfail = false)
    (f : Word16) :
    sendFrame s f = .next { s.afterXfail.accept with sh := f, fown := .host, bitn := 15, fph := .fLoadA } := by
  unfold sendFrame State.startHostFrame
  rw [if_neg (by rw [s.wtBusy_iff]; exact not_not_intro h), State.acceptFrame_starts hw hx]
  rfl

/-! ### All cases -/

/-- The frame a command asks for. -/
inductive AsksFrame : Instr → Word16 → Prop
  | wtSend (reg val : Byte) : AsksFrame (.wtSend reg val) (reg ++ val)
  | wtWrite2 (reg val : Byte) : AsksFrame (.wtWrite2 [reg, val]) (reg ++ val)

/-- The next states of a command. -/
inductive ExecTo (s : State) : Instr → State → Prop
  | closed (i : Instr) (h : s.sess = .destroyed) : ExecTo s i (s.refuse (.badState (opOf i)))
  | again (h : s.sess = .ready) : ExecTo s .wtInit (s.refuse (.badState (some 0x01)))
  | initFails (h : s.sess = .uninit) (hd : s.nextInitOk = false) :
      ExecTo s .wtInit (s.afterInitOk.abortInit.finish (some (.initializationFailure s.cfg.backend)) 0)
  | initDevnode (h : s.sess = .uninit) (hd : s.nextInitOk = true) (hb : s.cfg.backend = .devnode) :
      ExecTo s .wtInit ({ s.afterInitOk with wst := .ready, sess := .ready }.finish none 0)
  | initMmio (h : s.sess = .uninit) (hd : s.nextInitOk = true) (hb : s.cfg.backend = .mmio) :
      ExecTo s .wtInit { s.afterInitOk.accept with iph := .readLoad1 }
  | sendHeld (i : Instr) (f : Word16) (ha : AsksFrame i f) (h : s.sess ≠ .destroyed) (hf : s.fph ≠ .fIdle) : ExecTo s i s
  | sendNotReady (i : Instr) (f : Word16) (ha : AsksFrame i f) (h : s.sess ≠ .destroyed) (hf : s.fph = .fIdle)
      (hw : s.wst ≠ .ready) : ExecTo s i (s.finish (some (.transportFailure f)) 0)
  | sendFails (i : Instr) (f : Word16) (ha : AsksFrame i f) (h : s.sess ≠ .destroyed) (hf : s.fph = .fIdle)
      (hw : s.wst = .ready) (hx : s.nextXfail = true) :
      ExecTo s i (s.afterXfail.finish (some (.transportFailure f)) 0)
  | sendStarts (i : Instr) (f : Word16) (ha : AsksFrame i f) (h : s.sess ≠ .destroyed) (hf : s.fph = .fIdle)
      (hw : s.wst = .ready) (hx : s.nextXfail = false) :
      ExecTo s i { s.afterXfail.accept with sh := f, fown := .host, bitn := 15, fph := .fLoadA }
  | badLength (b : List Byte) (h : s.sess ≠ .destroyed) (hb : b.length ≠ 2) :
      ExecTo s (.wtWrite2 b) (s.finish (some (.transportLength b.length)) 0)
  | closeHeld (h : s.sess ≠ .destroyed) (hh : s.fph ≠ .fIdle ∨ (s.rph ≠ .rIdle ∧ s.rph ≠ .rHalted)) :
      ExecTo s .wtClose s
  | close (h : s.sess ≠ .destroyed) (hf : s.fph = .fIdle) (hr : s.rph = .rIdle ∨ s.rph = .rHalted) :
      ExecTo s .wtClose (s.closeSession.finish none 0)
  | reset (h : s.sess ≠ .destroyed) : ExecTo s .sbReset ((s.setShadow Bank.empty).finish none 0)
  | appendFull (g : Byte) (h : s.sess ≠ .destroyed) (hl : s.shadow.length.toNat = Config.capacity) :
      ExecTo s (.sbAppend g) (s.finish (some (.bufferFull g)) 0)
  | append (g : Byte) (h : s.sess ≠ .destroyed) (hl : s.shadow.length.toNat < Config.capacity) :
      ExecTo s (.sbAppend g) ((s.setShadow { s.shadow with
        data := s.shadow.data.write s.shadow.length.toNat g, length := s.shadow.length + 1 }).finish none 0)
  | orlastEmpty (m : Byte) (h : s.sess ≠ .destroyed) (hl : s.shadow.length = 0) :
      ExecTo s (.sbOrlast m) (s.finish (some (.boundsViolation 0xFF)) 0)
  | orlast (m : Byte) (h : s.sess ≠ .destroyed) (h0 : s.shadow.length ≠ 0)
      (hl : s.shadow.length.toNat ≤ Config.capacity) :
      ExecTo s (.sbOrlast m) ((s.setShadow { s.shadow with
        data := s.shadow.data.write (s.shadow.length.toNat - 1)
          (s.shadow.data.read (s.shadow.length.toNat - 1) ||| m) }).finish none 0)
  | commitHeld (h : s.sess ≠ .destroyed) (hm : s.midCycle = true) : ExecTo s .sbCommit s
  | commit (h : s.sess ≠ .destroyed) (hm : s.midCycle = false) :
      ExecTo s .sbCommit (({ s with act := !s.act }.lazyStart).finish none 0)
  | advance (a : Bool) (k : Byte) (h : s.sess ≠ .destroyed) :
      ExecTo s (.sbAdvance a k) (s.finish ((s.queried a).advance k).2 ((s.queried a).advance k).1)
  | read (a : Bool) (k g : Byte) (event : Option Diag) (h : s.sess ≠ .destroyed)
      (hr : (s.queried a).readAt k = some (g, event)) : ExecTo s (.sbRead a k) (s.finish event g)
  | stop (h : s.sess ≠ .destroyed) : ExecTo s .rlStop (s.requestStop.finish none 0)

/-- A frame asked for goes one of four ways. -/
theorem sendFrame_next {s t : State} {i : Instr} {f : Word16} (ha : AsksFrame i f) (hs : s.sess ≠ .destroyed)
    (h : sendFrame s f = .next t) : ExecTo s i t := by
  by_cases hf : s.fph = .fIdle
  · by_cases hw : s.wst = .ready
    · cases hx : s.nextXfail with
      | true =>
        rw [sendFrame_fails hf hw hx] at h
        cases h
        exact .sendFails i f ha hs hf hw hx
      | false =>
        rw [sendFrame_starts hf hw hx] at h
        cases h
        exact .sendStarts i f ha hs hf hw hx
    · rw [sendFrame_notReady hf hw] at h
      cases h
      exact .sendNotReady i f ha hs hf hw
  · rw [sendFrame_held hf] at h
    cases h
    exact .sendHeld i f ha hs hf

/-- Everything a command that answers a next state can have done. -/
theorem exec_next {i : Instr} {s t : State} (h : exec i s = .next t) : ExecTo s i t := by
  by_cases hs : s.sess = .destroyed
  · rw [exec_closed hs i] at h
    cases h
    exact .closed i hs
  cases i with
  | wtInit =>
    by_cases hu : s.sess = .uninit
    · rw [exec_wtInit_uninit hs hu] at h
      cases h
      cases hd : s.nextInitOk with
      | false => rw [State.acceptInit_fails hd]; exact .initFails hu hd
      | true =>
        cases hb : s.cfg.backend with
        | devnode => rw [State.acceptInit_devnode hd hb]; exact .initDevnode hu hd hb
        | mmio => rw [State.acceptInit_mmio hd hb]; exact .initMmio hu hd hb
    · rw [exec_wtInit_again hs hu] at h
      cases h
      refine .again ?_
      cases hh : s.sess
      · exact absurd hh hu
      · rfl
      · exact absurd hh hs
  | wtSend reg val => exact sendFrame_next (.wtSend reg val) hs ((exec_wtSend hs reg val).symm.trans h)
  | wtClose =>
    rw [exec_wtClose hs] at h
    by_cases hf : s.fph = .fIdle
    · rw [if_neg (by rw [s.wtBusy_iff]; exact not_not_intro hf)] at h
      by_cases hr : s.rph = .rIdle ∨ s.rph = .rHalted
      · rw [if_pos hr] at h
        cases h
        exact .close hs hf hr
      · rw [if_neg hr] at h
        cases h
        exact .closeHeld hs (.inr (not_or.mp hr))
    · rw [if_pos (s.wtBusy_iff.mpr hf)] at h
      cases h
      exact .closeHeld hs (.inl hf)
  | sbReset =>
    rw [exec_sbReset hs] at h
    cases h
    exact .reset hs
  | sbAppend g =>
    by_cases hl : s.shadow.length.toNat < Config.capacity
    · rw [exec_sbAppend_room hs g hl] at h
      cases h
      exact .append g hs hl
    · by_cases he : s.shadow.length.toNat = Config.capacity
      · rw [exec_sbAppend_full hs g he] at h
        cases h
        exact .appendFull g hs he
      · have hn : s.shadow.store s.shadow.length.toNat g = none := if_neg hl
        have : exec (.sbAppend g) s = .fault (.noSuchSlot s.shadow.length.toNat) := by
          refine (gate_open hs _ _).trans ((if_neg he).trans ?_)
          rw [hn]
        rw [this] at h
        cases h
  | sbOrlast m =>
    by_cases h0 : s.shadow.length = 0
    · rw [exec_sbOrlast_empty hs m h0] at h
      cases h
      exact .orlastEmpty m hs h0
    · by_cases hl : s.shadow.length.toNat ≤ Config.capacity
      · rw [exec_sbOrlast_some hs m h0 hl] at h
        cases h
        exact .orlast m hs h0 hl
      · have h128 : ¬ s.shadow.length.toNat ≤ 128 := hl
        have hn : ∀ v, s.shadow.store (s.shadow.length - 1).toNat v = none := fun v =>
          if_neg (show ¬ (s.shadow.length - 1).toNat < 128 by bv_omega)
        have : exec (.sbOrlast m) s = .fault (.noSuchSlot (s.shadow.length - 1).toNat) := by
          refine (gate_open hs _ _).trans ((if_neg h0).trans ?_)
          rw [hn]
        rw [this] at h
        cases h
  | sbCommit =>
    rw [exec_sbCommit hs] at h
    cases hm : s.midCycle with
    | true =>
      rw [if_pos hm] at h
      cases h
      exact .commitHeld hs hm
    | false =>
      rw [if_neg (by rw [hm]; decide)] at h
      cases h
      exact .commit hs hm
  | sbAdvance a k =>
    rw [exec_sbAdvance hs] at h
    cases h
    exact .advance a k hs
  | sbRead a k =>
    rw [exec_sbRead hs] at h
    cases hr : (s.queried a).readAt k with
    | none => rw [hr] at h; cases h
    | some r =>
      obtain ⟨g, event⟩ := r
      rw [hr] at h
      cases h
      exact .read a k g event hs hr
  | rlStop =>
    rw [exec_rlStop hs] at h
    cases h
    exact .stop hs
  | wtWrite2 b =>
    by_cases hb : b.length = 2
    · match b, hb with
      | [reg, val], _ => exact sendFrame_next (.wtWrite2 reg val) hs ((exec_wtWrite2_pair hs reg val).symm.trans h)
    · rw [exec_wtWrite2_other hs hb] at h
      cases h
      exact .badLength b hs hb

end Sys2Proof.Machine
end

