-- ==== Sys2Proof/Laws/Compile.lean ====
section
/-! SUPPORT. The laws of the compile of a text: its commands decode to themselves, what the host reads in a response, and
everything one turn of a compile can do. -/

namespace Sys2Proof

theorem decodeRequest_sbAppend (g : Byte) : decodeRequest (encode (.sbAppend g)) = .ok (.sbAppend g) := by
  simp [encode, decodeRequest, decodeCmd, opField_cmdWord, argHigh_eq, argLow_eq, argField_cmdWord, high_append, low_append]

theorem decodeRequest_sbOrlast (m : Byte) : decodeRequest (encode (.sbOrlast m)) = .ok (.sbOrlast m) := by
  simp [encode, decodeRequest, decodeCmd, opField_cmdWord, argHigh_eq, argLow_eq, argField_cmdWord, high_append, low_append]

theorem decodeRequest_sbCommit : decodeRequest (encode .sbCommit) = .ok .sbCommit := by decide

/-- A compile issues nothing but appends, marks and its commit. -/
theorem Compile.command_cases (p : Params) (n : Nat) (c : Compile) :
    (∃ ch, c.current = some ch ∧ ((∃ g, c.command p n = .sbAppend g) ∨ ∃ m, c.command p n = .sbOrlast m)) ∨
    (c.current = none ∧ c.command p n = .sbCommit) := by
  unfold Compile.command
  cases hc : c.current with
  | none => exact .inr ⟨rfl, rfl⟩
  | some ch =>
    refine .inl ⟨ch, rfl, ?_⟩
    dsimp only
    split
    · split
      · exact .inl ⟨_, rfl⟩
      · exact .inr ⟨_, rfl⟩
    · split
      · exact .inr ⟨_, rfl⟩
      · exact .inl ⟨_, rfl⟩

theorem Compile.command_decodes (p : Params) (n : Nat) (c : Compile) :
    decodeRequest (encode (c.command p n)) = .ok (c.command p n) := by
  rcases c.command_cases p n with ⟨_, _, ⟨g, h⟩ | ⟨m, h⟩⟩ | ⟨_, h⟩ <;> rw [h]
  · exact decodeRequest_sbAppend g
  · exact decodeRequest_sbOrlast m
  · exact decodeRequest_sbCommit

@[simp] theorem Compile.rest_done {c : Compile} (h : c.current = none) (n : Nat) (refused : Bool) :
    c.rest n refused = [] := by
  unfold Compile.rest
  rw [h]

@[simp] theorem Compile.rest_some {c : Compile} {ch : Char} (h : c.current = some ch) (n : Nat) (refused : Bool) :
    c.rest n refused = [.compile (c.after n refused ch)] := by
  unfold Compile.rest
  rw [h]

namespace Machine

theorem present_ok {r : Request} {i : Instr} (h : decodeRequest r = .ok i) (s : State) : present s r = exec i s := by
  unfold present
  rw [h]

/-! ### Reading the response -/

/-- The host reads `BufferFull` in a response exactly when it is that event's. -/
theorem saysBufferFull_response (event : Option Diag) (v : Byte) :
    saysBufferFull (response event v) = decide (∃ g, event = some (.bufferFull g)) := by
  unfold saysBufferFull
  rw [response_err, response_code]
  cases event with
  | none => simp
  | some e => cases e <;> simp [Diag.code]

/-- After a command that completed, the newest response is its own. -/
theorem State.finish_bufferFullAnswered (s : State) (event : Option Diag) (v : Byte) :
    (s.finish event v).bufferFullAnswered = decide (∃ g, event = some (.bufferFull g)) := by
  have h : (s.finish event v).responses = s.responses ++ [response event v] := by
    cases event <;> rfl
  unfold State.bufferFullAnswered
  rw [h, List.getLast?_concat]
  exact saysBufferFull_response event v

/-! ### Going on -/

@[simp] theorem State.goOn_hostq (s : State) (l : List HostMove) : (s.goOn l).hostq = l ++ s.hostq := rfl
@[simp] theorem State.goOn_cfg (s : State) (l : List HostMove) : (s.goOn l).cfg = s.cfg := rfl
@[simp] theorem State.goOn_bank0 (s : State) (l : List HostMove) : (s.goOn l).bank0 = s.bank0 := rfl
@[simp] theorem State.goOn_bank1 (s : State) (l : List HostMove) : (s.goOn l).bank1 = s.bank1 := rfl
@[simp] theorem State.goOn_act (s : State) (l : List HostMove) : (s.goOn l).act = s.act := rfl
@[simp] theorem State.goOn_rph (s : State) (l : List HostMove) : (s.goOn l).rph = s.rph := rfl
@[simp] theorem State.goOn_pos (s : State) (l : List HostMove) : (s.goOn l).pos = s.pos := rfl
@[simp] theorem State.goOn_idx (s : State) (l : List HostMove) : (s.goOn l).idx = s.idx := rfl
@[simp] theorem State.goOn_stopReq (s : State) (l : List HostMove) : (s.goOn l).stopReq = s.stopReq := rfl
@[simp] theorem State.goOn_wst (s : State) (l : List HostMove) : (s.goOn l).wst = s.wst := rfl
@[simp] theorem State.goOn_sh (s : State) (l : List HostMove) : (s.goOn l).sh = s.sh := rfl
@[simp] theorem State.goOn_bitn (s : State) (l : List HostMove) : (s.goOn l).bitn = s.bitn := rfl
@[simp] theorem State.goOn_fph (s : State) (l : List HostMove) : (s.goOn l).fph = s.fph := rfl
@[simp] theorem State.goOn_fown (s : State) (l : List HostMove) : (s.goOn l).fown = s.fown := rfl
@[simp] theorem State.goOn_iph (s : State) (l : List HostMove) : (s.goOn l).iph = s.iph := rfl
@[simp] theorem State.goOn_ftmp (s : State) (l : List HostMove) : (s.goOn l).ftmp = s.ftmp := rfl
@[simp] theorem State.goOn_sess (s : State) (l : List HostMove) : (s.goOn l).sess = s.sess := rfl
@[simp] theorem State.goOn_lines (s : State) (l : List HostMove) : (s.goOn l).lines = s.lines := rfl
@[simp] theorem State.goOn_fsel (s : State) (l : List HostMove) : (s.goOn l).fsel = s.fsel := rfl
@[simp] theorem State.goOn_out (s : State) (l : List HostMove) : (s.goOn l).out = s.out := rfl
@[simp] theorem State.goOn_trace (s : State) (l : List HostMove) : (s.goOn l).trace = s.trace := rfl
@[simp] theorem State.goOn_frames (s : State) (l : List HostMove) : (s.goOn l).frames = s.frames := rfl
@[simp] theorem State.goOn_diag (s : State) (l : List HostMove) : (s.goOn l).diag = s.diag := rfl
@[simp] theorem State.goOn_responses (s : State) (l : List HostMove) : (s.goOn l).responses = s.responses := rfl
@[simp] theorem State.goOn_bus (s : State) (l : List HostMove) : (s.goOn l).bus = s.bus := rfl
@[simp] theorem State.goOn_sched (s : State) (l : List HostMove) : (s.goOn l).sched = s.sched := rfl
@[simp] theorem State.goOn_initOkIn (s : State) (l : List HostMove) : (s.goOn l).initOkIn = s.initOkIn := rfl
@[simp] theorem State.goOn_xfailIn (s : State) (l : List HostMove) : (s.goOn l).xfailIn = s.xfailIn := rfl
@[simp] theorem State.goOn_draws (s : State) (l : List HostMove) : (s.goOn l).draws = s.draws := rfl
@[simp] theorem State.goOn_active (s : State) (l : List HostMove) : (s.goOn l).active = s.active := rfl
@[simp] theorem State.goOn_shadow (s : State) (l : List HostMove) : (s.goOn l).shadow = s.shadow := rfl
@[simp] theorem State.goOn_hostWaiting (s : State) (l : List HostMove) : (s.goOn l).hostWaiting = s.hostWaiting := rfl
@[simp] theorem State.goOn_nil (s : State) : s.goOn [] = s := rfl

/-- Going on changes nothing but what the host does next. -/
theorem State.goOn_frame (s : State) (l : List HostMove) : s.goOn l = { s with hostq := l ++ s.hostq } := rfl

/-- Reporting a character appends the event and takes the move in hand away. -/
theorem reportFailure_eq (s : State) (ch : Char) :
    reportFailure s ch = { s with hostq := s.hostq.tail, diag := s.diag ++ [.encodingFailure ch] } := rfl

/-! ### One turn of a compile -/

theorem compileTurn_reports {s : State} {c : Compile} {ch : Char} (h : c.unreported s.cfg.toParams = some ch) :
    compileTurn s c = .next ((reportFailure s ch).goOn [.compile { c with reported := true }]) := by
  unfold compileTurn
  rw [h]

theorem compileTurn_issues {s : State} {c : Compile} (h : c.unreported s.cfg.toParams = none) :
    compileTurn s c = mapNext (fun t => t.goOn (c.rest s.shadow.length.toNat t.bufferFullAnswered))
      (exec (c.command s.cfg.toParams s.shadow.length.toNat) s) := by
  unfold compileTurn
  rw [h, present_ok (Compile.command_decodes _ _ _)]

/-- The next states of a compile's turn. -/
inductive CompileTo (s : State) (c : Compile) : State → Prop
  | reports (ch : Char) (h : c.unreported s.cfg.toParams = some ch) :
      CompileTo s c ((reportFailure s ch).goOn [.compile { c with reported := true }])
  | issues (h : c.unreported s.cfg.toParams = none) (t : State)
      (ht : ExecTo s (c.command s.cfg.toParams s.shadow.length.toNat) t) :
      CompileTo s c (t.goOn (c.rest s.shadow.length.toNat t.bufferFullAnswered))

theorem compileTurn_next {s t : State} {c : Compile} (h : compileTurn s c = .next t) : CompileTo s c t := by
  cases hu : c.unreported s.cfg.toParams with
  | some ch =>
    rw [compileTurn_reports hu] at h
    cases h
    exact .reports ch hu
  | none =>
    rw [compileTurn_issues hu] at h
    cases he : exec (c.command s.cfg.toParams s.shadow.length.toNat) s with
    | next u =>
      rw [he] at h
      cases h
      exact .issues hu u (exec_next he)
    | fault r => rw [he] at h; cases h
    | refused r => rw [he] at h; cases h

end Machine

end Sys2Proof
end

