-- ==== Sys2Proof/Laws/Engine.lean ====
section
/-! SUPPORT. Everything the host's turn and the engines' turns can do, said once, in the manner of `exec_next`; and the
equations of the single steps, for statements that follow a run. -/

namespace Sys2Proof.Machine

/-! ### The step -/

/-- A step is the turn of whoever moves, taken in the state whose schedule has moved on. -/
theorem step_eq (s : State) : step s = takeTurn s.nextTurn s.afterTurn := rfl

theorem State.nextTurn_cons {s : State} {t : Turn} {ts : List Turn} (h : s.sched = t :: ts) : s.nextTurn = t := by
  unfold State.nextTurn
  rw [h]

theorem State.afterTurn_cons {s : State} {t : Turn} {ts : List Turn} (h : s.sched = t :: ts) :
    s.afterTurn = { s with sched := ts } := by
  unfold State.afterTurn
  rw [h]

/-! ### The host's turn -/

theorem hostTurn_waiting {s : State} (h : s.hostWaiting = true) : hostTurn s = .next s := if_pos h

theorem hostTurn_nothing {s : State} (hq : s.hostq = []) : hostTurn s = .next s := by
  unfold hostTurn
  rw [hq]
  split <;> rfl

theorem hostTurn_present {s : State} (h : s.hostWaiting = false) {r : Request} {ms : List HostMove}
    (hq : s.hostq = .present r :: ms) : hostTurn s = present s r := by
  unfold hostTurn
  rw [if_neg (by rw [h]; decide), hq]

theorem hostTurn_report {s : State} (h : s.hostWaiting = false) {ch : Char} {ms : List HostMove}
    (hq : s.hostq = .report ch :: ms) : hostTurn s = .next (reportFailure s ch) := by
  unfold hostTurn
  rw [if_neg (by rw [h]; decide), hq]

theorem hostTurn_compile {s : State} (h : s.hostWaiting = false) {c : Compile} {ms : List HostMove}
    (hq : s.hostq = .compile c :: ms) : hostTurn s = compileTurn s c := by
  unfold hostTurn
  rw [if_neg (by rw [h]; decide), hq]

theorem hostTurn_stopIfFailed {s : State} (h : s.hostWaiting = false) {n : Nat} {ms : List HostMove}
    (hq : s.hostq = .stopIfFailed n :: ms) : hostTurn s = .next (decideTurn s n) := by
  unfold hostTurn
  rw [if_neg (by rw [h]; decide), hq]

/-- A decision of the host changes nothing but its moves. -/
theorem decideTurn_frame (s : State) (n : Nat) : decideTurn s n = { s with hostq := (decideTurn s n).hostq } := rfl

theorem decideTurn_failed {s : State} (h : s.errorAnswered = true) (n : Nat) :
    decideTurn s n = { s with hostq := s.hostq.tail.drop n } := by
  unfold decideTurn
  rw [if_pos h]
  rfl

theorem decideTurn_ok {s : State} (h : s.errorAnswered = false) (n : Nat) :
    decideTurn s n = { s with hostq := s.hostq.tail } := by
  unfold decideTurn
  rw [if_neg (by rw [h]; decide)]
  rfl

/-- After a response the host reads an error in it exactly when it is an event's. -/
theorem State.errorAnswered_response {s : State} {rs : List Word16} {event : Option Diag} {v : Byte}
    (h : s.responses = rs ++ [response event v]) : s.errorAnswered = event.isSome := by
  unfold State.errorAnswered
  rw [h, List.getLast?_concat]
  exact response_err event v

theorem present_error {r : Request} {e : DecodeError} (h : decodeRequest r = .error e) (s : State) :
    present s r = refuseRequest s e := by
  unfold present
  rw [h]

/-- What a rejected request records. -/
def rejected (s : State) : DecodeError → Diag
  | .illegalCommand w => .illegalCommand w
  | .badLength n => if s.sess = .destroyed then .badState none else .transportLength n

/-- A rejected request is refused, whatever the state. -/
theorem refuseRequest_eq (s : State) (e : DecodeError) : refuseRequest s e = .next (s.refuse (rejected s e)) := by
  cases e with
  | illegalCommand w => rfl
  | badLength n =>
    by_cases h : s.sess = .destroyed
    · have : rejected s (.badLength n) = .badState none := if_pos h
      rw [this]
      exact gate_closed h _ _
    · have : rejected s (.badLength n) = .transportLength n := if_neg h
      rw [this]
      exact gate_open h _ _

/-- The next states of the host's turn. -/
inductive HostTo (s : State) : State → Prop
  | stays (h : s.hostWaiting = true ∨ s.hostq = []) : HostTo s s
  | reports (h : s.hostWaiting = false) (ch : Char) (ms : List HostMove) (hq : s.hostq = .report ch :: ms) :
      HostTo s (reportFailure s ch)
  | rejects (h : s.hostWaiting = false) (r : Request) (ms : List HostMove) (hq : s.hostq = .present r :: ms)
      (e : DecodeError) (he : decodeRequest r = .error e) : HostTo s (s.refuse (rejected s e))
  | runs (h : s.hostWaiting = false) (r : Request) (ms : List HostMove) (hq : s.hostq = .present r :: ms)
      (i : Instr) (hi : decodeRequest r = .ok i) (t : State) (ht : ExecTo s i t) : HostTo s t
  | compiles (h : s.hostWaiting = false) (c : Compile) (ms : List HostMove) (hq : s.hostq = .compile c :: ms)
      (t : State) (ht : CompileTo s c t) : HostTo s t
  | decides (h : s.hostWaiting = false) (n : Nat) (ms : List HostMove) (hq : s.hostq = .stopIfFailed n :: ms) :
      HostTo s (decideTurn s n)

theorem hostTurn_next {s t : State} (h : hostTurn s = .next t) : HostTo s t := by
  cases hw : s.hostWaiting with
  | true =>
    rw [hostTurn_waiting hw] at h
    cases h
    exact .stays (.inl hw)
  | false =>
    cases hq : s.hostq with
    | nil =>
      rw [hostTurn_nothing hq] at h
      cases h
      exact .stays (.inr hq)
    | cons m ms =>
      cases m with
      | report ch =>
        rw [hostTurn_report hw hq] at h
        cases h
        exact .reports hw ch ms hq
      | compile c =>
        rw [hostTurn_compile hw hq] at h
        exact .compiles hw c ms hq t (compileTurn_next h)
      | stopIfFailed n =>
        rw [hostTurn_stopIfFailed hw hq] at h
        cases h
        exact .decides hw n ms hq
      | present r =>
        rw [hostTurn_present hw hq] at h
        cases hd : decodeRequest r with
        | ok i =>
          rw [present_ok hd] at h
          exact .runs hw r ms hq i hd t (exec_next h)
        | error e =>
          rw [present_error hd, refuseRequest_eq] at h
          cases h
          exact .rejects hw r ms hq e hd

/-! ### The sequencer's turn -/

theorem State.raiseOpt_nextXfail (s : State) (e : Option Diag) : (s.raiseOpt e).nextXfail = s.nextXfail := by
  cases e <;> rfl

/-- The register of a position is `DIGIT_REG[7 - pos]`, as the statements write it. -/
theorem digitRegister_eq (p : Params) (pos : BitVec 3) : digitRegister p pos = positionReg p pos.toNat := by
  have hget : ∀ n : Fin 8, p.digitReg[n] = p.digitReg.toList.getD n 0 := fun n => by simp
  unfold digitRegister positionReg
  rw [hget]
  congr 1
  show (7 - pos).toNat = _
  bv_omega

theorem rlOffer_notReady {s : State} (h : s.wst ≠ .ready) (g : Byte) :
    rlOffer s g =
      { s.raise (.transportFailure (frameWord (digitRegister s.cfg.toParams s.pos) g)) with rph := .rNext } := by
  unfold rlOffer
  rw [State.acceptFrame_notReady h]
  rfl

theorem rlOffer_fails {s : State} (h : s.wst = .ready) (hx : s.nextXfail = true) (g : Byte) :
    rlOffer s g =
      { s.afterXfail.raise (.transportFailure (frameWord (digitRegister s.cfg.toParams s.pos) g)) with rph := .rNext } := by
  unfold rlOffer
  rw [State.acceptFrame_fails h hx]
  rfl

theorem rlOffer_starts {s : State} (h : s.wst = .ready) (hx : s.nextXfail = false) (g : Byte) :
    rlOffer s g = { s.afterXfail with
      sh := frameWord (digitRegister s.cfg.toParams s.pos) g, fown := .rl, bitn := 15, fph := .fLoadA, rph := .rWait } := by
  unfold rlOffer
  rw [State.acceptFrame_starts h hx]
  rfl

theorem rlIssue_held {s : State} (h : s.fph ≠ .fIdle) : rlIssue s = .next s := if_pos (s.wtBusy_iff.mpr h)

theorem rlIssue_reads {s : State} (h : s.fph = .fIdle) {g : Byte} {event : Option Diag}
    (hr : s.active.readAt s.idx = some (g, event)) : rlIssue s = .next (rlOffer (s.raiseOpt event) g) := by
  unfold rlIssue
  rw [if_neg (by rw [s.wtBusy_iff]; exact not_not_intro h), hr]

/-- The next states of the sequencer's turn. -/
inductive RlTo (s : State) : State → Prop
  | stays (h : s.rph = .rIdle ∨ s.rph = .rWait ∨ s.rph = .rHalted) : RlTo s s
  | begins (h : s.rph = .rBegin) : RlTo s (rlBegin s)
  | held (h : s.rph = .rIssue) (hf : s.fph ≠ .fIdle) : RlTo s s
  | offers (h : s.rph = .rIssue) (hf : s.fph = .fIdle) (g : Byte) (event : Option Diag)
      (hr : s.active.readAt s.idx = some (g, event)) : RlTo s (rlOffer (s.raiseOpt event) g)
  | moves (h : s.rph = .rNext) : RlTo s (rlNext s)
  | ends (h : s.rph = .rEnd) : RlTo s (rlEnd s)
  | sleeps (h : s.rph = .rSleep) (hs : s.stopReq = false) : RlTo s s
  | halts (h : s.rph = .rSleep) (hs : s.stopReq = true) : RlTo s { s with rph := .rHalted }

theorem rlStep_next {s t : State} (h : rlStep s = .next t) : RlTo s t := by
  unfold rlStep at h
  cases hr : s.rph <;> rw [hr] at h
  · cases h
    exact .stays (.inl hr)
  · cases h
    exact .begins hr
  · by_cases hf : s.fph = .fIdle
    · cases hg : s.active.readAt s.idx with
      | none =>
        have : rlIssue s = .fault (.noSuchSlot s.idx.toNat) := by
          unfold rlIssue
          rw [if_neg (by rw [s.wtBusy_iff]; exact not_not_intro hf), hg]
        simp only [this] at h
        cases h
      | some r =>
        obtain ⟨g, event⟩ := r
        simp only [rlIssue_reads hf hg] at h
        cases h
        exact .offers hr hf g event hg
    · simp only [rlIssue_held hf] at h
      cases h
      exact .held hr hf
  · cases h
    exact .stays (.inr (.inl hr))
  · cases h
    exact .moves hr
  · cases h
    exact .ends hr
  · cases hs : s.stopReq with
    | true =>
      have : rlSleep s = { s with rph := .rHalted } := if_pos hs
      simp only [this] at h
      cases h
      exact .halts hr hs
    | false =>
      have : rlSleep s = s := if_neg (by rw [hs]; decide)
      simp only [this] at h
      cases h
      exact .sleeps hr hs
  · cases h
    exact .stays (.inr (.inr hr))

theorem rlStep_begin {s : State} (h : s.rph = .rBegin) : rlStep s = .next (rlBegin s) := by
  unfold rlStep
  rw [h]

theorem rlStep_issue {s : State} (h : s.rph = .rIssue) : rlStep s = rlIssue s := by
  unfold rlStep
  rw [h]

theorem rlStep_wait {s : State} (h : s.rph = .rWait) : rlStep s = .next s := by
  unfold rlStep
  rw [h]

theorem rlStep_next_eq {s : State} (h : s.rph = .rNext) : rlStep s = .next (rlNext s) := by
  unfold rlStep
  rw [h]

theorem rlStep_end {s : State} (h : s.rph = .rEnd) : rlStep s = .next (rlEnd s) := by
  unfold rlStep
  rw [h]

theorem rlStep_sleep {s : State} (h : s.rph = .rSleep) : rlStep s = .next (rlSleep s) := by
  unfold rlStep
  rw [h]

theorem rlStep_idle {s : State} (h : s.rph = .rIdle) : rlStep s = .next s := by
  unfold rlStep
  rw [h]

theorem rlStep_halted {s : State} (h : s.rph = .rHalted) : rlStep s = .next s := by
  unfold rlStep
  rw [h]

/-! ### The sleep timer -/

theorem timerWake_wakes {s : State} (h : s.rph = .rSleep) (hs : s.stopReq = false) :
    timerWake s = { s with rph := .rBegin } := if_pos ⟨h, hs⟩

theorem timerWake_ignored {s : State} (h : s.rph ≠ .rSleep ∨ s.stopReq = true) : timerWake s = s := by
  refine if_neg ?_
  rintro ⟨h1, h2⟩
  rcases h with h | h
  · exact h h1
  · rw [h] at h2; cases h2

/-! ### The wire engine's turn -/

theorem wtStep_busy {s : State} (h : s.fph ≠ .fIdle) : wtStep s = frameStep s := if_pos (s.wtBusy_iff.mpr h)

theorem wtStep_free {s : State} (h : s.fph = .fIdle) : wtStep s = initStep s :=
  if_neg (by rw [s.wtBusy_iff]; exact not_not_intro h)

/-- The next states of a frame step: one row of the table each. -/
theorem frameStep_loadA {s : State} (h : s.fph = .fLoadA) :
    frameStep s = { s.loadEvent true with fph := .fClkLo } := by
  unfold frameStep
  rw [h]

theorem frameStep_clkLo {s : State} (h : s.fph = .fClkLo) :
    frameStep s = { s.pinEvent .clk false with fph := .fDin } := by
  unfold frameStep
  rw [h]

theorem frameStep_din {s : State} (h : s.fph = .fDin) :
    frameStep s = { s.pinEvent .din (s.sh.getLsbD s.bitn.toNat) with fph := .fDly1 } := by
  unfold frameStep
  rw [h]

theorem frameStep_dly1 {s : State} (h : s.fph = .fDly1) : frameStep s = { s.delayEvent with fph := .fClkHi } := by
  unfold frameStep
  rw [h]

theorem frameStep_clkHi {s : State} (h : s.fph = .fClkHi) :
    frameStep s = { s.pinEvent .clk true with fph := .fDly2 } := by
  unfold frameStep
  rw [h]

theorem frameStep_dly2_last {s : State} (h : s.fph = .fDly2) (hb : s.bitn = 0) :
    frameStep s = { s.delayEvent with fph := .fLoadD } := by
  unfold frameStep
  rw [h]
  exact if_pos hb

theorem frameStep_dly2 {s : State} (h : s.fph = .fDly2) (hb : s.bitn ≠ 0) :
    frameStep s = { s.delayEvent with bitn := s.bitn - 1, fph := .fClkLo } := by
  unfold frameStep
  rw [h]
  exact if_neg hb

theorem frameStep_loadD {s : State} (h : s.fph = .fLoadD) :
    frameStep s = { s.loadEvent false with fph := .fLoadR } := by
  unfold frameStep
  rw [h]

theorem frameStep_loadR {s : State} (h : s.fph = .fLoadR) : frameStep s = (s.loadEvent true).completeFrame := by
  unfold frameStep
  rw [h]

theorem completeFrame_host {s : State} (h : s.fown = .host) :
    s.completeFrame = { s with
      frames := s.frames ++ [(frameReg s.sh, frameVal s.sh)], fph := .fIdle,
      responses := s.responses ++ [response none 0] } := by
  unfold State.completeFrame State.wakeOwner
  simp only [h]
  rfl

theorem completeFrame_rl {s : State} (h : s.fown = .rl) :
    s.completeFrame = { s with
      frames := s.frames ++ [(frameReg s.sh, frameVal s.sh)], fph := .fIdle, rph := .rNext } := by
  unfold State.completeFrame State.wakeOwner
  simp only [h]

theorem initStep_none {s : State} (h : s.iph = .none0) : initStep s = s := by
  unfold initStep
  rw [h]

theorem initStep_readLoad {s : State} (h : s.iph = .readLoad1) :
    initStep s = { dirRead s s.cfg.loadPin with iph := .writeLoad2 } := by
  unfold initStep
  rw [h]

theorem initStep_writeLoad {s : State} (h : s.iph = .writeLoad2) :
    initStep s = { dirWrite s s.cfg.loadPin with iph := .readClk3 } := by
  unfold initStep
  rw [h]

theorem initStep_readClk {s : State} (h : s.iph = .readClk3) :
    initStep s = { dirRead s s.cfg.clkPin with iph := .writeClk4 } := by
  unfold initStep
  rw [h]

theorem initStep_writeClk {s : State} (h : s.iph = .writeClk4) :
    initStep s = { dirWrite s s.cfg.clkPin with iph := .readDin5 } := by
  unfold initStep
  rw [h]

theorem initStep_readDin {s : State} (h : s.iph = .readDin5) :
    initStep s = { dirRead s s.cfg.dinPin with iph := .writeDin6 } := by
  unfold initStep
  rw [h]

theorem initStep_writeDin {s : State} (h : s.iph = .writeDin6) :
    initStep s = initDone (dirWrite s s.cfg.dinPin) := by
  unfold initStep
  rw [h]

/-! ### What a wire step leaves alone -/

@[simp] theorem State.nextBit_cfg (s : State) : s.nextBit.cfg = s.cfg := by
  unfold State.nextBit
  by_cases h : s.bitn = 0
  · rw [if_pos h]
  · rw [if_neg h]

@[simp] theorem State.completeFrame_cfg (s : State) : s.completeFrame.cfg = s.cfg := by
  unfold State.completeFrame State.wakeOwner
  cases s.fown <;> rfl

@[simp] theorem State.nextBit_bank0 (s : State) : s.nextBit.bank0 = s.bank0 := by
  unfold State.nextBit
  by_cases h : s.bitn = 0
  · rw [if_pos h]
  · rw [if_neg h]

@[simp] theorem State.completeFrame_bank0 (s : State) : s.completeFrame.bank0 = s.bank0 := by
  unfold State.completeFrame State.wakeOwner
  cases s.fown <;> rfl

@[simp] theorem State.nextBit_bank1 (s : State) : s.nextBit.bank1 = s.bank1 := by
  unfold State.nextBit
  by_cases h : s.bitn = 0
  · rw [if_pos h]
  · rw [if_neg h]

@[simp] theorem State.completeFrame_bank1 (s : State) : s.completeFrame.bank1 = s.bank1 := by
  unfold State.completeFrame State.wakeOwner
  cases s.fown <;> rfl

@[simp] theorem State.nextBit_act (s : State) : s.nextBit.act = s.act := by
  unfold State.nextBit
  by_cases h : s.bitn = 0
  · rw [if_pos h]
  · rw [if_neg h]

@[simp] theorem State.completeFrame_act (s : State) : s.completeFrame.act = s.act := by
  unfold State.completeFrame State.wakeOwner
  cases s.fown <;> rfl

@[simp] theorem State.nextBit_pos (s : State) : s.nextBit.pos = s.pos := by
  unfold State.nextBit
  by_cases h : s.bitn = 0
  · rw [if_pos h]
  · rw [if_neg h]

@[simp] theorem State.completeFrame_pos (s : State) : s.completeFrame.pos = s.pos := by
  unfold State.completeFrame State.wakeOwner
  cases s.fown <;> rfl

@[simp] theorem State.nextBit_idx (s : State) : s.nextBit.idx = s.idx := by
  unfold State.nextBit
  by_cases h : s.bitn = 0
  · rw [if_pos h]
  · rw [if_neg h]

@[simp] theorem State.completeFrame_idx (s : State) : s.completeFrame.idx = s.idx := by
  unfold State.completeFrame State.wakeOwner
  cases s.fown <;> rfl

@[simp] theorem State.nextBit_stopReq (s : State) : s.nextBit.stopReq = s.stopReq := by
  unfold State.nextBit
  by_cases h : s.bitn = 0
  · rw [if_pos h]
  · rw [if_neg h]

@[simp] theorem State.completeFrame_stopReq (s : State) : s.completeFrame.stopReq = s.stopReq := by
  unfold State.completeFrame State.wakeOwner
  cases s.fown <;> rfl

@[simp] theorem State.nextBit_hostq (s : State) : s.nextBit.hostq = s.hostq := by
  unfold State.nextBit
  by_cases h : s.bitn = 0
  · rw [if_pos h]
  · rw [if_neg h]

@[simp] theorem State.completeFrame_hostq (s : State) : s.completeFrame.hostq = s.hostq := by
  unfold State.completeFrame State.wakeOwner
  cases s.fown <;> rfl

@[simp] theorem State.nextBit_sched (s : State) : s.nextBit.sched = s.sched := by
  unfold State.nextBit
  by_cases h : s.bitn = 0
  · rw [if_pos h]
  · rw [if_neg h]

@[simp] theorem State.completeFrame_sched (s : State) : s.completeFrame.sched = s.sched := by
  unfold State.completeFrame State.wakeOwner
  cases s.fown <;> rfl

@[simp] theorem State.nextBit_initOkIn (s : State) : s.nextBit.initOkIn = s.initOkIn := by
  unfold State.nextBit
  by_cases h : s.bitn = 0
  · rw [if_pos h]
  · rw [if_neg h]

@[simp] theorem State.completeFrame_initOkIn (s : State) : s.completeFrame.initOkIn = s.initOkIn := by
  unfold State.completeFrame State.wakeOwner
  cases s.fown <;> rfl

@[simp] theorem State.nextBit_xfailIn (s : State) : s.nextBit.xfailIn = s.xfailIn := by
  unfold State.nextBit
  by_cases h : s.bitn = 0
  · rw [if_pos h]
  · rw [if_neg h]

@[simp] theorem State.completeFrame_xfailIn (s : State) : s.completeFrame.xfailIn = s.xfailIn := by
  unfold State.completeFrame State.wakeOwner
  cases s.fown <;> rfl

@[simp] theorem State.nextBit_draws (s : State) : s.nextBit.draws = s.draws := by
  unfold State.nextBit
  by_cases h : s.bitn = 0
  · rw [if_pos h]
  · rw [if_neg h]

@[simp] theorem State.completeFrame_draws (s : State) : s.completeFrame.draws = s.draws := by
  unfold State.completeFrame State.wakeOwner
  cases s.fown <;> rfl

@[simp] theorem State.nextBit_diag (s : State) : s.nextBit.diag = s.diag := by
  unfold State.nextBit
  by_cases h : s.bitn = 0
  · rw [if_pos h]
  · rw [if_neg h]

@[simp] theorem State.completeFrame_diag (s : State) : s.completeFrame.diag = s.diag := by
  unfold State.completeFrame State.wakeOwner
  cases s.fown <;> rfl

@[simp] theorem frameStep_cfg (s : State) : (frameStep s).cfg = s.cfg := by
  unfold frameStep
  split <;> simp

@[simp] theorem initStep_cfg (s : State) : (initStep s).cfg = s.cfg := by
  unfold initStep
  split <;> simp [dirRead, dirWrite, initDone]

@[simp] theorem wtStep_cfg (s : State) : (wtStep s).cfg = s.cfg := by
  unfold wtStep
  split <;> simp

@[simp] theorem frameStep_bank0 (s : State) : (frameStep s).bank0 = s.bank0 := by
  unfold frameStep
  split <;> simp

@[simp] theorem initStep_bank0 (s : State) : (initStep s).bank0 = s.bank0 := by
  unfold initStep
  split <;> simp [dirRead, dirWrite, initDone]

@[simp] theorem wtStep_bank0 (s : State) : (wtStep s).bank0 = s.bank0 := by
  unfold wtStep
  split <;> simp

@[simp] theorem frameStep_bank1 (s : State) : (frameStep s).bank1 = s.bank1 := by
  unfold frameStep
  split <;> simp

@[simp] theorem initStep_bank1 (s : State) : (initStep s).bank1 = s.bank1 := by
  unfold initStep
  split <;> simp [dirRead, dirWrite, initDone]

@[simp] theorem wtStep_bank1 (s : State) : (wtStep s).bank1 = s.bank1 := by
  unfold wtStep
  split <;> simp

@[simp] theorem frameStep_act (s : State) : (frameStep s).act = s.act := by
  unfold frameStep
  split <;> simp

@[simp] theorem initStep_act (s : State) : (initStep s).act = s.act := by
  unfold initStep
  split <;> simp [dirRead, dirWrite, initDone]

@[simp] theorem wtStep_act (s : State) : (wtStep s).act = s.act := by
  unfold wtStep
  split <;> simp

@[simp] theorem frameStep_pos (s : State) : (frameStep s).pos = s.pos := by
  unfold frameStep
  split <;> simp

@[simp] theorem initStep_pos (s : State) : (initStep s).pos = s.pos := by
  unfold initStep
  split <;> simp [dirRead, dirWrite, initDone]

@[simp] theorem wtStep_pos (s : State) : (wtStep s).pos = s.pos := by
  unfold wtStep
  split <;> simp

@[simp] theorem frameStep_idx (s : State) : (frameStep s).idx = s.idx := by
  unfold frameStep
  split <;> simp

@[simp] theorem initStep_idx (s : State) : (initStep s).idx = s.idx := by
  unfold initStep
  split <;> simp [dirRead, dirWrite, initDone]

@[simp] theorem wtStep_idx (s : State) : (wtStep s).idx = s.idx := by
  unfold wtStep
  split <;> simp

@[simp] theorem frameStep_stopReq (s : State) : (frameStep s).stopReq = s.stopReq := by
  unfold frameStep
  split <;> simp

@[simp] theorem initStep_stopReq (s : State) : (initStep s).stopReq = s.stopReq := by
  unfold initStep
  split <;> simp [dirRead, dirWrite, initDone]

@[simp] theorem wtStep_stopReq (s : State) : (wtStep s).stopReq = s.stopReq := by
  unfold wtStep
  split <;> simp

@[simp] theorem frameStep_hostq (s : State) : (frameStep s).hostq = s.hostq := by
  unfold frameStep
  split <;> simp

@[simp] theorem initStep_hostq (s : State) : (initStep s).hostq = s.hostq := by
  unfold initStep
  split <;> simp [dirRead, dirWrite, initDone]

@[simp] theorem wtStep_hostq (s : State) : (wtStep s).hostq = s.hostq := by
  unfold wtStep
  split <;> simp

@[simp] theorem frameStep_sched (s : State) : (frameStep s).sched = s.sched := by
  unfold frameStep
  split <;> simp

@[simp] theorem initStep_sched (s : State) : (initStep s).sched = s.sched := by
  unfold initStep
  split <;> simp [dirRead, dirWrite, initDone]

@[simp] theorem wtStep_sched (s : State) : (wtStep s).sched = s.sched := by
  unfold wtStep
  split <;> simp

@[simp] theorem frameStep_initOkIn (s : State) : (frameStep s).initOkIn = s.initOkIn := by
  unfold frameStep
  split <;> simp

@[simp] theorem initStep_initOkIn (s : State) : (initStep s).initOkIn = s.initOkIn := by
  unfold initStep
  split <;> simp [dirRead, dirWrite, initDone]

@[simp] theorem wtStep_initOkIn (s : State) : (wtStep s).initOkIn = s.initOkIn := by
  unfold wtStep
  split <;> simp

@[simp] theorem frameStep_xfailIn (s : State) : (frameStep s).xfailIn = s.xfailIn := by
  unfold frameStep
  split <;> simp

@[simp] theorem initStep_xfailIn (s : State) : (initStep s).xfailIn = s.xfailIn := by
  unfold initStep
  split <;> simp [dirRead, dirWrite, initDone]

@[simp] theorem wtStep_xfailIn (s : State) : (wtStep s).xfailIn = s.xfailIn := by
  unfold wtStep
  split <;> simp

@[simp] theorem frameStep_draws (s : State) : (frameStep s).draws = s.draws := by
  unfold frameStep
  split <;> simp

@[simp] theorem initStep_draws (s : State) : (initStep s).draws = s.draws := by
  unfold initStep
  split <;> simp [dirRead, dirWrite, initDone]

@[simp] theorem wtStep_draws (s : State) : (wtStep s).draws = s.draws := by
  unfold wtStep
  split <;> simp

@[simp] theorem frameStep_diag (s : State) : (frameStep s).diag = s.diag := by
  unfold frameStep
  split <;> simp

@[simp] theorem initStep_diag (s : State) : (initStep s).diag = s.diag := by
  unfold initStep
  split <;> simp [dirRead, dirWrite, initDone]

@[simp] theorem wtStep_diag (s : State) : (wtStep s).diag = s.diag := by
  unfold wtStep
  split <;> simp

/-! ### What an offered frame leaves alone -/

/-- An offered frame is dropped or started; the two ways differ from the state before in few registers. -/
theorem rlOffer_cases (s : State) (g : Byte) :
    rlOffer s g =
        { s.raise (.transportFailure (frameWord (digitRegister s.cfg.toParams s.pos) g)) with rph := .rNext } ∨
    rlOffer s g =
        { s.afterXfail.raise (.transportFailure (frameWord (digitRegister s.cfg.toParams s.pos) g)) with rph := .rNext } ∨
    (s.wst = .ready ∧ rlOffer s g = { s.afterXfail with
      sh := frameWord (digitRegister s.cfg.toParams s.pos) g, fown := .rl, bitn := 15, fph := .fLoadA, rph := .rWait }) := by
  by_cases hw : s.wst = .ready
  · cases hx : s.nextXfail with
    | true => exact .inr (.inl (rlOffer_fails hw hx g))
    | false => exact .inr (.inr ⟨hw, rlOffer_starts hw hx g⟩)
  · exact .inl (rlOffer_notReady hw g)

@[simp] theorem rlOffer_cfg (s : State) (g : Byte) : (rlOffer s g).cfg = s.cfg := by
  rcases rlOffer_cases s g with h | h | ⟨-, h⟩ <;> rw [h] <;> simp

@[simp] theorem rlOffer_bank0 (s : State) (g : Byte) : (rlOffer s g).bank0 = s.bank0 := by
  rcases rlOffer_cases s g with h | h | ⟨-, h⟩ <;> rw [h] <;> simp

@[simp] theorem rlOffer_bank1 (s : State) (g : Byte) : (rlOffer s g).bank1 = s.bank1 := by
  rcases rlOffer_cases s g with h | h | ⟨-, h⟩ <;> rw [h] <;> simp

@[simp] theorem rlOffer_act (s : State) (g : Byte) : (rlOffer s g).act = s.act := by
  rcases rlOffer_cases s g with h | h | ⟨-, h⟩ <;> rw [h] <;> simp

@[simp] theorem rlOffer_pos (s : State) (g : Byte) : (rlOffer s g).pos = s.pos := by
  rcases rlOffer_cases s g with h | h | ⟨-, h⟩ <;> rw [h] <;> simp

@[simp] theorem rlOffer_idx (s : State) (g : Byte) : (rlOffer s g).idx = s.idx := by
  rcases rlOffer_cases s g with h | h | ⟨-, h⟩ <;> rw [h] <;> simp

@[simp] theorem rlOffer_stopReq (s : State) (g : Byte) : (rlOffer s g).stopReq = s.stopReq := by
  rcases rlOffer_cases s g with h | h | ⟨-, h⟩ <;> rw [h] <;> simp

@[simp] theorem rlOffer_wst (s : State) (g : Byte) : (rlOffer s g).wst = s.wst := by
  rcases rlOffer_cases s g with h | h | ⟨-, h⟩ <;> rw [h] <;> simp

@[simp] theorem rlOffer_iph (s : State) (g : Byte) : (rlOffer s g).iph = s.iph := by
  rcases rlOffer_cases s g with h | h | ⟨-, h⟩ <;> rw [h] <;> simp

@[simp] theorem rlOffer_ftmp (s : State) (g : Byte) : (rlOffer s g).ftmp = s.ftmp := by
  rcases rlOffer_cases s g with h | h | ⟨-, h⟩ <;> rw [h] <;> simp

@[simp] theorem rlOffer_sess (s : State) (g : Byte) : (rlOffer s g).sess = s.sess := by
  rcases rlOffer_cases s g with h | h | ⟨-, h⟩ <;> rw [h] <;> simp

@[simp] theorem rlOffer_lines (s : State) (g : Byte) : (rlOffer s g).lines = s.lines := by
  rcases rlOffer_cases s g with h | h | ⟨-, h⟩ <;> rw [h] <;> simp

@[simp] theorem rlOffer_fsel (s : State) (g : Byte) : (rlOffer s g).fsel = s.fsel := by
  rcases rlOffer_cases s g with h | h | ⟨-, h⟩ <;> rw [h] <;> simp

@[simp] theorem rlOffer_out (s : State) (g : Byte) : (rlOffer s g).out = s.out := by
  rcases rlOffer_cases s g with h | h | ⟨-, h⟩ <;> rw [h] <;> simp

@[simp] theorem rlOffer_trace (s : State) (g : Byte) : (rlOffer s g).trace = s.trace := by
  rcases rlOffer_cases s g with h | h | ⟨-, h⟩ <;> rw [h] <;> simp

@[simp] theorem rlOffer_frames (s : State) (g : Byte) : (rlOffer s g).frames = s.frames := by
  rcases rlOffer_cases s g with h | h | ⟨-, h⟩ <;> rw [h] <;> simp

@[simp] theorem rlOffer_responses (s : State) (g : Byte) : (rlOffer s g).responses = s.responses := by
  rcases rlOffer_cases s g with h | h | ⟨-, h⟩ <;> rw [h] <;> simp

@[simp] theorem rlOffer_bus (s : State) (g : Byte) : (rlOffer s g).bus = s.bus := by
  rcases rlOffer_cases s g with h | h | ⟨-, h⟩ <;> rw [h] <;> simp

@[simp] theorem rlOffer_hostq (s : State) (g : Byte) : (rlOffer s g).hostq = s.hostq := by
  rcases rlOffer_cases s g with h | h | ⟨-, h⟩ <;> rw [h] <;> simp

@[simp] theorem rlOffer_sched (s : State) (g : Byte) : (rlOffer s g).sched = s.sched := by
  rcases rlOffer_cases s g with h | h | ⟨-, h⟩ <;> rw [h] <;> simp

@[simp] theorem rlOffer_initOkIn (s : State) (g : Byte) : (rlOffer s g).initOkIn = s.initOkIn := by
  rcases rlOffer_cases s g with h | h | ⟨-, h⟩ <;> rw [h] <;> simp

end Sys2Proof.Machine
end

