-- ==== Sys2Proof/Laws/Gpio.lean ====
section
/-! SUPPORT. The laws of the GPIO window: what a parameter set that passes the configuration check guarantees of two rows,
what a strobe does to the latches, what the function-select word holds bit by bit. -/

namespace Sys2Proof

/-! ### The configuration check -/

theorem Params.allPairs_pairwise {α : Type} {f : α → α → Bool} {l : List α} (h : Params.allPairs f l = true) :
    l.Pairwise fun a b => f a b = true := by
  induction l with
  | nil => exact .nil
  | cons a l ih =>
    simp only [Params.allPairs, Bool.and_eq_true, List.all_eq_true] at h
    exact .cons h.1 (ih h.2)

theorem Params.rowsApart_symm {r q : PinRow} (h : Params.rowsApart r q = true) : Params.rowsApart q r = true := by
  simp only [Params.rowsApart, Params.fieldsApart, Bool.and_eq_true, Bool.or_eq_true, bne_iff_ne, decide_eq_true_eq]
    at h ⊢
  obtain ⟨⟨⟨⟨⟨⟨⟨⟨⟨h1, h2⟩, h3⟩, h4⟩, h5⟩, h6⟩, h7⟩, h8⟩, h9⟩, h10⟩ := h
  refine ⟨⟨⟨⟨⟨⟨⟨⟨⟨h1.symm, ?_⟩, ?_⟩, ?_⟩, h7.symm⟩, h9.symm⟩, h5.symm⟩, h10.symm⟩, h6.symm⟩, h8.symm⟩
  · rcases h2 with (h | h) | h
    · exact .inl (.inl h.symm)
    · exact .inr h
    · exact .inl (.inr h)
  · exact h3.imp Ne.symm Ne.symm
  · exact h4.imp Ne.symm Ne.symm

/-- The rows of a parameter set that passes the check are pairwise apart. -/
theorem Params.ok_pairwise {p : Params} (h : p.ok = true) : p.pins.Pairwise fun r q => Params.rowsApart r q = true := by
  simp only [Params.ok, Bool.and_eq_true] at h
  exact Params.allPairs_pairwise h.1.1.2

theorem Params.ok_row {p : Params} (h : p.ok = true) {r : PinRow} (hr : r ∈ p.pins) : p.rowOk r = true := by
  simp only [Params.ok, Bool.and_eq_true, List.all_eq_true] at h
  exact h.1.1.1 r hr

/-- Two different rows of a parameter set that passes the check are apart. -/
theorem Params.ok_apart {p : Params} (h : p.ok = true) {r q : PinRow} (hr : r ∈ p.pins) (hq : q ∈ p.pins)
    (hne : r ≠ q) : Params.rowsApart r q = true := by
  have : Std.Symm fun r q : PinRow => Params.rowsApart r q = true := ⟨fun _ _ k => Params.rowsApart_symm k⟩
  exact (Params.ok_pairwise h).forall hr hq hne

theorem Params.row_mem (p : Params) (l : Line) : p.row l ∈ p.pins := by
  cases l <;> simp [Params.row, Params.pins, Params.ownPins]

/-- No register is of two kinds. -/
theorem Params.ok_kinds {p : Params} (h : p.ok = true) {r q : PinRow} (hr : r ∈ p.pins) (hq : q ∈ p.pins) :
    r.fselOff ≠ q.setOff ∧ r.fselOff ≠ q.clrOff ∧ r.setOff ≠ q.clrOff := by
  by_cases hne : r = q
  · subst hne
    have := Params.ok_row h hr
    simp only [Params.rowOk, Bool.and_eq_true, bne_iff_ne] at this
    exact ⟨this.1.1.2, this.1.2, this.2⟩
  · have := Params.ok_apart h hr hq hne
    simp only [Params.rowsApart, Bool.and_eq_true, bne_iff_ne] at this
    exact ⟨this.1.1.1.1.1.2, this.1.1.1.1.2, this.1.1.2⟩

/-- Rows with the same pin number are one row. -/
theorem Params.ok_pin_inj {p : Params} (h : p.ok = true) {r q : PinRow} (hr : r ∈ p.pins) (hq : q ∈ p.pins)
    (hp : r.pin = q.pin) : r = q := by
  by_contra hne
  have := Params.ok_apart h hr hq hne
  simp only [Params.rowsApart, Bool.and_eq_true, bne_iff_ne] at this
  exact this.1.1.1.1.1.1.1.1.1 hp

/-- Two rows with one set register and one bit in it are one row. -/
theorem Params.ok_set_inj {p : Params} (h : p.ok = true) {r q : PinRow} (hr : r ∈ p.pins) (hq : q ∈ p.pins)
    (ho : r.setOff = q.setOff) (hb : r.levelBit = q.levelBit) : r = q := by
  by_contra hne
  have := Params.ok_apart h hr hq hne
  simp only [Params.rowsApart, Bool.and_eq_true, Bool.or_eq_true, bne_iff_ne] at this
  exact this.1.1.1.1.1.1.1.2.elim (· ho) (· hb)

/-- Two rows with one clear register and one bit in it are one row. -/
theorem Params.ok_clr_inj {p : Params} (h : p.ok = true) {r q : PinRow} (hr : r ∈ p.pins) (hq : q ∈ p.pins)
    (ho : r.clrOff = q.clrOff) (hb : r.levelBit = q.levelBit) : r = q := by
  by_contra hne
  have := Params.ok_apart h hr hq hne
  simp only [Params.rowsApart, Bool.and_eq_true, Bool.or_eq_true, bne_iff_ne] at this
  exact this.1.1.1.1.1.1.2.elim (· ho) (· hb)

/-- Two different rows have fields that do not overlap. -/
theorem Params.ok_fields {p : Params} (h : p.ok = true) {r q : PinRow} (hr : r ∈ p.pins) (hq : q ∈ p.pins)
    (hne : r ≠ q) :
    r.fselOff ≠ q.fselOff ∨ r.fselShift.val + 3 ≤ q.fselShift.val ∨ q.fselShift.val + 3 ≤ r.fselShift.val := by
  have := Params.ok_apart h hr hq hne
  simp only [Params.rowsApart, Params.fieldsApart, Bool.and_eq_true, Bool.or_eq_true, bne_iff_ne, decide_eq_true_eq]
    at this
  rcases this.1.1.1.1.1.1.1.1.2 with (k | k) | k
  · exact .inl k
  · exact .inr (.inl k)
  · exact .inr (.inr k)

/-- The three pins of the block are three rows. -/
theorem Params.ok_row_inj {p : Params} (h : p.ok = true) {l m : Line} (hlm : l ≠ m) : p.row l ≠ p.row m := by
  have hp := Params.ok_pairwise h
  simp only [Params.pins, Params.ownPins, List.cons_append, List.nil_append, List.pairwise_cons, List.mem_cons] at hp
  obtain ⟨h1, h2, -⟩ := hp
  have e : ∀ r : PinRow, Params.rowsApart r r ≠ true := by
    intro r hr
    simp [Params.rowsApart] at hr
  have lc : p.loadPin ≠ p.clkPin := fun k => e _ (k ▸ h1 p.clkPin (.inl rfl))
  have ld : p.loadPin ≠ p.dinPin := fun k => e _ (k ▸ h1 p.dinPin (.inr (.inl rfl)))
  have cd : p.clkPin ≠ p.dinPin := fun k => e _ (k ▸ h2 p.dinPin (.inl rfl))
  cases l <;> cases m
  · exact absurd rfl hlm
  · exact lc
  · exact ld
  · exact lc.symm
  · exact absurd rfl hlm
  · exact cd
  · exact ld.symm
  · exact cd.symm
  · exact absurd rfl hlm

/-- A row of another pin is none of the block's three. -/
theorem Params.ok_other_ne {p : Params} (h : p.ok = true) {r : PinRow} (hr : r ∈ p.otherPins) (l : Line) :
    r ≠ p.row l := by
  have hp := Params.ok_pairwise h
  rw [Params.pins, List.pairwise_append] at hp
  rintro rfl
  have := hp.2.2 (p.row l) (by cases l <;> simp [Params.row, Params.ownPins]) _ hr
  simp [Params.rowsApart] at this

/-- The rows of the other pins have different pin numbers. -/
theorem Params.ok_others_nodup {p : Params} (h : p.ok = true) : (p.otherPins.map PinRow.pin).Nodup := by
  have hp := Params.ok_pairwise h
  rw [Params.pins, List.pairwise_append] at hp
  rw [List.Nodup, List.pairwise_map]
  refine hp.2.1.imp ?_
  intro r q k
  simp only [Params.rowsApart, Bool.and_eq_true, bne_iff_ne] at k
  exact k.1.1.1.1.1.1.1.1.1

namespace Machine

/-! ### Which register an offset is -/

theorem isFsel_iff (p : Params) (off : Nat) : isFsel p off = true ↔ ∃ r ∈ p.pins, r.fselOff = off := by
  simp [isFsel]

theorem isSet_iff (p : Params) (off : Nat) : isSet p off = true ↔ ∃ r ∈ p.pins, r.setOff = off := by
  simp [isSet]

theorem isClr_iff (p : Params) (off : Nat) : isClr p off = true ↔ ∃ r ∈ p.pins, r.clrOff = off := by
  simp [isClr]

/-- A function-select register takes the word written. -/
theorem State.gpioEffect_fsel {s : State} {r : PinRow} (hr : r ∈ s.cfg.pins) (w : Word32) :
    s.gpioEffect r.fselOff w = s.fselWrite r.fselOff w :=
  if_pos ((isFsel_iff _ _).mpr ⟨r, hr, rfl⟩)

/-- A set register strobes high. -/
theorem State.gpioEffect_set {s : State} {r : PinRow} (hr : r ∈ s.cfg.pins) (w : Word32) :
    s.gpioEffect r.setOff w = (s.strobeLines (setHits r.setOff w) .hi).strobeOthers (setHits r.setOff w) .hi := by
  have h1 : ¬ isFsel s.cfg.toParams r.setOff = true := by
    rw [isFsel_iff]
    rintro ⟨q, hq, hqo⟩
    exact (Params.ok_kinds s.cfg.good hq hr).1 hqo
  exact (if_neg h1).trans (if_pos ((isSet_iff _ _).mpr ⟨r, hr, rfl⟩))

/-- A clear register strobes low. -/
theorem State.gpioEffect_clr {s : State} {r : PinRow} (hr : r ∈ s.cfg.pins) (w : Word32) :
    s.gpioEffect r.clrOff w = (s.strobeLines (clrHits r.clrOff w) .lo).strobeOthers (clrHits r.clrOff w) .lo := by
  have h1 : ¬ isFsel s.cfg.toParams r.clrOff = true := by
    rw [isFsel_iff]
    rintro ⟨q, hq, hqo⟩
    exact (Params.ok_kinds s.cfg.good hq hr).2.1 hqo
  have h2 : ¬ isSet s.cfg.toParams r.clrOff = true := by
    rw [isSet_iff]
    rintro ⟨q, hq, hqo⟩
    exact (Params.ok_kinds s.cfg.good hq hr).2.2 hqo
  exact (if_neg h1).trans ((if_neg h2).trans (if_pos ((isClr_iff _ _).mpr ⟨r, hr, rfl⟩)))

/-! ### Strobes -/

/-- The strobe word of a pin has that pin's bit and no other. -/
theorem strobeWord_bit (r : PinRow) (k : Nat) (hk : k < 32) : (strobeWord r).getLsbD k = decide (k = r.levelBit.val) := by
  unfold strobeWord
  rw [BitVec.getLsbD_shiftLeft, decide_eq_true hk, Bool.true_and]
  by_cases h : k = r.levelBit.val
  · rw [decide_eq_true h, h]
    simp
  · rw [decide_eq_false h]
    by_cases h1 : k < r.levelBit.val
    · simp [h1]
    · have : k - r.levelBit.val ≠ 0 := by omega
      simp [BitVec.getLsbD_one, this]

/-- A pin's own set strobe hits it and no other row. -/
theorem setHits_strobeWord {p : Params} (h : p.ok = true) {r q : PinRow} (hr : r ∈ p.pins) (hq : q ∈ p.pins) :
    setHits r.setOff (strobeWord r) q = decide (q = r) := by
  unfold setHits
  rw [strobeWord_bit r _ q.levelBit.isLt]
  by_cases hqr : q = r
  · subst hqr; simp
  · rw [decide_eq_false hqr, Bool.and_eq_false_iff]
    by_cases ho : q.setOff = r.setOff
    · refine .inr (decide_eq_false fun hb => hqr ?_)
      exact Params.ok_set_inj h hq hr ho (Fin.ext hb)
    · exact .inl (by simpa using ho)

/-- A pin's own clear strobe hits it and no other row. -/
theorem clrHits_strobeWord {p : Params} (h : p.ok = true) {r q : PinRow} (hr : r ∈ p.pins) (hq : q ∈ p.pins) :
    clrHits r.clrOff (strobeWord r) q = decide (q = r) := by
  unfold clrHits
  rw [strobeWord_bit r _ q.levelBit.isLt]
  by_cases hqr : q = r
  · subst hqr; simp
  · rw [decide_eq_false hqr, Bool.and_eq_false_iff]
    by_cases ho : q.clrOff = r.clrOff
    · refine .inr (decide_eq_false fun hb => hqr ?_)
      exact Params.ok_clr_inj h hq hr ho (Fin.ext hb)
    · exact .inl (by simpa using ho)

/-- A strobe that hits none of a list of pins changes no latch. -/
theorem strobeLatches_none {hits : PinRow → Bool} {rs : List PinRow} (h : ∀ r ∈ rs, hits r = false) (v : Level)
    (m : Store Level) : strobeLatches hits v rs m = m := by
  induction rs generalizing m with
  | nil => rfl
  | cons r rs ih =>
    unfold strobeLatches
    rw [h r (by simp), if_neg (by decide), ih fun q hq => h q (by simp [hq])]

theorem strobeLatches_wf (hits : PinRow → Bool) (v : Level) (rs : List PinRow) {m : Store Level}
    (hm : Store.wf latchUnlisted m = true) : Store.wf latchUnlisted (strobeLatches hits v rs m) = true := by
  induction rs generalizing m with
  | nil => exact hm
  | cons r rs ih =>
    unfold strobeLatches
    apply ih
    split
    · exact Store.wf_write _ hm _ _
    · exact hm

/-- A latch of no listed pin keeps its level. -/
theorem strobeLatches_other (hits : PinRow → Bool) (v : Level) {rs : List PinRow} {m : Store Level}
    (hm : Store.wf latchUnlisted m = true) {pin : Nat} (hp : pin ∉ rs.map PinRow.pin) :
    Store.read latchUnlisted (strobeLatches hits v rs m) pin = Store.read latchUnlisted m pin := by
  induction rs generalizing m with
  | nil => rfl
  | cons r rs ih =>
    rw [List.map_cons, List.mem_cons, not_or] at hp
    unfold strobeLatches
    split
    · rw [ih (Store.wf_write _ hm _ _) hp.2, Store.read_write _ hm, if_neg hp.1]
    · exact ih hm hp.2

/-- A latch of a listed pin takes the level exactly when the strobe hits its row. -/
theorem strobeLatches_listed (hits : PinRow → Bool) (v : Level) {rs : List PinRow} (hn : (rs.map PinRow.pin).Nodup)
    {m : Store Level} (hm : Store.wf latchUnlisted m = true) {r : PinRow} (hr : r ∈ rs) :
    Store.read latchUnlisted (strobeLatches hits v rs m) r.pin =
      if hits r = true then v else Store.read latchUnlisted m r.pin := by
  induction rs generalizing m with
  | nil => cases hr
  | cons q rs ih =>
    rw [List.map_cons, List.nodup_cons] at hn
    unfold strobeLatches
    rcases List.mem_cons.mp hr with rfl | hr
    · split
      · rename_i hh
        rw [strobeLatches_other hits v (Store.wf_write _ hm _ _) hn.1, Store.read_write _ hm, if_pos rfl]
      · exact strobeLatches_other hits v hm hn.1
    · have hne : r.pin ≠ q.pin := fun k => hn.1 (k ▸ List.mem_map_of_mem hr)
      split
      · rw [ih hn.2 (Store.wf_write _ hm _ _) hr, Store.read_write _ hm, if_neg hne]
      · exact ih hn.2 hm hr

/-! ### A pin event -/

/-- The strobe of one of the block's pins drives its line and nothing else. -/
theorem State.gpioEffect_strobe (s : State) (l : Line) (level : Bool) :
    s.gpioEffect (if level then (s.cfg.row l).setOff else (s.cfg.row l).clrOff) (strobeWord (s.cfg.row l)) =
      { s with lines := s.lines.set l (Level.ofBool level) } := by
  have hm := Params.row_mem s.cfg.toParams l
  have hl : ∀ m : Line, decide (s.cfg.row m = s.cfg.row l) = decide (m = l) := by
    intro m
    by_cases hml : m = l
    · subst hml; simp
    · rw [decide_eq_false hml, decide_eq_false (Params.ok_row_inj s.cfg.good hml)]
  have ho : ∀ r ∈ s.cfg.otherPins, r ∈ s.cfg.pins ∧ r ≠ s.cfg.row l := fun r hr =>
    ⟨by simp [Params.pins, hr], Params.ok_other_ne s.cfg.good hr l⟩
  cases level with
  | true =>
    rw [if_pos rfl, State.gpioEffect_set hm]
    unfold State.strobeOthers State.strobeLines
    simp only
    rw [strobeLatches_none fun r hr => by rw [setHits_strobeWord s.cfg.good hm (ho r hr).1, decide_eq_false (ho r hr).2]]
    have e : ∀ m, setHits (s.cfg.row l).setOff (strobeWord (s.cfg.row l)) (s.cfg.row m) = decide (m = l) := fun m => by
      rw [setHits_strobeWord s.cfg.good hm (Params.row_mem s.cfg.toParams m), hl]
    have e1 := e .load
    have e2 := e .clk
    have e3 := e .din
    simp only [Params.row] at e1 e2 e3
    cases l <;> simp_all [Lines.set, Level.ofBool, Params.row]
  | false =>
    rw [if_neg (by decide), State.gpioEffect_clr hm]
    unfold State.strobeOthers State.strobeLines
    simp only
    rw [strobeLatches_none fun r hr => by rw [clrHits_strobeWord s.cfg.good hm (ho r hr).1, decide_eq_false (ho r hr).2]]
    have e : ∀ m, clrHits (s.cfg.row l).clrOff (strobeWord (s.cfg.row l)) (s.cfg.row m) = decide (m = l) := fun m => by
      rw [clrHits_strobeWord s.cfg.good hm (Params.row_mem s.cfg.toParams m), hl]
    have e1 := e .load
    have e2 := e .clk
    have e3 := e .din
    simp only [Params.row] at e1 e2 e3
    cases l <;> simp_all [Lines.set, Level.ofBool, Params.row]

/-- What a pin event can change: its line, the trace, the bus history. -/
theorem State.pinEvent_frame (s : State) (l : Line) (level : Bool) :
    s.pinEvent l level = { s with
      lines := s.lines.set l (Level.ofBool level), trace := s.trace ++ [.pin l level],
      bus := (s.pinEvent l level).bus } := by
  unfold State.pinEvent State.drive State.record
  cases hb : s.cfg.backend with
  | devnode => rfl
  | mmio =>
    simp only [State.busWrite, State.gpioEffect_strobe]

/-- The writes of a pin event on the bus: none under DEVNODE, one under MMIO. -/
theorem State.pinEvent_bus (s : State) (l : Line) (level : Bool) :
    (s.pinEvent l level).bus = s.bus ++ match s.cfg.backend with
      | .devnode => []
      | .mmio => [.write (if level then (s.cfg.row l).setOff else (s.cfg.row l).clrOff) (strobeWord (s.cfg.row l))] := by
  unfold State.pinEvent State.drive State.record
  cases hb : s.cfg.backend with
  | devnode => simp
  | mmio => rfl

/-! ### Function fields -/

/-- The mask of a field covers its three bits. -/
theorem fieldMask_bit (shift k : Nat) (hk : k < 32) :
    (fieldMask shift).getLsbD k = decide (shift ≤ k ∧ k < shift + 3) := by
  unfold fieldMask
  rw [BitVec.getLsbD_shiftLeft, decide_eq_true hk, Bool.true_and]
  by_cases h1 : k < shift
  · simp [h1]
  · have h7 : ∀ j : Nat, (7#32).getLsbD j = decide (j < 3) := by
      intro j
      by_cases hj : j < 3
      · interval_cases j <;> rfl
      · rw [decide_eq_false hj]
        by_cases hj' : j < 32
        · interval_cases j <;> rfl
        · exact BitVec.getLsbD_of_ge _ _ (by omega)
    rw [h7, decide_eq_false h1]
    simp only [Bool.not_false, Bool.true_and, decide_eq_decide]
    omega

/-- A read-modify-write of a function-select register read back. -/
theorem State.fselRead_fselWrite {s : State} (h : Store.wf (fselUnlisted s.cfg.toParams) s.fsel = true) (off : Nat) (w : Word32)
    (o : Nat) : (s.fselWrite off w).fselRead o = if o = off then w else s.fselRead o :=
  Store.read_write _ h off w o

theorem State.fselWrite_wf {s : State} (h : Store.wf (fselUnlisted s.cfg.toParams) s.fsel = true) (off : Nat) (w : Word32) :
    Store.wf (fselUnlisted s.cfg.toParams) (s.fselWrite off w).fsel = true := Store.wf_write _ h off w

end Machine

end Sys2Proof
end

