-- ==== Sys2Proof/Laws/PerInstr.lean ====
section
/-! SUPPORT. What is proved command by command: the encoded word of a command belongs to that command's own row of the
opcode table (a byte-port write has no word). -/

namespace Sys2Proof.Laws.EncodedRow

open Sys2Proof

/-- The encoding of a command is a word of its row, or a write at the byte port. -/
def Statement (i : Instr) : Prop :=
  (∃ w, encode i = .cmd w ∧ ∃ row ∈ opcodeRows, row.hits w = true ∧ row.mnemonic = i.mnemonic) ∨
    ∃ b, encode i = .bytes b ∧ i = .wtWrite2 b

/-- The byte of a `CMD24` operand's low half leaves the high half 0. -/
theorem argHigh_low (op g : Byte) : argHigh (cmdWord op (0#8 ++ g)) = 0 := by
  rw [argHigh_eq, argField_cmdWord, high_append]; rfl

/-- The operand of a query leaves `arg[14:8]` 0. -/
theorem argQueryZero_query (op : Byte) (a : Bool) (i : Byte) : argQueryZero (cmdWord op (queryArg a i)) = 0 := by
  rw [argQueryZero_eq, argField_cmdWord, queryArg_zero]

theorem wtInit : Statement .wtInit := by
  refine .inl ⟨_, rfl, opcodeRows[0], by decide, ?_, rfl⟩
  exact (rows_hit _).1.mpr ⟨opField_cmdWord _ _, argField_cmdWord _ _⟩

theorem wtSend (reg val : Byte) : Statement (.wtSend reg val) := by
  refine .inl ⟨_, rfl, opcodeRows[1], by decide, ?_, rfl⟩
  exact (rows_hit _).2.1.mpr (opField_cmdWord _ _)

theorem wtClose : Statement .wtClose := by
  refine .inl ⟨_, rfl, opcodeRows[2], by decide, ?_, rfl⟩
  exact (rows_hit _).2.2.1.mpr ⟨opField_cmdWord _ _, argField_cmdWord _ _⟩

theorem sbReset : Statement .sbReset := by
  refine .inl ⟨_, rfl, opcodeRows[3], by decide, ?_, rfl⟩
  exact (rows_hit _).2.2.2.1.mpr ⟨opField_cmdWord _ _, argField_cmdWord _ _⟩

theorem sbAppend (g : Byte) : Statement (.sbAppend g) := by
  refine .inl ⟨_, rfl, opcodeRows[4], by decide, ?_, rfl⟩
  exact (rows_hit _).2.2.2.2.1.mpr ⟨opField_cmdWord _ _, argHigh_low _ _⟩

theorem sbOrlast (m : Byte) : Statement (.sbOrlast m) := by
  refine .inl ⟨_, rfl, opcodeRows[5], by decide, ?_, rfl⟩
  exact (rows_hit _).2.2.2.2.2.1.mpr ⟨opField_cmdWord _ _, argHigh_low _ _⟩

theorem sbCommit : Statement .sbCommit := by
  refine .inl ⟨_, rfl, opcodeRows[6], by decide, ?_, rfl⟩
  exact (rows_hit _).2.2.2.2.2.2.1.mpr ⟨opField_cmdWord _ _, argField_cmdWord _ _⟩

theorem sbAdvance (a : Bool) (k : Byte) : Statement (.sbAdvance a k) := by
  refine .inl ⟨_, rfl, opcodeRows[7], by decide, ?_, rfl⟩
  exact (rows_hit _).2.2.2.2.2.2.2.1.mpr ⟨opField_cmdWord _ _, argQueryZero_query _ _ _⟩

theorem sbRead (a : Bool) (k : Byte) : Statement (.sbRead a k) := by
  refine .inl ⟨_, rfl, opcodeRows[8], by decide, ?_, rfl⟩
  exact (rows_hit _).2.2.2.2.2.2.2.2.1.mpr ⟨opField_cmdWord _ _, argQueryZero_query _ _ _⟩

theorem rlStop : Statement .rlStop := by
  refine .inl ⟨_, rfl, opcodeRows[9], by decide, ?_, rfl⟩
  exact (rows_hit _).2.2.2.2.2.2.2.2.2.mpr ⟨opField_cmdWord _ _, argField_cmdWord _ _⟩

theorem wtWrite2 (b : List Byte) : Statement (.wtWrite2 b) := .inr ⟨b, rfl, rfl⟩

end Sys2Proof.Laws.EncodedRow
end

