-- ==== Sys2Proof/Laws/Run.lean ====
section
/-! SUPPORT. The laws of a run: no agent's turn looks at the schedule or changes it, so a run through a given schedule takes
its turns one by one. Statements about many steps go through `runTurns_cons` and `runTurns_append`. -/

namespace Sys2Proof.Machine

/-- The state with another schedule. -/
abbrev State.withSched (s : State) (q : List Turn) : State := { s with sched := q }

@[simp] theorem mapNext_next (f : State → State) (t : State) : mapNext f (.next t) = .next (f t) := rfl
@[simp] theorem mapNext_fault (f : State → State) (r : Fault) : mapNext f (.fault r) = .fault r := rfl
@[simp] theorem mapNext_refused (f : State → State) (r : Refusal) : mapNext f (.refused r) = .refused r := rfl

theorem mapNext_ite (f : State → State) (c : Prop) [Decidable c] (x y : Result) :
    mapNext f (if c then x else y) = if c then mapNext f x else mapNext f y := by split <;> rfl

variable (s : State) (q : List Turn)

/-! ### Every operation leaves the schedule alone -/

theorem setBank_withSched (k : Bool) (b : Bank) :
    (s.withSched q).setBank k b = (s.setBank k b).withSched q := by cases k <;> rfl

theorem raiseOpt_withSched (e : Option Diag) : (s.withSched q).raiseOpt e = (s.raiseOpt e).withSched q := by
  cases e <;> rfl

theorem finish_withSched (e : Option Diag) (v : Byte) : (s.withSched q).finish e v = (s.finish e v).withSched q := by
  cases e <;> rfl

theorem afterInitOk_withSched : (s.withSched q).afterInitOk = (s.afterInitOk).withSched q := by
  unfold State.afterInitOk; cases s.initOkIn <;> rfl

theorem afterXfail_withSched : (s.withSched q).afterXfail = (s.afterXfail).withSched q := by
  unfold State.afterXfail; cases s.xfailIn <;> rfl

theorem gate_withSched (op : Option Byte) (r r' : Result) (h : r' = mapNext (·.withSched q) r) :
    gate (s.withSched q) op r' = mapNext (·.withSched q) (gate s op r) := by
  unfold gate
  rw [mapNext_ite, h]
  rfl

theorem gpioEffect_withSched (off : Nat) (w : Word32) :
    (s.withSched q).gpioEffect off w = (s.gpioEffect off w).withSched q := by
  unfold State.gpioEffect; split_ifs <;> rfl

theorem busWrite_withSched (off : Nat) (w : Word32) :
    (s.withSched q).busWrite off w = (s.busWrite off w).withSched q := by
  unfold State.busWrite; rw [gpioEffect_withSched]

theorem otherGpioWrite_withSched (off : Nat) (w : Word32) :
    (s.withSched q).otherGpioWrite off w = (s.otherGpioWrite off w).withSched q := by
  unfold State.otherGpioWrite; split_ifs <;> rfl

theorem drive_withSched (l : Line) (v : Bool) : (s.withSched q).drive l v = (s.drive l v).withSched q := by
  unfold State.drive
  cases s.cfg.backend
  · rfl
  · exact busWrite_withSched s q _ _

theorem pinEvent_withSched (l : Line) (v : Bool) : (s.withSched q).pinEvent l v = (s.pinEvent l v).withSched q := by
  unfold State.pinEvent; rw [drive_withSched]; rfl

theorem loadEvent_withSched (b : Bool) : (s.withSched q).loadEvent b = (s.loadEvent b).withSched q := by
  unfold State.loadEvent; exact pinEvent_withSched s q _ _

theorem acceptFrame_withSched (o : Owner) (f : Word16) :
    (s.withSched q).acceptFrame o f = ((s.acceptFrame o f).1, (s.acceptFrame o f).2.withSched q) := by
  unfold State.acceptFrame
  rw [afterXfail_withSched]
  have : (s.withSched q).nextXfail = s.nextXfail := rfl
  rw [this]
  by_cases h1 : (s.wst != .ready) = true <;> by_cases h2 : s.nextXfail = true <;> simp [h1, h2] <;> rfl

theorem nextBit_withSched : (s.withSched q).nextBit = (s.nextBit).withSched q := by
  unfold State.nextBit
  by_cases h : s.bitn = 0
  · rw [if_pos h, if_pos h]
  · rw [if_neg h, if_neg h]

theorem completeFrame_withSched : (s.withSched q).completeFrame = (s.completeFrame).withSched q := by
  unfold State.completeFrame State.wakeOwner; cases s.fown <;> rfl

theorem frameStep_withSched : frameStep (s.withSched q) = (frameStep s).withSched q := by
  unfold frameStep
  cases h : s.fph <;> simp only [loadEvent_withSched, pinEvent_withSched, completeFrame_withSched]
  case fDly1 => rfl
  case fDly2 => exact nextBit_withSched s.delayEvent q

theorem initStep_withSched : initStep (s.withSched q) = (initStep s).withSched q := by
  unfold initStep
  cases h : s.iph <;> simp only [dirRead, dirWrite, busWrite_withSched] <;> rfl

theorem wtStep_withSched : wtStep (s.withSched q) = (wtStep s).withSched q := by
  unfold wtStep
  rw [frameStep_withSched, initStep_withSched]
  show (if s.wtBusy = true then _ else _) = _
  split <;> rfl

theorem timerWake_withSched : timerWake (s.withSched q) = (timerWake s).withSched q := by
  unfold timerWake
  show (if s.rph = .rSleep ∧ s.stopReq = false then _ else _) = _
  split <;> rfl

theorem lazyStart_withSched : (s.withSched q).lazyStart = (s.lazyStart).withSched q := by
  unfold State.lazyStart
  show (if s.rph = .rIdle ∧ s.stopReq = false then _ else _) = _
  split <;> rfl

theorem rlOffer_withSched (g : Byte) : rlOffer (s.withSched q) g = (rlOffer s g).withSched q := by
  unfold rlOffer
  rw [acceptFrame_withSched]

theorem rlIssue_withSched : rlIssue (s.withSched q) = mapNext (·.withSched q) (rlIssue s) := by
  unfold rlIssue
  rw [mapNext_ite]
  show (if s.wtBusy = true then _ else _) = _
  split
  · rfl
  · show (match s.active.readAt s.idx with | none => _ | some (g, e) => _) = _
    cases s.active.readAt s.idx with
    | none => rfl
    | some r => obtain ⟨g, e⟩ := r; simp only [mapNext_next, raiseOpt_withSched, rlOffer_withSched]

theorem rlNext_withSched : rlNext (s.withSched q) = (rlNext s).withSched q := by
  unfold rlNext
  show (if s.pos = 7 then _ else _) = _
  simp only [raiseOpt_withSched]
  by_cases h : s.pos = 7
  · rw [if_pos h, if_pos h]; rfl
  · rw [if_neg h, if_neg h]; rfl

theorem rlEnd_withSched : rlEnd (s.withSched q) = (rlEnd s).withSched q := by
  unfold rlEnd State.setActive
  simp only [setBank_withSched, raiseOpt_withSched]
  rfl

theorem rlSleep_withSched : rlSleep (s.withSched q) = (rlSleep s).withSched q := by
  unfold rlSleep
  show (if s.stopReq = true then _ else _) = _
  split <;> rfl

theorem rlStep_withSched : rlStep (s.withSched q) = mapNext (·.withSched q) (rlStep s) := by
  unfold rlStep
  cases h : s.rph <;>
    simp only [rlIssue_withSched, rlNext_withSched, rlEnd_withSched, rlSleep_withSched, mapNext_next]
  rfl

theorem startInit_withSched : (s.withSched q).startInit = (s.startInit).withSched q := by
  unfold State.startInit; cases s.cfg.backend <;> rfl

theorem acceptInit_withSched : (s.withSched q).acceptInit = (s.acceptInit).withSched q := by
  unfold State.acceptInit
  rw [afterInitOk_withSched, startInit_withSched]
  show (if s.nextInitOk = true then _ else _) = _
  split
  · rfl
  · exact finish_withSched s.afterInitOk.abortInit q _ _

theorem startHostFrame_withSched (f : Word16) :
    (s.withSched q).startHostFrame f = (s.startHostFrame f).withSched q := by
  unfold State.startHostFrame
  rw [acceptFrame_withSched]
  simp only
  split <;> rfl

theorem sendFrame_withSched (f : Word16) : sendFrame (s.withSched q) f = mapNext (·.withSched q) (sendFrame s f) := by
  unfold sendFrame
  rw [mapNext_ite, startHostFrame_withSched]
  rfl

theorem rejectLength_withSched (n : Nat) :
    rejectLength (s.withSched q) n = mapNext (·.withSched q) (rejectLength s n) := by
  unfold rejectLength; exact gate_withSched s q _ _ _ rfl

theorem exec_withSched (i : Instr) : exec i (s.withSched q) = mapNext (·.withSched q) (exec i s) := by
  cases i with
  | wtInit =>
    refine gate_withSched s q _ _ _ ?_
    rw [mapNext_ite, acceptInit_withSched]; rfl
  | wtSend r v => exact gate_withSched s q _ _ _ (sendFrame_withSched s q _)
  | wtClose =>
    refine gate_withSched s q _ _ _ ?_
    rw [mapNext_ite, mapNext_ite]; rfl
  | sbReset =>
    refine gate_withSched s q _ _ _ ?_
    unfold State.setShadow
    rw [setBank_withSched, finish_withSched]; rfl
  | sbAppend g =>
    refine gate_withSched s q _ _ _ ?_
    rw [mapNext_ite]
    show (if s.shadow.length.toNat = Config.capacity then _ else _) = _
    split
    · rfl
    · show (match s.shadow.store s.shadow.length.toNat g with | none => _ | some b => _) = _
      cases s.shadow.store s.shadow.length.toNat g with
      | none => rfl
      | some b => simp only [State.setShadow, setBank_withSched, finish_withSched, mapNext_next]
  | sbOrlast m =>
    refine gate_withSched s q _ _ _ ?_
    rw [mapNext_ite]
    show (if s.shadow.length = 0 then _ else _) = _
    split
    · rfl
    · show (match s.shadow.store (s.shadow.length - 1).toNat (s.shadow.data.read (s.shadow.length - 1).toNat ||| m) with
        | none => _ | some b => _) = _
      cases s.shadow.store (s.shadow.length - 1).toNat (s.shadow.data.read (s.shadow.length - 1).toNat ||| m) with
      | none => rfl
      | some b => simp only [State.setShadow, setBank_withSched, finish_withSched, mapNext_next]
  | sbCommit =>
    refine gate_withSched s q _ _ _ ?_
    rw [mapNext_ite]
    show (if s.midCycle = true then _ else _) = _
    split
    · rfl
    · have := lazyStart_withSched { s with act := !s.act } q
      simp only [mapNext_next]
      rw [← finish_withSched, ← this]
  | sbAdvance a j => exact gate_withSched s q _ _ _ (by rw [finish_withSched]; rfl)
  | sbRead a j =>
    refine gate_withSched s q _ _ _ ?_
    show (match (s.queried a).readAt j with | none => _ | some (g, e) => _) = _
    cases (s.queried a).readAt j with
    | none => rfl
    | some r => obtain ⟨g, e⟩ := r; simp only [finish_withSched, mapNext_next]
  | rlStop => exact gate_withSched s q _ _ _ rfl
  | wtWrite2 b =>
    show execWtWrite2 b (s.withSched q) = mapNext (·.withSched q) (execWtWrite2 b s)
    unfold execWtWrite2
    split
    · exact gate_withSched s q _ _ _ (sendFrame_withSched s q _)
    · exact rejectLength_withSched s q _

theorem present_withSched (r : Request) : present (s.withSched q) r = mapNext (·.withSched q) (present s r) := by
  unfold present
  cases decodeRequest r with
  | ok i => exact exec_withSched s q i
  | error e =>
    cases e with
    | illegalCommand w => rfl
    | badLength n => exact rejectLength_withSched s q n

theorem compileTurn_withSched (c : Compile) : compileTurn (s.withSched q) c = mapNext (·.withSched q) (compileTurn s c) := by
  unfold compileTurn
  show (match c.unreported s.cfg.toParams with | some ch => _ | none => _) = _
  cases c.unreported s.cfg.toParams with
  | some ch => rfl
  | none =>
    dsimp only
    rw [show (s.withSched q).shadow = s.shadow from rfl, present_withSched]
    cases present s (encode (c.command s.cfg.toParams s.shadow.length.toNat)) <;> rfl

theorem hostTurn_withSched : hostTurn (s.withSched q) = mapNext (·.withSched q) (hostTurn s) := by
  unfold hostTurn
  rw [mapNext_ite]
  show (if s.hostWaiting = true then _ else _) = _
  split
  · rfl
  · show (match s.hostq with
      | [] => _
      | .report ch :: _ => _
      | .present r :: _ => _
      | .compile c :: _ => _
      | .stopIfFailed n :: _ => _) = _
    cases s.hostq with
    | nil => rfl
    | cons m ms =>
      cases m with
      | report ch => rfl
      | present r => exact present_withSched s q r
      | compile c => exact compileTurn_withSched s q c
      | stopIfFailed n => rfl

/-- An agent's turn does not look at the schedule, and leaves it alone. -/
theorem takeTurn_withSched (t : Turn) :
    takeTurn t (s.withSched q) = mapNext (·.withSched q) (takeTurn t s) := by
  cases t with
  | host => exact hostTurn_withSched s q
  | rl => exact rlStep_withSched s q
  | wt => exact congrArg Host.Outcome.next (wtStep_withSched s q)
  | wake => exact congrArg Host.Outcome.next (timerWake_withSched s q)
  | gpio o w => exact congrArg Host.Outcome.next (otherGpioWrite_withSched s q o w)

/-- A turn leaves the schedule as it was. -/
theorem takeTurn_sched {t : Turn} {s s' : State} (h : takeTurn t s = .next s') : s'.sched = s.sched := by
  have h1 := takeTurn_withSched s s.sched t
  have h2 : s.withSched s.sched = s := rfl
  rw [h2, h] at h1
  simp only [mapNext_next] at h1
  have := Host.Outcome.next.inj h1
  rw [this]

theorem runTurns_nil : runTurns [] s = .next s := rfl

/-- A run through a schedule takes its turns one by one. -/
theorem runTurns_cons {t : Turn} {ts : List Turn} {s s' : State} (h : takeTurn t s = .next s') :
    runTurns (t :: ts) s = runTurns ts s' := by
  have h3 := takeTurn_withSched s (ts ++ s.sched) t
  rw [h] at h3
  have h4 : step (s.withTurns (t :: ts)) = .next (s'.withTurns ts) := by
    refine Eq.trans ?_ (h3.trans ?_)
    · rfl
    · rw [← takeTurn_sched h]; rfl
  show runFor (ts.length + 1) (s.withTurns (t :: ts)) = _
  rw [runFor, h4]
  rfl

theorem runTurns_fault {t : Turn} {ts : List Turn} {s : State} {r : Fault} (h : takeTurn t s = .fault r) :
    runTurns (t :: ts) s = .fault r := by
  have h3 := takeTurn_withSched s (ts ++ s.sched) t
  rw [h] at h3
  have h4 : step (s.withTurns (t :: ts)) = .fault r := h3
  show runFor (ts.length + 1) (s.withTurns (t :: ts)) = _
  rw [runFor, h4]

theorem runTurns_refused {t : Turn} {ts : List Turn} {s : State} {r : Refusal} (h : takeTurn t s = .refused r) :
    runTurns (t :: ts) s = .refused r := by
  have h3 := takeTurn_withSched s (ts ++ s.sched) t
  rw [h] at h3
  have h4 : step (s.withTurns (t :: ts)) = .refused r := h3
  show runFor (ts.length + 1) (s.withTurns (t :: ts)) = _
  rw [runFor, h4]

/-- A run through two schedules is the second after the first. -/
theorem runTurns_append {ts us : List Turn} {s s' : State} (h : runTurns ts s = .next s') :
    runTurns (ts ++ us) s = runTurns us s' := by
  induction ts generalizing s with
  | nil => rw [runTurns_nil] at h; rw [Host.Outcome.next.inj h]; rfl
  | cons t ts ih =>
    cases ht : takeTurn t s with
    | next u =>
      rw [runTurns_cons ht] at h
      rw [List.cons_append, runTurns_cons ht]
      exact ih h
    | fault r => rw [runTurns_fault ht] at h; cases h
    | refused r => rw [runTurns_refused ht] at h; cases h

end Sys2Proof.Machine
end

