-- ==== Sys2Proof/Machine/Assembler.lean ====
section
/-! DEFINITION. The assembler syntax of 30_encoding R72: one command per line, a mnemonic and its operands separated by
commas, numbers in the notation of 00_scope R8, `;` to the end of the line a comment. A line gives the host moves it
stands for; what is no line of the syntax gives none. -/

namespace Sys2Proof.Machine

/-- A blank of a line. -/
def isBlank (c : Char) : Bool := c == ' ' || c == '\t'

/-- A piece of a line without the blanks around it. -/
def trimBlanks (l : List Char) : List Char := ((l.dropWhile isBlank).reverse.dropWhile isBlank).reverse

/-- The value of a digit in a base up to 16. -/
def digitValue (base : Nat) (c : Char) : Option Nat :=
  let n := c.toNat
  let v := if 48 ≤ n && n ≤ 57 then n - 48 else if 97 ≤ n && n ≤ 102 then n - 87 else if 65 ≤ n && n ≤ 70 then n - 55 else 99
  if v < base then some v else none

/-- The value of a string of digits after the digits read so far. -/
def digitsValue (base : Nat) : List Char → Nat → Option Nat
  | [], acc => some acc
  | c :: cs, acc =>
    match digitValue base c with
    | none => none
    | some v => digitsValue base cs (acc * base + v)

/-- A number: `0x` hexadecimal, `0b` binary, otherwise decimal (00_scope R8). -/
def numberValue : List Char → Option Nat
  | [] => none
  | '0' :: 'x' :: c :: cs => digitsValue 16 (c :: cs) 0
  | '0' :: 'b' :: c :: cs => digitsValue 2 (c :: cs) 0
  | cs => digitsValue 10 cs 0

/-- A byte operand. -/
def byteOperand (l : List Char) : Option Byte :=
  match numberValue l with
  | none => none
  | some n => if n < 256 then some (BitVec.ofNat 8 n) else none

/-- The bank operand: `act` for 1, `shd` for 0 (30_encoding R72). -/
def bankOperand (l : List Char) : Option Bool :=
  if l = ['a', 'c', 't'] then some true else if l = ['s', 'h', 'd'] then some false else none

/-- The pieces of a line between commas. -/
def splitCommas : List Char → List (List Char)
  | [] => [[]]
  | ',' :: cs => [] :: splitCommas cs
  | c :: cs =>
    match splitCommas cs with
    | [] => [[c]]
    | p :: ps => (c :: p) :: ps

/-- A command with no operand. -/
def asm0 (m : List HostMove) : List (List Char) → Option (List HostMove)
  | [] => some m
  | _ => none

/-- A command with one byte operand. -/
def asm1 (f : Byte → List HostMove) : List (List Char) → Option (List HostMove)
  | [x] => (byteOperand x).map f
  | _ => none

/-- A command with two byte operands. -/
def asm2 (f : Byte → Byte → List HostMove) : List (List Char) → Option (List HostMove)
  | [x, y] => (byteOperand x).bind fun a => (byteOperand y).map (f a)
  | _ => none

/-- A query command: a bank and an index. -/
def asmQuery (f : Bool → Byte → List HostMove) : List (List Char) → Option (List HostMove)
  | [x, y] => (bankOperand x).bind fun a => (byteOperand y).map (f a)
  | _ => none

/-- The quoted string of `TEXT` (30_encoding R73). -/
def quoted (l : List Char) : Option (List Char) :=
  match l with
  | '"' :: cs => if cs.getLast? = some '"' ∧ '"' ∉ cs.dropLast then some cs.dropLast else none
  | _ => none

/-- The operand syntax of each mnemonic (30_encoding R72, R73). -/
def asmTable (p : Params) : List (String × (List (List Char) → Option (List HostMove))) :=
  [ ("WT.INIT", asm0 [commandMove .wtInit]),
    ("WT.SEND", asm2 fun r v => [commandMove (.wtSend r v)]),
    ("WT.CLOSE", asm0 [commandMove .wtClose]),
    ("SB.RESET", asm0 [commandMove .sbReset]),
    ("SB.APPEND", asm1 fun g => [commandMove (.sbAppend g)]),
    ("SB.ORLAST", asm1 fun m => [commandMove (.sbOrlast m)]),
    ("SB.COMMIT", asm0 [commandMove .sbCommit]),
    ("SB.ADVANCE", asmQuery fun a i => [commandMove (.sbAdvance a i)]),
    ("SB.READ", asmQuery fun a i => [commandMove (.sbRead a i)]),
    ("RL.STOP", asm0 [commandMove .rlStop]),
    ("WT.WRITE2", asm2 fun b0 b1 => (Pseudo.wtWrite2 b0 b1).expand p),
    ("CFG.SCANLIMIT", asm1 fun v => (Pseudo.cfgScanlimit v).expand p),
    ("CFG.DECODE", asm1 fun v => (Pseudo.cfgDecode v).expand p),
    ("CFG.INTENSITY", asm1 fun v => (Pseudo.cfgIntensity v).expand p),
    ("CFG.SHUTDOWN", asm1 fun v => (Pseudo.cfgShutdown v).expand p),
    ("CFG.TEST", asm1 fun v => (Pseudo.cfgTest v).expand p),
    ("TEARDOWN", asm0 (Pseudo.teardown.expand p)) ]

/-- The operands after a mnemonic. -/
def operandsOf (rest : List Char) : List (List Char) :=
  if trimBlanks rest = [] then [] else (splitCommas rest).map trimBlanks

/-- A line other than `TEXT`, comment removed. -/
def assembleCommand (p : Params) (l : List Char) : Option (List HostMove) :=
  match (asmTable p).find? (fun row => row.1.toList == l.takeWhile (fun c => !isBlank c)) with
  | none => none
  | some row => row.2 (operandsOf (l.dropWhile (fun c => !isBlank c)))

/-- One line of assembly (30_encoding R72, R73). -/
def assembleLine (p : Params) (line : List Char) : Option (List HostMove) :=
  let l := trimBlanks line
  match l with
  | 'T' :: 'E' :: 'X' :: 'T' :: rest =>
    let t := rest.dropWhile isBlank
    let body := t.take 1 ++ (t.drop 1).takeWhile (· != '"') ++ ['"']
    let tail := trimBlanks ((t.drop 1).dropWhile (· != '"')).tail
    if (t.drop 1).contains '"' && (tail == [] || tail.head? == some ';')
    then (quoted body).map fun s => (Pseudo.text s).expand p else none
  | _ =>
    let code := trimBlanks (l.takeWhile (· != ';'))
    if code = [] then some [] else assembleCommand p code

end Sys2Proof.Machine
end

