-- ==== Sys2Proof/Tests/Slice0.lean ====
section
/-! SUPPORT. The model's own tests: expected values from spec/95_test_vectors.md (named V-…) and from the encoding tables of
30_encoding; and, for every statement with hypotheses, a witness that they can be met. -/

namespace Sys2Proof.Tests

open Sys2Proof.Machine

/-! ### Small states -/

/-- The example values of 95_test_vectors and the example map of V-M7. -/
def pinRow (pin fselOff : Nat) (fselShift : Fin 30) (bit : Fin 32) : PinRow :=
  { pin := pin, fselOff := fselOff, fselShift := fselShift, setOff := 0x1C, clrOff := 0x28, levelBit := bit }

/-- The example parameters of 95_test_vectors, with one GPIO pin, 14, that is not the block's. -/
def params (b : Backend) : Params where
  backend := b
  digitReg := #v[0x01, 0x02, 0x03, 0x04, 0x05, 0x06, 0x07, 0x08]
  regScanlimit := 0x0B
  regDecode := 0x09
  regIntensity := 0x0A
  regShutdown := 0x0C
  regTest := 0x0F
  decodeOff := 0x00
  shutdownOff := 0x00
  shutdownOn := 0x01
  testOff := 0x00
  testOn := 0x01
  dpMask := 0x80
  glyph := [('1', 0x30), ('2', 0x6D), ('3', 0x79), ('5', 0x5B)]
  loadPin := pinRow 8 0x00 24 8
  clkPin := pinRow 11 0x04 3 11
  dinPin := pinRow 10 0x04 0 10
  otherPins := [pinRow 14 0x04 12 14]
  loadAssertLevel := true
  gpioBase := 0x20200000
  gpioSize := 0x1000
  fselOut := 1#3
  gpioLeft := [(0x04, 0x00024000#32)]
  tSettle := 2
  tChipMin := 1

/-- The example parameters pass the configuration check. -/
def platform (b : Backend) : Platform := { toParams := params b, good := by cases b <;> decide }

/-- The state after reset with the example parameters. -/
def start (b : Backend := .devnode) : State := { State.reset with cfg := platform b }

/-- A ready session. -/
def ready (b : Backend := .devnode) : State := { start b with wst := .ready, sess := .ready, xfailIn := [false] }

/-- A destroyed session. -/
def gone : State := { start with wst := .closed, sess := .destroyed, rph := .rHalted }

/-- A bank of the given glyphs. -/
def bankOf (data : Memory) (length cursor : Byte) : Bank := { data := data, length := length, cursor := cursor }

/-- The bank `[0x30, 0x6D, 0x79]` of V-B5. -/
def bank3 : Bank := bankOf [(0, 0x30), (1, 0x6D), (2, 0x79)] 3 0

/-- The state after reset with a bank as the shadow bank and another as the active bank. -/
def banks (shadow active : Bank) : State := { start with bank0 := active, bank1 := shadow }

/-- What a next state shows. -/
def shows {α : Type} (r : Result) (f : State → α) : Option α :=
  match r with
  | .next t => some (f t)
  | .fault _ => none
  | .refused _ => none

/-! ### Encoding -/

/-- Every command word of 30_encoding R66 and R67, written out, decodes to its command (V-E1 to V-E13). -/
theorem test_decode_wtInit : decodeCmd 0x010000#24 = .ok .wtInit := by decide
theorem test_decode_wtSend : decodeCmd 0x02A53C#24 = .ok (.wtSend 0xA5 0x3C) := by decide
theorem test_decode_wtSend_zero : decodeCmd 0x020000#24 = .ok (.wtSend 0x00 0x00) := by decide
theorem test_decode_wtClose : decodeCmd 0x030000#24 = .ok .wtClose := by decide
theorem test_decode_sbReset : decodeCmd 0x100000#24 = .ok .sbReset := by decide
theorem test_decode_sbAppend : decodeCmd 0x1100FF#24 = .ok (.sbAppend 0xFF) := by decide
theorem test_decode_sbOrlast : decodeCmd 0x120080#24 = .ok (.sbOrlast 0x80) := by decide
theorem test_decode_sbCommit : decodeCmd 0x130000#24 = .ok .sbCommit := by decide
theorem test_decode_sbAdvance_act : decodeCmd 0x14807F#24 = .ok (.sbAdvance true 127) := by decide
theorem test_decode_sbAdvance_shd : decodeCmd 0x140003#24 = .ok (.sbAdvance false 3) := by decide
theorem test_decode_sbRead_act : decodeCmd 0x158000#24 = .ok (.sbRead true 0) := by decide
theorem test_decode_sbRead_shd : decodeCmd 0x1500FF#24 = .ok (.sbRead false 255) := by decide
theorem test_decode_rlStop : decodeCmd 0x200000#24 = .ok .rlStop := by decide
/-- Byte 0 is the register, byte 1 the value (30_encoding R63). -/
theorem test_decode_wtWrite2 : decodeBytes [0x0A#8, 0x0F#8] = .ok (.wtWrite2 [0x0A, 0x0F]) := by decide

/-- Reserved words are rejected by name (V-E20 to V-E24). -/
theorem test_decode_reserved :
    [0x000000#24, 0x010001#24, 0x110130#24, 0x144003#24, 0x040000#24, 0x160000#24, 0x210000#24, 0xFF0000#24].all
      (fun w => decodeCmd w == .error (.illegalCommand w)) = true := by decide

/-- The check of a byte-port write's length (30_encoding R63; V-P2 to V-P4). -/
theorem test_wellFormed_refuses_length :
    (Instr.wtWrite2 [0x0A]).wellFormed = false ∧ (Instr.wtWrite2 []).wellFormed = false ∧
    (Instr.wtWrite2 [0x01, 0x30, 0x02, 0x6D]).wellFormed = false ∧ (Instr.wtWrite2 [0x0A, 0x0F]).wellFormed = true := by
  decide

/-- A table word of each format, numbered as spec/opcode_table.json numbers it. -/
theorem test_decodeTableWord :
    decodeTableWord 24 0x02A53C = some (.wtSend 0xA5 0x3C) ∧ decodeTableWord 16 0x0A0F = some (.wtWrite2 [0x0A, 0x0F]) ∧
    decodeTableWord 24 0x7F0000 = none := by decide

/-- The step runs a placed command first, from reset. -/
theorem test_step_runs_placed_command :
    shows (step (State.reset.withFetchWord 24 0x110030)) (fun t => (t.shadow, t.responses)) =
      some (bankOf [(0, 0x30)] 1 0, [0x0000]) := by decide

/-- The example line of 30_encoding R72, and one line of each other operand form. -/
theorem test_assemble :
    assembleLine (params .devnode) "WT.SEND 0xA5, 0x3C".toList = some [.present (.cmd 0x02A53C)] ∧
    assembleLine (params .devnode) "SB.ADVANCE act, 127 ; wrap".toList = some [.present (.cmd 0x14807F)] ∧
    assembleLine (params .devnode) "TEARDOWN".toList = some [.present (.cmd 0x200000), .present (.cmd 0x030000)] ∧
    assembleLine (params .devnode) "TEXT \".5\"".toList =
      some [.present (.cmd 0x100000), .compile ⟨['.', '5'], false, false, false⟩] ∧
    assembleLine (params .devnode) "SB.APPEND 256".toList = none := by decide

/-! ### Commands -/

/-- V-M10: the initialisation fails. -/
theorem test_wtInit_fails :
    shows (exec .wtInit { start with initOkIn := [false] }) (fun t => (t.responses, t.diag)) =
      some ([0x8100], [.initializationFailure .devnode]) ∧
    shows (exec .wtInit { start with initOkIn := [false] }) (fun t => (t.sess, t.stopReq, t.rph, t.wst)) =
      some (.destroyed, true, .rHalted, .uninit) := by decide

/-- V-E25: the second initialisation is refused. -/
theorem test_wtInit_twice : shows (exec .wtInit ready) (fun t => (t.responses, t.diag, t.sess)) =
    some ([0x8700], [.badState (some 0x01)], .ready) := by decide

/-- V-W1: the frame is taken, bit 15 first. -/
theorem test_wtSend_starts : shows (exec (.wtSend 0xA5 0x3C) ready) (fun t => (t.sh, t.bitn, t.fph, t.fown, t.responses)) =
    some (0xA53C, 15, .fLoadA, .host, []) := by decide

/-- V-W8: no session, no frame. -/
theorem test_wtSend_uninit : shows (exec (.wtSend 0xA5 0x3C) start) (fun t => (t.responses, t.diag, t.fph)) =
    some ([0x8400], [.transportFailure 0xA53C], .fIdle) := by decide

/-- V-P1. -/
theorem test_wtWrite2_starts : shows (exec (.wtWrite2 [0x0A, 0x0F]) ready) (fun t => (t.sh, t.fph)) =
    some (0x0A0F, .fLoadA) := by decide

/-- V-P4: four bytes are not two frames. -/
theorem test_wtWrite2_four : shows (present ready (.bytes [0x01, 0x30, 0x02, 0x6D])) (fun t => (t.diag, t.fph)) =
    some ([.transportLength 4], .fIdle) := by decide

/-- V-P7. -/
theorem test_wtClose_uninit : shows (exec .wtClose start) (fun t => (t.rph, t.wst, t.sess, t.responses)) =
    some (.rHalted, .closed, .destroyed, [0x0000]) := by decide

/-- V-P8: held. -/
theorem test_wtClose_held : exec .wtClose { ready with rph := .rSleep } = .next { ready with rph := .rSleep } := by rfl

/-- V-B5. -/
theorem test_sbReset : shows (exec .sbReset (banks { bank3 with cursor := 2 } bank3)) (fun t => (t.shadow, t.active)) =
    some (Bank.empty, bank3) := by decide

/-- V-B2: a blank glyph consumes a slot. -/
theorem test_sbAppend_blank : shows (exec (.sbAppend 0x00) (banks (bankOf [(0, 0x30)] 1 0) Bank.empty)) (fun t => t.shadow) =
    some (bankOf [(0, 0x30)] 2 0) := by decide

/-- V-B4: the 129th append. -/
theorem test_sbAppend_full : shows (exec (.sbAppend 0x30) (banks (bankOf [(0, 0x7E)] 128 0) Bank.empty))
    (fun t => (t.shadow, t.responses, t.diag)) = some (bankOf [(0, 0x7E)] 128 0, [0x8500], [.bufferFull 0x30]) := by decide

/-- V-B9: only the last slot. -/
theorem test_sbOrlast : shows (exec (.sbOrlast 0x80) (banks (bankOf [(0, 0x30), (1, 0x6D)] 2 0) Bank.empty))
    (fun t => t.shadow) = some (bankOf [(0, 0x30), (1, 0xED)] 2 0) := by decide

/-- V-B10. -/
theorem test_sbOrlast_empty : shows (exec (.sbOrlast 0x80) start) (fun t => (t.responses, t.diag)) =
    some ([0x8300], [.boundsViolation 0xFF]) := by decide

/-- V-B17: the first commit starts the sequencer. -/
theorem test_sbCommit_starts : shows (exec .sbCommit start) (fun t => (t.act, t.rph, t.responses)) =
    some (true, .rBegin, [0x0000]) := by decide

/-- V-B19: held mid-cycle. -/
theorem test_sbCommit_held : exec .sbCommit { ready with rph := .rWait } = .next { ready with rph := .rWait } := by rfl

/-- V-A8 and V-A9: the wrap, and an index outside the prefix. -/
theorem test_sbAdvance :
    shows (exec (.sbAdvance false 2) (banks bank3 Bank.empty)) (fun t => (t.responses, t.diag)) = some ([0x0000], []) ∧
    shows (exec (.sbAdvance false 3) (banks bank3 Bank.empty)) (fun t => (t.responses, t.diag)) =
      some ([0x8303], [.boundsViolation 3]) := by decide

/-- V-A3 and V-A15: the empty bank, and index 255. -/
theorem test_sbAdvance_ends :
    shows (exec (.sbAdvance true 255) start) (fun t => (t.responses, t.diag)) = some ([0x00FF], []) ∧
    shows (exec (.sbAdvance true 255) (banks Bank.empty (bankOf [] 128 0))) (fun t => (t.responses, t.diag)) =
      some ([0x83FF], [.boundsViolation 255]) := by decide

/-- V-B12 and V-B13. -/
theorem test_sbRead :
    shows (exec (.sbRead true 1) (banks Bank.empty (bankOf [(0, 0x30), (1, 0x6D)] 2 1))) (fun t => (t.responses, t.diag)) =
      some ([0x006D], []) ∧
    shows (exec (.sbRead true 2) (banks Bank.empty (bankOf [(0, 0x30), (1, 0x6D)] 2 1))) (fun t => (t.responses, t.diag)) =
      some ([0x8300], [.boundsViolation 2]) := by decide

/-- V-L12: an idle sequencer halts, a running one goes on. -/
theorem test_rlStop :
    shows (exec .rlStop start) (fun t => (t.stopReq, t.rph, t.responses)) = some (true, .rHalted, [0x0000]) ∧
    shows (exec .rlStop { ready with rph := .rWait, pos := 3 }) (fun t => (t.stopReq, t.rph)) = some (true, .rWait) := by
  decide

/-- V-E26 and V-E27: after the session is destroyed. -/
theorem test_destroyed :
    shows (present gone (.cmd 0x110030)) (fun t => (t.responses, t.diag)) = some ([0x8700], [.badState (some 0x11)]) ∧
    shows (present gone (.cmd 0x7F0000)) (fun t => (t.responses, t.diag)) = some ([0x8600], [.illegalCommand 0x7F0000]) := by
  decide

/-! ### The engines -/

/-- V-M1, V-M3, V-M5 and V-M6: the word a direction update writes. -/
theorem test_fselWord :
    fselWord 0xFFFFFFFF 21 1 = 0xFF3FFFFF ∧ fselWord 0x00024000 3 1 = 0x00024008 ∧ fselWord 0x00000020 3 1 = 0x00000008 ∧
    fselWord 0x12345678 27 1 = 0x0A345678 := by decide

/-- V-M9: the strobes of the three pins. -/
theorem test_strobes :
    ((start .mmio).pinEvent .load true).bus = [.write 0x1C 0x00000100] ∧
    ((start .mmio).pinEvent .clk false).bus = [.write 0x28 0x00000800] ∧
    ((start .mmio).pinEvent .din true).bus = [.write 0x1C 0x00000400] := by decide

/-- V-M7: the six accesses of an initialisation. -/
theorem test_init_accesses :
    shows (runTurns (List.replicate 6 .wt) { start .mmio with iph := .readLoad1 }) (fun t => (t.bus, t.wst, t.sess, t.responses)) =
    some ([.read 0x00 0x00000000, .write 0x00 0x01000000, .read 0x04 0x00024000, .write 0x04 0x00024008,
      .read 0x04 0x00024008, .write 0x04 0x00024009], .ready, .ready, [0x0000]) := by decide

/-- V-M8: the fourth access writes the older word back. -/
theorem test_lost_update :
    shows (runTurns [.wt, .wt, .wt, .gpio 0x04 0x00064000, .wt] { start .mmio with iph := .readLoad1 })
      (fun t => t.fselRead 0x04) = some 0x00024008 := by decide

/-- The first digit frame of V-L1's cycle: digit 7, the glyph at the cursor. -/
theorem test_issue :
    shows (rlStep { ready with rph := .rIssue, pos := 0, idx := 1, bank0 := bank3 }) (fun t => (t.sh, t.fown, t.rph)) =
      some (0x086D, .rl, .rWait) := by decide

/-- V-L8: a dropped frame moves nothing to another digit. -/
theorem test_issue_dropped :
    shows (rlStep { ready with rph := .rIssue, pos := 2, idx := 2, bank0 := bank3, xfailIn := [true] })
      (fun t => (t.diag, t.idx, t.rph, t.fph)) = some ([.transportFailure 0x0679], 2, .rNext, .fIdle) := by decide

/-- A frame of the host is in flight: the sequencer waits in `ISSUE` (42_refresh R132). -/
theorem test_issue_waits :
    rlStep { ready with rph := .rIssue, fph := .fDin, bank0 := bank3 } =
      .next { ready with rph := .rIssue, fph := .fDin, bank0 := bank3 } := by rfl

/-- V-L3: the cursor wraps at the end of a cycle. -/
theorem test_cursor_wraps : (rlEnd { ready with rph := .rEnd, bank0 := { bank3 with cursor := 2 } }).bank0.cursor = 0 := by decide

/-- V-X1: after its sixteen rising edges the receiver holds the frame and delivers it. -/
theorem test_receiver :
    (Receiver.observeAll { clkShifts := false, loadPairs := false, dinReads := false } true
      { sr := 0xDEAD, out := 0, delivered := [], load := .unknown, clk := .unknown, din := .unknown }
      (frameEvents true 0xA53C)).delivered = [0xA53C] := by decide

/-! ### Text -/

/-- V-T1, V-T3, V-T7: the words of a text. -/
theorem test_text :
    compileChars (params .devnode) "1.2.3".toList 0 false =
      [.present (.cmd 0x110030), .present (.cmd 0x120080), .present (.cmd 0x11006D), .present (.cmd 0x120080),
        .present (.cmd 0x110079)] ∧
    compileChars (params .devnode) ".5".toList 0 false = [.present (.cmd 0x110080), .present (.cmd 0x12005B)] ∧
    compileChars (params .devnode) "1?".toList 0 false =
      [.present (.cmd 0x110030), .report '?', .present (.cmd 0x110000)] := by decide

/-- 43_text_compile R151: a leading dot is appended, and the next character merges into it. -/
theorem test_compile_leading_dot :
    shows (hostTurn { start with hostq := [.compile (Compile.start ['.', '5'])] }) (fun t => (t.shadow, t.hostq)) =
      some (bankOf [(0, 0x80)] 1 0, [.compile ⟨['5'], true, false, false⟩]) ∧
    shows (hostTurn { banks (bankOf [(0, 0x80)] 1 0) Bank.empty with hostq := [.compile ⟨['5'], true, false, false⟩] })
      (fun t => (t.shadow, t.hostq)) = some (bankOf [(0, 0xDB)] 1 0, [.compile ⟨[], false, false, false⟩]) := by decide

/-- 43_text_compile R154: the event first, then a blank glyph. -/
theorem test_compile_reports :
    shows (hostTurn { start with hostq := [.compile (Compile.start ['?'])] }) (fun t => (t.diag, t.responses, t.hostq)) =
      some ([.encodingFailure '?'], [], [.compile ⟨['?'], false, false, true⟩]) ∧
    shows (hostTurn { start with hostq := [.compile ⟨['?'], false, false, true⟩] }) (fun t => (t.shadow, t.hostq)) =
      some (bankOf [] 1 0, [.compile ⟨[], false, false, false⟩]) := by decide

/-- 43_text_compile R155: the refused append ends the loop, and the next turn commits. -/
theorem test_compile_full :
    shows (hostTurn { banks (bankOf [] 128 0) Bank.empty with hostq := [.compile ⟨['1', '.'], false, false, false⟩] })
      (fun t => (t.responses, t.hostq)) = some ([0x8500], [.compile ⟨['.'], false, true, false⟩]) ∧
    shows (hostTurn { start with hostq := [.compile ⟨['.'], false, true, false⟩] }) (fun t => (t.act, t.hostq)) =
      some (true, []) := by decide

/-- 43_text_compile R151 in a destroyed session: `n` stays 0, so the second leading dot is an append too; and a refusal that
is no `BufferFull` does not end the loop. -/
theorem test_compile_destroyed :
    shows (hostTurn { gone with hostq := [.compile ⟨['.', '1'], true, false, false⟩] }) (fun t => (t.diag, t.hostq)) =
      some ([.badState (some 0x11)], [.compile ⟨['1'], true, false, false⟩]) ∧
    shows (hostTurn { gone with hostq := [.compile ⟨['1', '2'], false, false, false⟩] }) (fun t => (t.diag, t.hostq)) =
      some ([.badState (some 0x11)], [.compile ⟨['2'], false, false, false⟩]) := by decide

/-- 70_reset R205 (1): a failed initialisation leaves nothing of the startup, an accepted one all of it. -/
theorem test_boot_decides :
    shows (hostTurn { gone with
      responses := [0x8100], hostq := [.stopIfFailed 1, .present (.cmd 0x100000), .present (.cmd 0x030000)] })
      (fun t => (t.hostq, t.responses, t.diag)) = some ([.present (.cmd 0x030000)], [0x8100], []) ∧
    shows (hostTurn { ready with
      responses := [0x0000], hostq := [.stopIfFailed 1, .present (.cmd 0x100000), .present (.cmd 0x030000)] })
      (fun t => t.hostq) = some [.present (.cmd 0x100000), .present (.cmd 0x030000)] := by decide

/-- V-T10: the message a text leaves. -/
theorem test_message : messageGlyphs (params .devnode) ".5.2".toList [] false = [0xDB, 0x6D] := by decide

/-! ### The hypotheses of the statements can be met

One theorem per statement with hypotheses, named after it; where the statement has several clauses, one conjunct each, at
the ends of the ranges. -/

/-- A frame of the host, and of the sequencer, in flight. -/
def hostFrame (b : Backend := .devnode) : State := { ready b with fph := .fLoadA, bitn := 15, sh := 0xA53C }
def rlFrame : State := { hostFrame with fown := .rl, rph := .rWait, bank0 := bank3 }

theorem witness_DecodeOfEncode :
    (Instr.wtWrite2 [0x00, 0xFF]).wellFormed = true ∧ (Instr.sbAdvance true 255).wellFormed = true := by decide

theorem witness_EncodeOfDecode :
    decodeRequest (.cmd 0x14807F) = .ok (.sbAdvance true 127) ∧
    decodeRequest (.bytes [0x0A, 0x0F]) = .ok (.wtWrite2 [0x0A, 0x0F]) := by decide

theorem witness_DecoderFollowsOpcodeTable :
    decodeCmd 0x0200FF#24 = .ok (.wtSend 0x00 0xFF) ∧ (⟨"SB.READ", 0x150000#24, 0xFF7F00#24⟩ : OpcodeRow) ∈ opcodeRows ∧
    (⟨"SB.READ", 0x150000#24, 0xFF7F00#24⟩ : OpcodeRow).hits 0x1580FF#24 = true ∧
    ∀ row ∈ opcodeRows, row.hits 0x154000#24 = false := by decide

/-- A word that decodes, an illegal word, a write of a wrong length, a report. -/
theorem witness_StepRunsPresentedCommand :
    (∀ moves : List HostMove, ∃ s : State, s.sched = [.host] ∧ s.hostWaiting = false ∧ s.hostq = moves) ∧
    decodeRequest (.cmd 0x200000) = .ok .rlStop ∧ decodeRequest (.cmd 0x7F0000) = .error (.illegalCommand 0x7F0000) ∧
    decodeRequest (.bytes [0x0A]) = .error (.badLength 1) :=
  ⟨fun moves => ⟨{ start with sched := [.host], hostq := moves }, rfl, rfl, rfl⟩, by decide, by decide, by decide⟩

theorem witness_WaitingHostPresentsNothing :
    (∃ s : State, s.sched = [.host] ∧ s.iph ≠ .none0) ∧
    ∃ s : State, s.sched = [.host] ∧ s.fph ≠ .fIdle ∧ s.fown = .host :=
  ⟨⟨{ start .mmio with sched := [.host], iph := .writeDin6 }, rfl, by decide⟩,
    ⟨{ hostFrame with sched := [.host] }, rfl, by decide, rfl⟩⟩

theorem witness_RequestChecksInOrder :
    (∀ row ∈ opcodeRows, row.hits 0x110130#24 = false) ∧ (∃ row ∈ opcodeRows, row.hits 0x110030#24 = true) ∧
    gone.sess = .destroyed ∧ ready.sess = .ready ∧ (∃ row ∈ opcodeRows, row.hits 0x010000#24 = true) ∧
    start.sess ≠ .destroyed ∧ start.sess = .uninit ∧ (0x110030#24 ≠ 0x010000#24) := by decide

theorem witness_OneResponsePerCommand :
    ready.hostWaiting = false ∧ (∃ t, exec .rlStop ready = .next t) ∧ (∃ t, exec (.wtSend 0xA5 0x3C) ready = .next t) ∧
    rlFrame.hostWaiting = false ∧ exec (.wtSend 0xA5 0x3C) rlFrame = .next rlFrame :=
  ⟨rfl, ⟨_, rfl⟩, ⟨_, rfl⟩, rfl, rfl⟩

theorem witness_ResponseReportsTheEvent :
    (∃ t, exec .rlStop ready = .next t) ∧ ∃ t, exec (.sbAppend 0x30) gone = .next t := ⟨⟨_, rfl⟩, ⟨_, rfl⟩⟩

theorem witness_AdvanceIsCircularSuccessor :
    (0#8).toNat < bank3.length.toNat ∧ (2#8).toNat < bank3.length.toNat ∧ (127#8).toNat < (bankOf [] 128 0).length.toNat ∧
    (bankOf [] 1 0).length = 1 ∧ Bank.empty.length = 0 := by decide

theorem witness_AdvanceTestsInOrder :
    Bank.empty.length.toNat = 0 ∧ 0 < bank3.length.toNat ∧ bank3.length.toNat ≤ (3#8).toNat ∧
    bank3.length.toNat ≤ (255#8).toNat ∧ (2#8).toNat + 1 = bank3.length.toNat ∧ (1#8).toNat + 1 < bank3.length.toNat := by
  decide

theorem witness_SbAdvanceRespondsSuccessor :
    start.sess ≠ .destroyed ∧ (start.bank start.act).length.toNat = 0 ∧
    ((banks bank3 Bank.empty).bank (!start.act)).length.toNat = 3 ∧ (2#8).toNat < 3 ∧ 3 ≤ (3#8).toNat := by decide

theorem witness_SbReadRespondsGlyph :
    start.sess ≠ .destroyed ∧ (start.bank start.act).length.toNat = 0 ∧ bank3.length.toNat ≤ Config.capacity ∧
    (bankOf [] 128 0).length.toNat ≤ Config.capacity ∧ (127#8).toNat < (bankOf [] 128 0).length.toNat ∧
    (bankOf [] 128 0).length.toNat ≤ (128#8).toNat := by decide

theorem witness_SbResetClearsShadowBank : (banks bank3 Bank.empty).sess ≠ .destroyed := by decide

theorem witness_SbAppendWritesAtLength :
    start.sess ≠ .destroyed ∧ start.shadow.data.wf = true ∧ start.shadow.length.toNat < Config.capacity ∧
    (banks (bankOf [] 127 0) Bank.empty).shadow.length.toNat < Config.capacity ∧
    (banks (bankOf [] 128 0) Bank.empty).shadow.length.toNat = Config.capacity := by decide

theorem witness_SbOrlastMarksNewestGlyph :
    start.sess ≠ .destroyed ∧ bank3.data.wf = true ∧ 0 < (banks (bankOf [] 1 0) Bank.empty).shadow.length.toNat ∧
    (banks (bankOf [] 128 0) Bank.empty).shadow.length.toNat ≤ Config.capacity ∧ start.shadow.length.toNat = 0 := by decide

theorem witness_SbCommitSwapsBetweenCycles :
    rlFrame.sess ≠ .destroyed ∧ rlFrame.rph = .rWait ∧ start.sess ≠ .destroyed ∧ start.rph = .rIdle := by decide

theorem witness_DoubleBufferingKeepsBanksApart :
    (∃ t, exec (.sbAppend 0x30) start = .next t) ∧ (∃ t, exec .sbCommit start = .next t ∧ t.act ≠ start.act) ∧
    ∃ t, takeTurn .rl { start with rph := .rEnd } = .next t :=
  ⟨⟨_, rfl⟩, ⟨_, rfl, by decide⟩, ⟨_, rfl⟩⟩

theorem witness_WtInitAcceptance :
    (start .devnode).sess = .uninit ∧ ({ start with initOkIn := [true] } : State).nextInitOk = true ∧
    ({ start with initOkIn := [false] } : State).nextInitOk = false ∧ (start .devnode).cfg.backend = .devnode ∧
    (start .mmio).cfg.backend = .mmio := by decide

theorem witness_InitialisationMakesPinsOutputs :
    ∃ s : State, s.iph = .readLoad1 ∧ s.fph = .fIdle ∧ Store.wf (fselUnlisted s.cfg.toParams) s.fsel = true :=
  ⟨{ start .mmio with iph := .readLoad1 }, by decide⟩

theorem witness_DirectionWriteKeepsOtherFields : (29 : Nat) ≤ 29 ∧ (0 : Nat) ≤ 29 := by decide

theorem witness_LostUpdateOfOtherFields :
    ∀ l : Line, ∃ s : State, s.iph = InitPhase.reading l ∧ s.fph = .fIdle ∧
      Store.wf (fselUnlisted s.cfg.toParams) s.fsel = true :=
  fun l => ⟨{ start .mmio with iph := InitPhase.reading l }, by cases l <;> decide⟩

theorem witness_WtSendStartsOrDropsFrame :
    (0xA53C#16).toNat = (0xA5#8).toNat * 256 + (0x3C#8).toNat ∧ rlFrame.sess ≠ .destroyed ∧ rlFrame.fph ≠ .fIdle ∧
    ready.fph = .fIdle ∧ ready.wst = .ready ∧ ready.nextXfail = false ∧
    ({ ready with xfailIn := [true] } : State).nextXfail = true ∧ start.sess ≠ .destroyed ∧ start.fph = .fIdle ∧
    start.wst ≠ .ready := by decide

theorem witness_WtWrite2IsOneFrame :
    ready.sess ≠ .destroyed ∧ ready.fph = .fIdle ∧ ready.wst = .ready ∧ ready.nextXfail = false ∧
    ([] : List Byte).length ≠ 2 ∧ ([1, 2, 3] : List Byte).length ≠ 2 ∧ gone.sess = .destroyed := by decide

theorem witness_WtCloseWaitsThenDestroys :
    hostFrame.sess ≠ .destroyed ∧ hostFrame.fph ≠ .fIdle ∧ rlFrame.rph ≠ .rIdle ∧ rlFrame.rph ≠ .rHalted ∧
    start.sess ≠ .destroyed ∧ start.fph = .fIdle ∧ start.rph = .rIdle := by decide

theorem witness_PinEventIsOneStrobe :
    (start .devnode).cfg.backend = .devnode ∧ (start .mmio).cfg.backend = .mmio := by decide

theorem witness_StrobeActsOnItsBitsOnly :
    Store.wf latchUnlisted (start .mmio).out = true ∧ pinRow 14 0x04 12 14 ∈ (start .mmio).cfg.pins ∧ (∃ q ∈ (start .mmio).cfg.pins, q.setOff = 0x1C) ∧
    ∃ q ∈ (start .mmio).cfg.pins, q.clrOff = 0x28 := by decide

theorem witness_OtherUsersLeaveOwnPins : Store.wf (fselUnlisted (start .mmio).cfg.toParams) (start .mmio).fsel = true := by decide

theorem witness_FrameRunsToCompletion :
    (hostFrame .mmio).fph = .fLoadA ∧ (hostFrame .mmio).bitn = 15 ∧ (hostFrame .mmio).cfg.backend = .mmio ∧
    (hostFrame .mmio).fown = .host ∧ rlFrame.fph = .fLoadA ∧ rlFrame.bitn = 15 ∧
    rlFrame.cfg.backend = .devnode ∧ rlFrame.fown = .rl := by decide

theorem witness_DinChangesOnlyWhileClkLow :
    ∃ s t : State, s.ClkLowInBit ∧ step s = .next t ∧ t.trace = s.trace ++ [.pin .din true] :=
  ⟨{ hostFrame with fph := .fDin, lines := ⟨.hi, .lo, .lo⟩, sh := 0x8000, sched := [.wt] }, _, by decide, rfl, by decide⟩

/-- In `ISSUE`: with a frame of the host, and one of its own, in flight; inside the bank, outside it, and with an empty
bank; with the transport not ready, with a dropped frame, with a frame that is sent. -/
theorem witness_IssueWaitsThenOffersFrame :
    (∃ s : State, s.rph = .rIssue ∧ s.fph ≠ .fIdle ∧ s.fown = .host) ∧
    (∃ s : State, s.rph = .rIssue ∧ s.fph ≠ .fIdle ∧ s.fown = .rl) ∧
    (∃ s : State, s.rph = .rIssue ∧ s.fph = .fIdle ∧ s.active.length.toNat ≤ Config.capacity ∧
      s.idx.toNat + 1 = s.active.length.toNat ∧ s.wst ≠ .ready) ∧
    (∃ s : State, s.rph = .rIssue ∧ s.fph = .fIdle ∧ s.active.length.toNat ≤ Config.capacity ∧
      0 < s.active.length.toNat ∧ s.idx.toNat = s.active.length.toNat ∧ s.wst = .ready ∧ s.nextXfail = true) ∧
    ∃ s : State, s.rph = .rIssue ∧ s.fph = .fIdle ∧ s.active.length.toNat = 0 ∧ s.wst = .ready ∧ s.nextXfail = false :=
  ⟨⟨{ hostFrame with rph := .rIssue }, by decide⟩, ⟨{ rlFrame with rph := .rIssue }, by decide⟩,
    ⟨{ start with rph := .rIssue, bank0 := bank3, idx := 2 }, by decide⟩,
    ⟨{ ready with rph := .rIssue, bank0 := bank3, idx := 3, xfailIn := [true] }, by decide⟩,
    ⟨{ ready with rph := .rIssue }, by decide⟩⟩

theorem witness_CycleShowsCircularWindow :
    ∃ s : State, s.rph = .rBegin ∧ s.fph = .fIdle ∧ s.wst = .ready ∧ s.active.Good ∧
      s.xfailIn = [false, false, true, false, false, false, false, false] ++ [true] :=
  ⟨{ ready with
      rph := .rBegin
      bank0 := bankOf bank3.data 3 2
      xfailIn := [false, false, true, false, false, false, false, false, true] }, by decide⟩

theorem witness_CycleWithoutTransport :
    ∃ s : State, s.rph = .rBegin ∧ s.fph = .fIdle ∧ s.wst ≠ .ready ∧ s.active.Good :=
  ⟨{ start with rph := .rBegin, bank0 := bank3 }, by decide⟩

theorem witness_SleepEndsByTimerOrStop :
    ({ start with rph := .rSleep } : State).rph = .rSleep ∧ ({ start with rph := .rSleep } : State).stopReq = false ∧
    ({ start with rph := .rSleep, stopReq := true } : State).stopReq = true := by decide

theorem witness_RlStopRaisesStop : start.sess ≠ .destroyed ∧ rlFrame.sess ≠ .destroyed := by decide

theorem witness_IdleIsLeftOnce :
    ∃ s t : State, s.Inv ∧ step s = .next t ∧ s.rph = .rIdle ∧ t.rph = .rBegin :=
  ⟨{ start with sched := [.host], hostq := [.present (.cmd 0x130000)] }, _, by decide, rfl, rfl, rfl⟩

theorem witness_StopIsReachedWithinBound :
    ∃ s : State, s.Inv ∧ s.iph = .none0 ∧ s.stopReq = true ∧ s.rph = .rWait := ⟨{ rlFrame with stopReq := true }, by decide⟩

theorem witness_StepKeepsInvariant :
    ∃ s t : State, s.Inv ∧ step s = .next t ∧ t.rph = .rNext :=
  ⟨{ rlFrame with fph := .fLoadR, sched := [.wt] }, _, by decide, rfl, rfl⟩

theorem witness_NoStepStops : (banks bank3 bank3).Inv ∧ rlFrame.Inv ∧ gone.Inv :=
  ⟨by decide, by decide, by decide⟩

theorem witness_SequencerNeverViolatesBounds :
    ∃ s t : State, s.Inv ∧ takeTurn .rl s = .next t ∧ t.diag ≠ s.diag :=
  ⟨{ start with rph := .rIssue, bank0 := bank3, idx := 2 }, _, by decide, rfl, by decide⟩

theorem witness_NoStepUndoesTheseThings :
    ∃ s t : State, step s = .next t ∧ s.Inv ∧ s.stopReq = true ∧ s.sess = .destroyed ∧ s.rph = .rHalted :=
  ⟨{ gone with stopReq := true, sched := [.rl] }, _, rfl, by decide⟩

theorem witness_NoEngineStepAtReset :
    start = { State.reset with
      cfg := start.cfg, hostq := start.hostq, sched := start.sched, initOkIn := start.initOkIn, xfailIn := start.xfailIn,
      draws := start.draws } := rfl

theorem witness_EndedRunStaysEnded : gone.Ended := by decide

theorem witness_UnspecifiedRegistersDoNotMatter :
    start.Inv ∧ SameButUnread start { start with pos := 5, idx := 200, sh := 0xDEAD, bitn := 9, fown := .rl, ftmp := 7 } :=
  ⟨by decide, rfl, by decide, by decide, by decide⟩

theorem witness_BadConfigurationRefused :
    ((start .mmio).cfg.clkPin ∈ (start .mmio).cfg.pins) ∧ (params .mmio).ok = true ∧ (params .devnode).ok = true ∧
    ({ params .mmio with dpMask := 0xC0 } : Params).ok = false ∧
    ({ params .mmio with clkPin := { (params .mmio).clkPin with setOff := 0x1E } } : Params).ok = false ∧
    ({ params .mmio with dinPin := { (params .mmio).dinPin with fselOff := 0x1000 } } : Params).ok = false ∧
    ({ params .mmio with clkPin := pinRow 8 0x04 3 11 } : Params).ok = false ∧
    ({ params .mmio with tSettle := 1 } : Params).ok = false := by decide

/-- After the loop, by its end and by `full`; a dot in an empty bank and in another; a character with a glyph, without one
before and after its report, with a leading dot and without. -/
theorem witness_TextCompileFollowsRule :
    (∀ moves : List HostMove, ∃ s : State, s.sched = [.host] ∧ s.hostWaiting = false ∧ s.hostq = moves ∧
      s.shadow = start.shadow ∧ s.cfg = start.cfg) ∧
    start.shadow.length.toNat = 0 ∧ start.cfg.glyphOf '1' = some 0x30 ∧ start.cfg.glyphOf '?' = none ∧
    (∃ s : State, s.hostWaiting = false ∧ s.shadow.length.toNat ≠ 0 ∧ ∃ t, exec (.sbOrlast 0x80) s = .next t) ∧
    (∃ t, exec (.sbAppend 0x80) start = .next t) ∧ ∃ t, exec (.sbOrlast 0x80) start = .next t :=
  ⟨fun moves => ⟨{ start with sched := [.host], hostq := moves }, rfl, rfl, rfl, rfl, rfl⟩, by decide, by decide, by decide,
    ⟨banks bank3 Bank.empty, rfl, by decide, _, rfl⟩, ⟨_, rfl⟩, ⟨_, rfl⟩⟩

theorem witness_TextLeavesItsMessage :
    ∃ s : State, s.sess ≠ .destroyed ∧ s.hostWaiting = false ∧
      s.hostq = (Pseudo.text ['.', '5']).expand s.cfg.toParams ++ [] :=
  ⟨{ start with hostq := [.present (.cmd 0x100000), .compile (Compile.start ['.', '5'])] }, by decide, by decide, by decide⟩

theorem witness_TextInDestroyedSessionIsRefused :
    ∃ s : State, s.sess = .destroyed ∧ s.hostWaiting = false ∧
      s.hostq = (Pseudo.text ['.', '.', '5', '?']).expand s.cfg.toParams ++ [] ∧
      refusedText s.cfg.toParams s.shadow.length.toNat ['.', '.', '5', '?'] =
        [.badState (some 0x10), .badState (some 0x11), .badState (some 0x11), .badState (some 0x12),
          .encodingFailure '?', .badState (some 0x11), .badState (some 0x13)] :=
  ⟨{ gone with hostq := [.present (.cmd 0x100000), .compile (Compile.start ['.', '.', '5', '?'])] },
    by decide, by decide, by decide, by decide⟩

/-- A boot whose initialisation fails, and one that finds the session ready; under either backend, one that succeeds. -/
theorem witness_BootStopsIfInitFails :
    (∀ moves : List HostMove, ∀ b : Bool, ∃ s : State, s.hostWaiting = false ∧ s.hostq = moves ∧ s.sess = .uninit ∧
      s.cfg = platform .devnode ∧ s.nextInitOk = b) ∧
    (∀ moves : List HostMove, ∃ s : State, s.hostWaiting = false ∧ s.hostq = moves ∧ s.cfg = platform .devnode ∧
      s.sess ≠ .uninit) ∧
    ∀ moves : List HostMove, ∃ s : State, s.hostWaiting = false ∧ s.hostq = moves ∧ s.cfg = platform .mmio ∧
      s.sess = .uninit ∧ s.nextInitOk = true ∧ s.fph = .fIdle ∧ s.cfg.backend = .mmio :=
  ⟨fun moves b => ⟨{ start with hostq := moves, initOkIn := [b] }, rfl, rfl, rfl, rfl, rfl⟩,
    fun moves => ⟨{ ready with hostq := moves }, rfl, rfl, rfl, fun h => by cases h⟩,
    fun moves => ⟨{ start .mmio with hostq := moves, initOkIn := [true] }, rfl, rfl, rfl, rfl, rfl, rfl, rfl⟩⟩

end Sys2Proof.Tests
end

section
/-! SUPPORT. Everything the wire engine's turn can do, said once in the manner of `exec_next`, and what the other
turns' laws leave to say. -/

namespace Sys2Proof.Machine

section

variable {s t : State}

/-! ### The wire engine's turn -/

/-- A direction update's write reaches one function-select register, and the bus history. -/
theorem dirWrite_eq {r : PinRow} (hr : r ∈ s.cfg.pins) :
    dirWrite s r = { s.fselWrite r.fselOff (fselWord s.ftmp r.fselShift.val s.cfg.fselOut) with
      bus := s.bus ++ [.write r.fselOff (fselWord s.ftmp r.fselShift.val s.cfg.fselOut)] } := by
  unfold dirWrite State.busWrite
  rw [State.gpioEffect_fsel hr]

/-- A pin event with the accesses it makes on the bus left open. -/
theorem State.pinEvent_eq (s : State) (l : Line) (level : Bool) :
    ∃ ws, s.pinEvent l level = { s with
      lines := s.lines.set l (Level.ofBool level), trace := s.trace ++ [.pin l level], bus := s.bus ++ ws } :=
  ⟨_, by rw [← s.pinEvent_bus l level]; exact s.pinEvent_frame l level⟩

/-- The next states of the wire engine's turn: a frame step inside the frame, its last step, an access of an
initialisation, its last one. -/
inductive WtTo (s : State) : State → Prop
  | stays (hf : s.fph = .fIdle) (hi : s.iph = .none0) : WtTo s s
  | frame (hf : s.fph ≠ .fIdle) (f : FramePhase) (hn : f ≠ .fIdle) (n : BitVec 4) (ls : Lines) (es : List WireEvent)
      (ws : List BusAccess) :
      WtTo s { s with fph := f, bitn := n, lines := ls, trace := s.trace ++ es, bus := s.bus ++ ws }
  | completes (hf : s.fph = .fLoadR) : WtTo s (s.loadEvent true).completeFrame
  | reads (hf : s.fph = .fIdle) (hi : s.iph ≠ .none0) (p : InitPhase) (hp : p ≠ .none0) (r : PinRow)
      (hr : r ∈ s.cfg.pins) : WtTo s { dirRead s r with iph := p }
  | writes (hf : s.fph = .fIdle) (hi : s.iph ≠ .none0) (p : InitPhase) (hp : p ≠ .none0) (r : PinRow)
      (hr : r ∈ s.cfg.pins) : WtTo s { dirWrite s r with iph := p }
  | ready (hf : s.fph = .fIdle) (hi : s.iph = .writeDin6) : WtTo s (initDone (dirWrite s s.cfg.dinPin))

theorem WtTo.ofPinEvent (hf : s.fph ≠ .fIdle) (l : Line) (level : Bool) {f : FramePhase} (hn : f ≠ .fIdle) :
    WtTo s { s.pinEvent l level with fph := f } := by
  obtain ⟨ws, h⟩ := s.pinEvent_eq l level
  rw [h]
  exact .frame hf f hn s.bitn _ [.pin l level] ws

theorem WtTo.ofDelay (hf : s.fph ≠ .fIdle) {f : FramePhase} (hn : f ≠ .fIdle) (n : BitVec 4) :
    WtTo s { s.delayEvent with bitn := n, fph := f } := by
  have := WtTo.frame hf f hn n s.lines [.delay] []
  rwa [List.append_nil] at this

theorem frameStep_to (hf : s.fph ≠ .fIdle) : WtTo s (frameStep s) := by
  cases hp : s.fph with
  | fIdle => exact absurd hp hf
  | fLoadA => rw [frameStep_loadA hp]; exact .ofPinEvent hf _ _ (by decide)
  | fClkLo => rw [frameStep_clkLo hp]; exact .ofPinEvent hf _ _ (by decide)
  | fDin => rw [frameStep_din hp]; exact .ofPinEvent hf _ _ (by decide)
  | fDly1 => rw [frameStep_dly1 hp]; exact .ofDelay hf (by decide) s.bitn
  | fClkHi => rw [frameStep_clkHi hp]; exact .ofPinEvent hf _ _ (by decide)
  | fDly2 =>
    by_cases hb : s.bitn = 0
    · rw [frameStep_dly2_last hp hb]; exact .ofDelay hf (by decide) s.bitn
    · rw [frameStep_dly2 hp hb]; exact .ofDelay hf (by decide) _
  | fLoadD => rw [frameStep_loadD hp]; exact .ofPinEvent hf _ _ (by decide)
  | fLoadR => rw [frameStep_loadR hp]; exact .completes hp

theorem initStep_to (hf : s.fph = .fIdle) : WtTo s (initStep s) := by
  have hm := fun l => Params.row_mem s.cfg.toParams l
  cases hi : s.iph with
  | none0 => rw [initStep_none hi]; exact .stays hf hi
  | readLoad1 => rw [initStep_readLoad hi]; exact .reads hf (by simp [hi]) _ (by decide) _ (hm .load)
  | writeLoad2 => rw [initStep_writeLoad hi]; exact .writes hf (by simp [hi]) _ (by decide) _ (hm .load)
  | readClk3 => rw [initStep_readClk hi]; exact .reads hf (by simp [hi]) _ (by decide) _ (hm .clk)
  | writeClk4 => rw [initStep_writeClk hi]; exact .writes hf (by simp [hi]) _ (by decide) _ (hm .clk)
  | readDin5 => rw [initStep_readDin hi]; exact .reads hf (by simp [hi]) _ (by decide) _ (hm .din)
  | writeDin6 => rw [initStep_writeDin hi]; exact .ready hf hi

/-- Everything the wire engine's turn can have done. -/
theorem wtStep_to (s : State) : WtTo s (wtStep s) := by
  by_cases hf : s.fph = .fIdle
  · rw [wtStep_free hf]; exact initStep_to hf
  · rw [wtStep_busy hf]; exact frameStep_to hf

/-! ### The other turns -/

/-- The timer wakes a sleeping sequencer or does nothing (42_refresh R140). -/
theorem timerWake_cases (s : State) :
    timerWake s = s ∨ (s.rph = .rSleep ∧ timerWake s = { s with rph := .rBegin }) := by
  by_cases h : s.rph = .rSleep ∧ s.stopReq = false
  · exact .inr ⟨h.1, timerWake_wakes h.1 h.2⟩
  · exact .inl (if_neg h)

/-- The end of a position: `idx` moves on, and the next position is issued or the cycle ends (42_refresh R134). -/
theorem rlNext_eq (s : State) :
    ∃ (n : BitVec 3) (p : RlPhase), (p = .rIssue ∨ p = .rEnd) ∧
      rlNext s = { s.raiseOpt (s.active.advance s.idx).2 with
        idx := (s.active.advance s.idx).1, pos := n, rph := p } := by
  unfold rlNext
  by_cases h : s.pos = 7
  · exact ⟨_, .rEnd, .inr rfl, if_pos h⟩
  · exact ⟨_, .rIssue, .inl rfl, if_neg h⟩

/-- A host that does not wait has no initialisation outstanding. -/
theorem State.iph_of_not_hostWaiting (h : s.hostWaiting = false) : s.iph = .none0 := by
  simp only [State.hostWaiting, Bool.or_eq_false_iff, bne_eq_false_iff_eq] at h
  exact h.1

/-- A destroyed session lets a command do nothing but be refused. -/
theorem ExecTo.of_destroyed {i : Instr} (h : ExecTo s i t) (hs : s.sess = .destroyed) :
    t = s.refuse (.badState (opOf i)) := by
  cases h with
  | closed => rfl
  | again h | initFails h | initDevnode h | initMmio h => rw [hs] at h; cases h
  | _ => contradiction

@[simp] theorem State.completeFrame_sess (s : State) : s.completeFrame.sess = s.sess := by
  unfold State.completeFrame State.wakeOwner
  cases s.fown <;> rfl

end

end Sys2Proof.Machine
end

section
/-! PROOFS. Every step keeps the invariant (O40), and reset meets it (O41). First what the invariant does not look at,
then one lemma per change it does look at, then the turns. -/

namespace Sys2Proof.Machine

section

variable {s t : State}

/-! ### What the invariant does not look at -/

theorem State.Inv.finish (h : s.Inv) (e : Option Diag) (v : Byte) : (s.finish e v).Inv := by cases e <;> exact h

theorem State.Inv.raiseOpt (h : s.Inv) (e : Option Diag) : (s.raiseOpt e).Inv := by cases e <;> exact h

theorem State.Inv.afterInitOk (h : s.Inv) : s.afterInitOk.Inv := by
  unfold State.afterInitOk
  split <;> exact h

theorem State.Inv.afterXfail (h : s.Inv) : s.afterXfail.Inv := by
  unfold State.afterXfail
  split <;> exact h

theorem State.Inv.afterTurn (h : s.Inv) : s.afterTurn.Inv := by
  unfold State.afterTurn
  split <;> exact h

theorem State.Inv.loadEvent (h : s.Inv) (b : Bool) : (s.loadEvent b).Inv := by
  rw [State.loadEvent, State.pinEvent_frame]
  exact h

/-! ### The banks and the read pointers -/

/-- A read pointer of a bank: one of the active slots, or 0 where there is none (40_scrollbuffer R85). -/
abbrev Bank.Points (b : Bank) (i : Byte) : Prop :=
  (0 < b.length.toNat → i.toNat < b.length.toNat) ∧ (b.length.toNat = 0 → i = 0)

theorem Bank.Good.points_cursor {b : Bank} (h : b.Good) : b.Points b.cursor := by
  obtain ⟨-, -, hc, hz, -⟩ := h
  exact ⟨hc, hz⟩

theorem Bank.Points.advance {b : Bank} {i : Byte} (h : b.Points i) : b.Points (b.advance i).1 := by
  by_cases h0 : b.length = 0
  · rw [Bank.advance_empty h0]
    exact h
  · have hpos : 0 < b.length.toNat := by bv_omega
    have hin := (Bank.advance_inside (h.1 hpos)).1
    exact ⟨fun _ => hin ▸ Nat.mod_lt _ hpos, fun hz => absurd hz hpos.ne'⟩

/-- A bank replaced by a good one; the active bank, which the sequencer reads, by one of the same length. -/
theorem State.Inv.setBank (h : s.Inv) {k : Bool} {b : Bank} (hb : b.Good)
    (hk : k = s.act → b.length = s.active.length) : (s.setBank k b).Inv := by
  obtain ⟨h0, h1, hidx, htr, hseq, hst⟩ := h
  have hlen : (s.setBank k b).active.length = s.active.length := by
    unfold State.active at hk ⊢
    rw [setBank_act]
    rcases Bool.eq_or_eq_not k s.act with rfl | rfl
    · rw [setBank_bank, hk rfl]
    · rw [setBank_bank_not']
  have hidx' : (s.setBank k b).IdxGood := by
    intro hr
    rw [hlen, setBank_idx]
    exact hidx (by simpa using hr)
  cases k
  · exact ⟨hb, h1, hidx', htr, hseq, hst⟩
  · exact ⟨h0, hb, hidx', htr, hseq, hst⟩

theorem State.Inv.setShadow (h : s.Inv) {b : Bank} (hb : b.Good) : (s.setShadow b).Inv :=
  h.setBank hb fun k => absurd k (by simp)

theorem State.Inv.active_good (h : s.Inv) : s.active.Good := by
  obtain ⟨h0, h1, -⟩ := h
  exact (s.banks_good.mp ⟨h0, h1⟩).1

theorem State.Inv.shadow_good (h : s.Inv) : s.shadow.Good := by
  obtain ⟨h0, h1, -⟩ := h
  exact (s.banks_good.mp ⟨h0, h1⟩).2

theorem State.Inv.idx_points (h : s.Inv) (hr : s.rph = .rIssue ∨ s.rph = .rWait ∨ s.rph = .rNext) :
    s.active.Points s.idx := by
  obtain ⟨-, -, hidx, -⟩ := h
  exact hidx hr

/-- An initialisation runs in an uninitialised session under MMIO only (10_state R38). -/
theorem State.Inv.initialising (h : s.Inv) (hp : s.iph ≠ .none0) : s.sess = .uninit ∧ s.cfg.backend = .mmio := by
  obtain ⟨-, -, -, ⟨-, -, -, hinit⟩, -, -⟩ := h
  exact hinit hp

/-- The sequencer waits exactly for its own frame (42_refresh R133). -/
theorem State.Inv.waits_iff (h : s.Inv) : s.rph = .rWait ↔ s.fph ≠ .fIdle ∧ s.fown = .rl := by
  obtain ⟨-, -, -, -, ⟨hwait, -, -⟩, -⟩ := h
  exact hwait

/-! ### The phases -/

/-- The sequencer moves between two phases that are not `WAIT`, its read pointer good where the new phase uses it. -/
theorem State.Inv.moveTo (h : s.Inv) (hr : s.rph ≠ .rWait) {p : RlPhase} (hp : p ≠ .rWait) (hp' : p ≠ .rIdle)
    (hh : s.rph = .rHalted → p = .rHalted) {i : Byte} (hi : p = .rIssue ∨ p = .rNext → s.active.Points i) :
    { s with idx := i, rph := p }.Inv := by
  obtain ⟨h0, h1, -, htr, ⟨hwait, -, hdes⟩, hst⟩ := h
  refine ⟨h0, h1, ?_, htr, ⟨?_, ?_, ?_⟩, hst⟩
  · rintro (k | k | k)
    · exact hi (.inl k)
    · exact absurd k hp
    · exact hi (.inr k)
  · exact iff_of_false hp fun k => hr (hwait.mpr k)
  · exact fun k => absurd k hp'
  · exact fun k => (hdes k).imp_right hh

theorem State.Inv.setRph (h : s.Inv) (hr : s.rph ≠ .rWait) {p : RlPhase} (hp : p ≠ .rWait) (hp' : p ≠ .rIdle)
    (hh : s.rph = .rHalted → p = .rHalted) (hi : p = .rIssue ∨ p = .rNext → s.active.Points s.idx) :
    { s with rph := p }.Inv :=
  h.moveTo hr hp hp' hh hi

/-! An abort, a close and a stop halt an idle sequencer; any other phase stays. -/

theorem haltIdle_ne_idle (r : RlPhase) : (if r = .rIdle then RlPhase.rHalted else r) ≠ .rIdle := by
  split_ifs with hr
  · decide
  · exact hr

theorem haltIdle_eq_iff (r : RlPhase) {p : RlPhase} (hp : p ≠ .rHalted) (hp' : p ≠ .rIdle) :
    (if r = .rIdle then RlPhase.rHalted else r) = p ↔ r = p := by
  split_ifs with hr
  · exact iff_of_false hp.symm fun k => hp' (k.symm.trans hr)
  · exact Iff.rfl

theorem State.idxGood_haltIdle (h : s.IdxGood) :
    State.IdxGood { s with rph := if s.rph = .rIdle then .rHalted else s.rph } := by
  have same {p : RlPhase} := haltIdle_eq_iff s.rph (p := p)
  rintro (k | k | k)
  · exact h (.inl ((same (by decide) (by decide)).mp k))
  · exact h (.inr (.inl ((same (by decide) (by decide)).mp k)))
  · exact h (.inr (.inr ((same (by decide) (by decide)).mp k)))

theorem State.Inv.requestStop (h : s.Inv) : s.requestStop.Inv := by
  obtain ⟨h0, h1, hidx, htr, ⟨hwait, -, -⟩, hst⟩ := h
  refine ⟨h0, h1, State.idxGood_haltIdle hidx, htr, ⟨?_, ?_, ?_⟩, hst⟩
  · exact (haltIdle_eq_iff s.rph (by decide) (by decide)).trans hwait
  · exact fun k => absurd k (haltIdle_ne_idle s.rph)
  · exact fun _ => .inl rfl

/-- A failed initialisation: the transport was never taken (60_exceptions R172). -/
theorem State.Inv.abortInit (h : s.Inv) (hu : s.sess = .uninit) (hi : s.iph = .none0) : s.abortInit.Inv := by
  obtain ⟨h0, h1, hidx, ⟨hready, -, hframe, -⟩, ⟨hwait, hidle, -⟩, hst⟩ := h.requestStop
  have hnot : s.wst ≠ .ready := fun k => by
    have := hready.mp k
    rw [show s.requestStop.sess = .uninit from hu] at this
    cases this
  refine ⟨h0, h1, hidx, ⟨?_, ?_, hframe, ?_⟩, ⟨hwait, hidle, ?_⟩, hst⟩
  · exact iff_of_false hnot (by simp [State.abortInit])
  · exact fun _ => rfl
  · exact fun k => absurd hi k
  · exact fun _ => .inl rfl

/-- A teardown finds no frame in flight and a sequencer that has not started or has halted (41_wire_transport R113). -/
theorem State.Inv.closeSession (h : s.Inv) (hf : s.fph = .fIdle) (hi : s.iph = .none0)
    (hr : s.rph = .rIdle ∨ s.rph = .rHalted) : s.closeSession.Inv := by
  obtain ⟨h0, h1, -, -, -, hst⟩ := h
  have hhalt : s.closeSession.rph = .rHalted := by rcases hr with k | k <;> simp [State.closeSession, k]
  refine ⟨h0, h1, ?_, ⟨?_, ?_, ?_, ?_⟩, ⟨?_, ?_, ?_⟩, hst⟩
  · simp [State.IdxGood, hhalt]
  · simp [State.closeSession]
  · exact fun _ => rfl
  · exact fun k => absurd hf k
  · exact fun k => absurd hi k
  · rw [hhalt]; exact iff_of_false (by decide) fun k => k.1 hf
  · rw [hhalt]; exact fun k => absurd k (by decide)
  · exact fun _ => .inr hhalt

/-- Transport and session get ready together, with no initialisation left running (41_wire_transport R101). -/
theorem State.Inv.sessionReady (h : s.Inv) : { s with iph := .none0, wst := .ready, sess := .ready }.Inv := by
  obtain ⟨h0, h1, hidx, -, ⟨hwait, hidle, -⟩, hst⟩ := h
  exact ⟨h0, h1, hidx, ⟨by simp, by simp, fun _ => rfl, by simp⟩, ⟨hwait, hidle, by simp⟩, hst⟩

/-- An initialisation starts or goes on. -/
theorem State.Inv.setIph (h : s.Inv) (hu : s.sess = .uninit) (hb : s.cfg.backend = .mmio) (p : InitPhase) :
    { s with iph := p }.Inv := by
  obtain ⟨h0, h1, hidx, ⟨hready, hclosed, hframe, -⟩, hseq, hst⟩ := h
  exact ⟨h0, h1, hidx, ⟨hready, hclosed, hframe, fun _ => ⟨hu, hb⟩⟩, hseq, hst⟩

/-- A swap of the banks between cycles: no read pointer is in use. -/
theorem State.Inv.swap (h : s.Inv) (hm : s.midCycle = false) : { s with act := !s.act }.Inv := by
  obtain ⟨h0, h1, -, htr, hseq, hst⟩ := h
  refine ⟨h0, h1, ?_, htr, hseq, hst⟩
  rintro (k | k | k) <;> (dsimp only at k; simp [State.midCycle, k] at hm)

theorem State.Inv.lazyStart (h : s.Inv) : s.lazyStart.Inv := by
  unfold State.lazyStart
  split
  case isTrue hr =>
    exact h.setRph (by simp [hr.1]) (by decide) (by decide) (by simp [hr.1]) (by simp)
  case isFalse => exact h

theorem timerWake_inv (h : s.Inv) : (timerWake s).Inv := by
  rcases timerWake_cases s with k | ⟨hr, k⟩ <;> rw [k]
  · exact h
  · exact h.setRph (by simp [hr]) (by decide) (by decide) (by simp [hr]) (by simp)

/-! ### Frames -/

/-- A frame of the host's starts: the sequencer did not wait, and does not wait for this one. -/
theorem State.Inv.startHost (h : s.Inv) (hf : s.fph = .fIdle) (hw : s.wst = .ready) (f : Word16) (n : BitVec 4) :
    { s with sh := f, fown := .host, bitn := n, fph := .fLoadA }.Inv := by
  obtain ⟨h0, h1, hidx, ⟨hready, hclosed, -, hinit⟩, ⟨hwait, hidle, hdes⟩, hst⟩ := h
  refine ⟨h0, h1, hidx, ⟨hready, hclosed, fun _ => hw, hinit⟩, ⟨?_, hidle, hdes⟩, hst⟩
  exact iff_of_false (fun k => (hwait.mp k).1 hf) (by simp)

/-- A frame of the sequencer's starts, and the sequencer waits for it. -/
theorem State.Inv.startRl (h : s.Inv) (hr : s.rph = .rIssue) (hw : s.wst = .ready) (f : Word16) (n : BitVec 4) :
    { s with sh := f, fown := .rl, bitn := n, fph := .fLoadA, rph := .rWait }.Inv := by
  obtain ⟨h0, h1, hidx, ⟨hready, hclosed, -, hinit⟩, ⟨-, -, hdes⟩, hst⟩ := h
  refine ⟨h0, h1, fun _ => hidx (.inl hr), ⟨hready, hclosed, fun _ => hw, hinit⟩, ⟨?_, ?_, ?_⟩, hst⟩
  · simp
  · simp
  · exact fun k => (hdes k).imp_right fun k => absurd (hr.symm.trans k) (by decide)

/-- A frame goes on. -/
theorem State.Inv.setFph (h : s.Inv) (hf : s.fph ≠ .fIdle) {f : FramePhase} (hn : f ≠ .fIdle) :
    { s with fph := f }.Inv := by
  obtain ⟨h0, h1, hidx, ⟨hready, hclosed, hframe, hinit⟩, ⟨hwait, hidle, hdes⟩, hst⟩ := h
  refine ⟨h0, h1, hidx, ⟨hready, hclosed, fun _ => hframe hf, hinit⟩, ⟨?_, hidle, hdes⟩, hst⟩
  exact hwait.trans (and_congr_left' (iff_of_true hf hn))

/-- A frame ends: its owner, if it is the sequencer, was waiting for it and no longer does (42_refresh R133). -/
theorem State.Inv.completeFrame (h : s.Inv) (hf : s.fph ≠ .fIdle) : s.completeFrame.Inv := by
  obtain ⟨h0, h1, hidx, ⟨hready, hclosed, -, hinit⟩, ⟨hwait, hidle, hdes⟩, hst⟩ := h
  have hidleFrame : FramePhase.fIdle ≠ .fIdle → s.wst = .ready := fun k => absurd rfl k
  cases ho : s.fown with
  | host =>
    rw [completeFrame_host ho]
    refine ⟨h0, h1, hidx, ⟨hready, hclosed, hidleFrame, hinit⟩, ⟨?_, hidle, hdes⟩, hst⟩
    exact iff_of_false (fun k => absurd (ho.symm.trans (hwait.mp k).2) (by decide)) (by simp)
  | rl =>
    rw [completeFrame_rl ho]
    have hw : s.rph = .rWait := hwait.mpr ⟨hf, ho⟩
    refine ⟨h0, h1, fun _ => hidx (.inr (.inl hw)), ⟨hready, hclosed, hidleFrame, hinit⟩, ⟨?_, ?_, ?_⟩, hst⟩
    · simp
    · simp
    · exact fun k => (hdes k).imp_right fun k => absurd (hw.symm.trans k) (by decide)

/-! ### The GPIO window -/

theorem State.Inv.fselWrite (h : s.Inv) (off : Nat) (w : Word32) : (s.fselWrite off w).Inv := by
  obtain ⟨h0, h1, hidx, htr, hseq, hfsel, hout⟩ := h
  exact ⟨h0, h1, hidx, htr, hseq, State.fselWrite_wf hfsel off w, hout⟩

theorem State.Inv.strobeOthers (h : s.Inv) (hits : PinRow → Bool) (v : Level) : (s.strobeOthers hits v).Inv := by
  obtain ⟨h0, h1, hidx, htr, hseq, hfsel, hout⟩ := h
  exact ⟨h0, h1, hidx, htr, hseq, hfsel, strobeLatches_wf hits v _ hout⟩

theorem otherGpioWrite_inv (h : s.Inv) (off : Nat) (w : Word32) : (s.otherGpioWrite off w).Inv := by
  unfold State.otherGpioWrite
  split_ifs
  · exact h.fselWrite _ _
  · exact h.strobeOthers _ _
  · exact h.strobeOthers _ _
  · exact h

theorem dirWrite_inv (h : s.Inv) {r : PinRow} (hr : r ∈ s.cfg.pins) : (dirWrite s r).Inv := by
  rw [dirWrite_eq hr]
  exact h.fselWrite _ _

/-! ### The turns -/

theorem ExecTo.inv {i : Instr} (h : ExecTo s i t) (hi : s.Inv) (hp : s.iph = .none0) : t.Inv := by
  cases h with
  | closed | again | sendNotReady | badLength | appendFull | orlastEmpty | advance | read =>
    exact hi.finish _ _
  | sendHeld | closeHeld | commitHeld => exact hi
  | initFails hu =>
    exact (hi.afterInitOk.abortInit (by simpa using hu) (by simpa using hp)).finish _ _
  | initDevnode =>
    have hready := hi.afterInitOk.sessionReady
    rw [← hp, ← s.afterInitOk_iph] at hready
    exact State.Inv.finish hready _ _
  | initMmio hu _ hb => exact hi.afterInitOk.setIph (by simpa using hu) (by simpa using hb) _
  | sendFails => exact hi.afterXfail.finish _ _
  | sendStarts _ f _ _ hf hw =>
    exact hi.afterXfail.startHost (by simpa using hf) (by simpa using hw) f 15
  | close _ hf hr => exact (hi.closeSession hf hp hr).finish _ _
  | reset => exact (hi.setShadow Bank.good_empty).finish _ _
  | append g _ hl => exact (hi.setShadow (Bank.good_append hi.shadow_good hl g)).finish _ _
  | orlast m _ h0 =>
    have hpos : s.shadow.length.toNat - 1 < s.shadow.length.toNat := by bv_omega
    exact (hi.setShadow (Bank.good_rewrite hi.shadow_good hpos _)).finish _ _
  | commit _ hm => exact (hi.swap hm).lazyStart.finish _ _
  | stop => exact hi.requestStop.finish _ _

theorem CompileTo.inv {c : Compile} (h : CompileTo s c t) (hi : s.Inv) (hp : s.iph = .none0) : t.Inv := by
  cases h with
  | reports => exact hi
  | issues _ u hu => exact hu.inv hi hp

theorem HostTo.inv (h : HostTo s t) (hi : s.Inv) : t.Inv := by
  cases h with
  | stays | reports | decides => exact hi
  | rejects => exact hi.finish _ _
  | runs hw _ _ _ _ _ _ ht => exact ht.inv hi (State.iph_of_not_hostWaiting hw)
  | compiles hw _ _ _ _ ht => exact ht.inv hi (State.iph_of_not_hostWaiting hw)

theorem State.afterXfail_active (s : State) : s.afterXfail.active = s.active := by
  unfold State.afterXfail
  split <;> rfl

theorem State.raiseOpt_active (s : State) (e : Option Diag) : (s.raiseOpt e).active = s.active := by cases e <;> rfl

/-- A dropped frame: the sequencer goes on with its read pointer as it was (41_wire_transport R107). -/
theorem State.Inv.dropFrame (h : s.Inv) (hr : s.rph = .rIssue) : { s with rph := .rNext }.Inv :=
  h.setRph (by simp [hr]) (by decide) (by decide) (by simp [hr]) fun _ => h.idx_points (.inl hr)

theorem rlOffer_inv (h : s.Inv) (hr : s.rph = .rIssue) (g : Byte) : (rlOffer s g).Inv := by
  rcases rlOffer_cases s g with k | k | ⟨hw, k⟩ <;> rw [k]
  · exact h.dropFrame hr
  · exact h.afterXfail.dropFrame (by simpa using hr)
  · exact h.afterXfail.startRl (by simpa using hr) (by simpa using hw) _ _

theorem rlBegin_inv (h : s.Inv) (hr : s.rph = .rBegin) : (rlBegin s).Inv :=
  h.moveTo (p := .rIssue) (by simp [hr]) (by decide) (by decide) (by simp [hr])
    fun _ => h.active_good.points_cursor

theorem rlNext_inv (h : s.Inv) (hr : s.rph = .rNext) : (rlNext s).Inv := by
  have hidx := h.idx_points (.inr (.inr hr))
  obtain ⟨n, p, hp, hnext⟩ := rlNext_eq s
  rw [hnext]
  have hw : p ≠ .rWait ∧ p ≠ .rIdle := by rcases hp with rfl | rfl <;> decide
  exact State.Inv.moveTo (h.raiseOpt _) (by simp [hr]) hw.1 hw.2 (by simp [hr])
    fun _ => by rw [State.raiseOpt_active]; exact hidx.advance

theorem rlEnd_inv (h : s.Inv) (hr : s.rph = .rEnd) : (rlEnd s).Inv := by
  have hset : (s.setActive { s.active with cursor := (s.active.advance s.active.cursor).1 }).Inv :=
    h.setBank (Bank.good_cursor h.active_good).1 fun _ => rfl
  exact (State.Inv.raiseOpt hset (s.active.advance s.active.cursor).2).setRph (p := .rSleep)
    (by simp [hr]) (by decide) (by decide) (by simp [hr]) (by simp)

theorem RlTo.inv (h : RlTo s t) (hi : s.Inv) : t.Inv := by
  cases h with
  | stays | held | sleeps => exact hi
  | begins hr => exact rlBegin_inv hi hr
  | offers hr _ g event => exact rlOffer_inv (hi.raiseOpt event) (by simpa using hr) g
  | moves hr => exact rlNext_inv hi hr
  | ends hr => exact rlEnd_inv hi hr
  | halts hr =>
    exact hi.setRph (by simp [hr]) (by decide) (by decide) (by simp) (by simp)

theorem WtTo.inv (h : WtTo s t) (hi : s.Inv) : t.Inv := by
  cases h with
  | stays => exact hi
  | frame hf f hn => exact hi.setFph hf hn
  | completes hf => exact (hi.loadEvent true).completeFrame (by simp [hf])
  | reads _ hp p =>
    obtain ⟨hu, hb⟩ := hi.initialising hp
    exact hi.setIph hu hb p
  | writes _ hp p _ r hr =>
    obtain ⟨hu, hb⟩ := hi.initialising hp
    exact (dirWrite_inv hi hr).setIph (by simpa [dirWrite] using hu) (by simpa [dirWrite] using hb) p
  | ready =>
    have hd : (dirWrite s s.cfg.dinPin).Inv := dirWrite_inv hi (Params.row_mem s.cfg.toParams .din)
    exact hd.sessionReady (s := dirWrite s s.cfg.dinPin)

theorem takeTurn_inv {turn : Turn} (h : takeTurn turn s = .next t) (hi : s.Inv) : t.Inv := by
  cases turn with
  | host => exact (hostTurn_next h).inv hi
  | rl => exact (rlStep_next h).inv hi
  | wt => cases h; exact (wtStep_to s).inv hi
  | wake => cases h; exact timerWake_inv hi
  | gpio off w => cases h; exact otherGpioWrite_inv hi off w

end

/-- Settles O40: the step is one turn, and every turn keeps the invariant. -/
theorem stepKeepsInvariant : Obligations.StepKeepsInvariant := by
  intro s t hi h
  rw [step_eq] at h
  exact takeTurn_inv h hi.afterTurn

/-- Settles O41: both banks are empty, the engines idle, the stores without an entry. -/
theorem resetMeetsInvariant : Obligations.ResetMeetsInvariant :=
  ⟨Bank.good_empty, Bank.good_empty, by decide, by decide, by decide, rfl, rfl⟩

end Sys2Proof.Machine
end

section
/-! PROOFS. What no step undoes (O44). -/

namespace Sys2Proof.Machine

section

variable {s t : State}

/-! ### What only grows -/

/-- `t` keeps the stop request, the histories and the parameters of `s`: it may raise the first and append
to the second. -/
def State.Grows (s t : State) : Prop :=
  (s.stopReq = true → t.stopReq = true) ∧ s.trace <+: t.trace ∧ s.frames <+: t.frames ∧ s.diag <+: t.diag ∧
    s.responses <+: t.responses ∧ s.bus <+: t.bus ∧ t.cfg = s.cfg

theorem State.Grows.refl (s : State) : s.Grows s := by simp [State.Grows]

theorem State.Grows.trans {u : State} (h : s.Grows t) (k : t.Grows u) : s.Grows u := by
  obtain ⟨h1, h2, h3, h4, h5, h6, h7⟩ := h
  obtain ⟨k1, k2, k3, k4, k5, k6, k7⟩ := k
  exact ⟨k1 ∘ h1, h2.trans k2, h3.trans k3, h4.trans k4, h5.trans k5, h6.trans k6, k7.trans h7⟩

/-! The operations. -/

theorem State.grows_finish (h : s.Grows t) (e : Option Diag) (v : Byte) : s.Grows (t.finish e v) :=
  h.trans (by simp [State.Grows])

theorem State.grows_raiseOpt (s : State) (e : Option Diag) : s.Grows (s.raiseOpt e) := by simp [State.Grows]

theorem State.grows_afterInitOk (s : State) : s.Grows s.afterInitOk := by simp [State.Grows]

theorem State.grows_afterXfail (s : State) : s.Grows s.afterXfail := by simp [State.Grows]

theorem State.grows_afterTurn (s : State) : s.Grows s.afterTurn := by simp [State.Grows]

theorem State.grows_setShadow (s : State) (b : Bank) : s.Grows (s.setShadow b) := by simp [State.Grows]

theorem State.grows_setActive (s : State) (b : Bank) : s.Grows (s.setActive b) := by simp [State.Grows]

theorem State.grows_abortInit (s : State) : s.Grows s.abortInit := by simp [State.Grows, State.abortInit]

theorem State.grows_requestStop (s : State) : s.Grows s.requestStop := by simp [State.Grows, State.requestStop]

theorem State.grows_lazyStart (s : State) : s.Grows s.lazyStart := by
  unfold State.lazyStart
  split <;> exact State.Grows.refl s

theorem State.grows_loadEvent (s : State) (b : Bool) : s.Grows (s.loadEvent b) := by
  obtain ⟨ws, h⟩ := s.pinEvent_eq .load (if b then s.cfg.loadAssertLevel else !s.cfg.loadAssertLevel)
  rw [State.loadEvent, h]
  simp [State.Grows]

theorem State.grows_completeFrame (s : State) : s.Grows s.completeFrame := by
  cases ho : s.fown with
  | host => rw [completeFrame_host ho]; simp [State.Grows]
  | rl => rw [completeFrame_rl ho]; simp [State.Grows]

theorem rlOffer_grows (s : State) (g : Byte) : s.Grows (rlOffer s g) := by
  rcases rlOffer_cases s g with h | h | ⟨-, h⟩ <;> rw [h] <;> simp [State.Grows]

/-! The turns. -/

theorem ExecTo.grows {i : Instr} (h : ExecTo s i t) : s.Grows t := by
  have hr := State.Grows.refl s
  cases h with
  | closed | again | sendNotReady | badLength | appendFull | orlastEmpty | advance | read =>
    exact State.grows_finish hr _ _
  | sendHeld | closeHeld | commitHeld => exact hr
  | initFails => exact State.grows_finish (s.grows_afterInitOk.trans (State.grows_abortInit _)) _ _
  | initDevnode =>
    exact State.grows_finish (t := { s.afterInitOk with wst := .ready, sess := .ready }) s.grows_afterInitOk _ _
  | initMmio => exact s.grows_afterInitOk
  | sendFails => exact State.grows_finish s.grows_afterXfail _ _
  | sendStarts => exact s.grows_afterXfail
  | close => exact State.grows_finish (t := s.closeSession) hr _ _
  | reset | append | orlast => exact State.grows_finish (s.grows_setShadow _) _ _
  | commit => exact State.grows_finish (State.grows_lazyStart { s with act := !s.act }) _ _
  | stop => exact State.grows_finish s.grows_requestStop _ _

theorem CompileTo.grows {c : Compile} (h : CompileTo s c t) : s.Grows t := by
  cases h with
  | reports ch => exact s.grows_raiseOpt (some (.encodingFailure ch))
  | issues _ t ht => exact ht.grows

theorem HostTo.grows (h : HostTo s t) : s.Grows t := by
  cases h with
  | stays | decides => exact State.Grows.refl s
  | reports _ ch => exact s.grows_raiseOpt (some (.encodingFailure ch))
  | rejects => exact State.grows_finish (State.Grows.refl s) _ _
  | runs _ _ _ _ _ _ _ ht => exact ht.grows
  | compiles _ _ _ _ _ ht => exact ht.grows

theorem RlTo.grows (h : RlTo s t) : s.Grows t := by
  cases h with
  | stays | begins | held | sleeps | halts => exact State.Grows.refl s
  | offers _ _ g event => exact (s.grows_raiseOpt event).trans (rlOffer_grows _ g)
  | moves =>
    obtain ⟨n, p, -, hnext⟩ := rlNext_eq s
    rw [hnext]
    exact s.grows_raiseOpt _
  | ends => exact (s.grows_setActive _).trans (State.grows_raiseOpt _ _)

theorem WtTo.grows (h : WtTo s t) : s.Grows t := by
  cases h with
  | stays => exact State.Grows.refl s
  | frame => simp [State.Grows]
  | completes => exact (s.grows_loadEvent true).trans (State.grows_completeFrame _)
  | reads => simp [State.Grows, dirRead]
  | writes => simp [State.Grows, dirWrite]
  | ready => simp [State.Grows, dirWrite, initDone]

theorem otherGpioWrite_grows (s : State) (off : Nat) (w : Word32) : s.Grows (s.otherGpioWrite off w) := by
  simp [State.Grows]

theorem timerWake_grows (s : State) : s.Grows (timerWake s) := by
  rcases timerWake_cases s with h | ⟨-, h⟩ <;> rw [h] <;> exact State.Grows.refl s

theorem takeTurn_grows {turn : Turn} (h : takeTurn turn s = .next t) : s.Grows t := by
  cases turn with
  | host => exact (hostTurn_next h).grows
  | rl => exact (rlStep_next h).grows
  | wt => cases h; exact (wtStep_to s).grows
  | wake => cases h; exact timerWake_grows s
  | gpio off w => cases h; exact otherGpioWrite_grows s off w

/-! ### A destroyed session -/

theorem CompileTo.destroyed {c : Compile} (h : CompileTo s c t) (hs : s.sess = .destroyed) : t.sess = .destroyed := by
  cases h with
  | reports => exact hs
  | issues _ u hu =>
    rw [hu.of_destroyed hs]
    exact hs

theorem HostTo.destroyed (h : HostTo s t) (hs : s.sess = .destroyed) : t.sess = .destroyed := by
  cases h with
  | stays | reports | rejects | decides => exact hs
  | runs _ _ _ _ _ _ _ ht =>
    rw [ht.of_destroyed hs]
    exact hs
  | compiles _ _ _ _ _ ht => exact ht.destroyed hs

theorem RlTo.sess_eq (h : RlTo s t) : t.sess = s.sess := by
  cases h with
  | stays | begins | held | sleeps | halts => rfl
  | offers => simp
  | moves =>
    obtain ⟨n, p, -, hnext⟩ := rlNext_eq s
    simp [hnext]
  | ends => simp [rlEnd]

/-- Only the end of an initialisation gives the session a new state, and a destroyed session has none running
(10_state R38). -/
theorem WtTo.destroyed (h : WtTo s t) (hi : s.Inv) (hs : s.sess = .destroyed) : t.sess = .destroyed := by
  cases h with
  | stays | frame => exact hs
  | completes => simpa using hs
  | reads => exact hs
  | writes => simpa [dirWrite] using hs
  | ready _ hp =>
    obtain ⟨hu, -⟩ := hi.initialising (by simp [hp])
    rw [hs] at hu
    cases hu

@[simp] theorem timerWake_sess (s : State) : (timerWake s).sess = s.sess := by
  rcases timerWake_cases s with h | ⟨-, h⟩ <;> rw [h]

theorem takeTurn_destroyed {turn : Turn} (h : takeTurn turn s = .next t) (hi : s.Inv) (hs : s.sess = .destroyed) :
    t.sess = .destroyed := by
  cases turn with
  | host => exact (hostTurn_next h).destroyed hs
  | rl => exact (rlStep_next h).sess_eq.trans hs
  | wt => cases h; exact (wtStep_to s).destroyed hi hs
  | wake => cases h; simpa using hs
  | gpio off w => cases h; simpa using hs

/-! ### A halted sequencer -/

/-- No command moves a halted sequencer. -/
theorem ExecTo.halted {i : Instr} (h : ExecTo s i t) (hr : s.rph = .rHalted) : t.rph = .rHalted := by
  cases h with
  | initFails => simp [State.abortInit, hr]
  | close => simp [State.closeSession, hr]
  | commit => simp [State.lazyStart, hr]
  | stop => simp [State.requestStop, hr]
  | closed | again => simp [State.refuse, hr]
  | _ => simp [hr]

theorem CompileTo.halted {c : Compile} (h : CompileTo s c t) (hr : s.rph = .rHalted) : t.rph = .rHalted := by
  cases h with
  | reports => exact hr
  | issues _ u hu => exact hu.halted hr

theorem HostTo.halted (h : HostTo s t) (hr : s.rph = .rHalted) : t.rph = .rHalted := by
  cases h with
  | stays | reports | rejects | decides => exact hr
  | runs _ _ _ _ _ _ _ ht => exact ht.halted hr
  | compiles _ _ _ _ _ ht => exact ht.halted hr

theorem RlTo.halted (h : RlTo s t) (hr : s.rph = .rHalted) : t.rph = .rHalted := by
  cases h with
  | stays => exact hr
  | begins k | held k | offers k | moves k | ends k | sleeps k | halts k =>
    exact absurd (hr.symm.trans k) (by decide)

/-- The wire engine moves the sequencer only at the end of the sequencer's own frame, for which it waits
(42_refresh R133). -/
theorem WtTo.halted (h : WtTo s t) (hi : s.Inv) (hr : s.rph = .rHalted) : t.rph = .rHalted := by
  cases h with
  | stays | frame => exact hr
  | completes hf =>
    cases ho : s.fown with
    | host => rw [completeFrame_host (by simpa using ho)]; simpa using hr
    | rl =>
      have hw := hi.waits_iff.mpr ⟨by simp [hf], ho⟩
      rw [hr] at hw
      cases hw
  | reads => exact hr
  | writes => simpa [dirWrite] using hr
  | ready => simpa [dirWrite, initDone] using hr

theorem timerWake_halted (hr : s.rph = .rHalted) : timerWake s = s := timerWake_ignored (.inl (by simp [hr]))

theorem takeTurn_halted {turn : Turn} (h : takeTurn turn s = .next t) (hi : s.Inv) (hr : s.rph = .rHalted) :
    t.rph = .rHalted := by
  cases turn with
  | host => exact (hostTurn_next h).halted hr
  | rl => exact (rlStep_next h).halted hr
  | wt => cases h; exact (wtStep_to s).halted hi hr
  | wake => cases h; rwa [timerWake_halted hr]
  | gpio off w => cases h; simpa using hr

end

/-- Settles O44: the step is one turn, and no turn undoes anything. -/
theorem noStepUndoesTheseThings : Obligations.NoStepUndoesTheseThings := by
  intro s t h
  rw [step_eq] at h
  obtain ⟨hstop, htrace, hframes, hdiag, hresponses, hbus, hcfg⟩ := s.grows_afterTurn.trans (takeTurn_grows h)
  refine ⟨hstop, fun hi => ⟨fun hs => ?_, fun hr => ?_⟩, htrace, hframes, hdiag, hresponses, hbus, hcfg⟩
  · exact takeTurn_destroyed h hi.afterTurn (by simpa using hs)
  · exact takeTurn_halted h hi.afterTurn (by simpa using hr)

end Sys2Proof.Machine
end

section
/-! PROOFS. Other GPIO users leave the block's pins (O28). -/

namespace Sys2Proof.Machine

section

variable {s : State}

/-- What a write of another GPIO user can change: function-select registers and other pins' latches. -/
theorem otherGpioWrite_frame (s : State) (off : Nat) (w : Word32) :
    s.otherGpioWrite off w = { s with
      fsel := (s.otherGpioWrite off w).fsel, out := (s.otherGpioWrite off w).out } := by
  unfold State.otherGpioWrite
  split_ifs <;> rfl

/-- Its write of a function-select register: the fields of the block's pins as they were, the rest from its word. -/
theorem otherGpioWrite_fselRead (hwf : Store.wf (fselUnlisted s.cfg.toParams) s.fsel = true) (off : Nat) (w : Word32)
    (o : Nat) :
    (s.otherGpioWrite off w).fselRead o =
      if isFsel s.cfg.toParams off = true ∧ o = off then
        (s.fselRead off &&& ownFields s.cfg.toParams off) ||| (w &&& ~~~(ownFields s.cfg.toParams off))
      else s.fselRead o := by
  unfold State.otherGpioWrite
  by_cases h : isFsel s.cfg.toParams off = true
  · rw [if_pos h, State.fselRead_fselWrite hwf]
    simp only [h, true_and]
  · rw [if_neg h, if_neg (not_and_of_not_left _ h)]
    split_ifs <;> rfl

/-- The bits gathered by going through a list of rows: those of the rows with a field in the register. -/
theorem foldl_fieldMask_bit (off k : Nat) (rs : List PinRow) (m : Word32) :
    (rs.foldl (fun m r => if r.fselOff = off then m ||| fieldMask r.fselShift.val else m) m).getLsbD k =
      (m.getLsbD k || rs.any fun r => r.fselOff == off && (fieldMask r.fselShift.val).getLsbD k) := by
  induction rs generalizing m with
  | nil => simp
  | cons r rs ih =>
    rw [List.foldl_cons, ih, List.any_cons]
    by_cases h : r.fselOff = off
    · simp [h, Bool.or_assoc]
    · simp [h, beq_false_of_ne h]

/-- The bits of a line's function field belong to the block's own pins. -/
theorem ownFields_bit (p : Params) (l : Line) {k : Nat} (hk : k < 3) :
    (ownFields p (p.row l).fselOff).getLsbD ((p.row l).fselShift.val + k) = true := by
  have hmem : p.row l ∈ p.ownPins := by cases l <;> simp [Params.row, Params.ownPins]
  have hshift := (p.row l).fselShift.isLt
  unfold ownFields
  rw [foldl_fieldMask_bit, Bool.or_eq_true, List.any_eq_true]
  refine .inr ⟨p.row l, hmem, ?_⟩
  rw [fieldMask_bit _ _ (by omega)]
  simp [hk]

/-- A bit under a mask is kept by a write cut to the bits outside it. -/
theorem getLsbD_keepMask (old w m : Word32) {k : Nat} (hm : m.getLsbD k = true) :
    ((old &&& m) ||| (w &&& ~~~m)).getLsbD k = old.getLsbD k := by
  simp [hm]

end

/-- Settles O28: the write is cut to the bits outside the block's own fields. -/
theorem otherUsersLeaveOwnPins : Obligations.OtherUsersLeaveOwnPins := by
  intro s off w hwf
  refine ⟨otherGpioWrite_frame s off w, fun l k hk => ?_⟩
  rw [otherGpioWrite_fselRead hwf]
  split_ifs with h
  · obtain ⟨-, rfl⟩ := h
    exact getLsbD_keepMask _ _ _ (ownFields_bit s.cfg.toParams l hk)
  · rfl

end Sys2Proof.Machine
end

section
/-! PROOFS. What the configuration check refuses (O49). -/

namespace Sys2Proof

section

variable {p : Params}

/-! ### The configuration check -/

/-- The four parts of the check. -/
theorem Params.ok_iff (p : Params) : p.ok = true ↔
    (∀ r ∈ p.pins, p.rowOk r = true) ∧ Params.allPairs Params.rowsApart p.pins = true ∧
      (List.range 8).countP (fun k => p.dpMask.getLsbD k) = 1 ∧ p.tChipMin < p.tSettle := by
  simp [Params.ok, Params.dpMaskOk, and_assoc]

/-- A register of a checked row is a whole aligned word inside the window (20_memory R46). -/
theorem Params.ok_offset (h : p.ok = true) {r : PinRow} (hr : r ∈ p.pins) {off : Nat}
    (ho : off = r.fselOff ∨ off = r.setOff ∨ off = r.clrOff) : off % 4 = 0 ∧ off + 4 ≤ p.gpioSize := by
  have hrow := Params.ok_row h hr
  simp only [Params.rowOk, Params.offsetOk, Bool.and_eq_true, beq_iff_eq, decide_eq_true_eq] at hrow
  obtain ⟨⟨⟨⟨⟨hfsel, hset⟩, hclr⟩, -⟩, -⟩, -⟩ := hrow
  rcases ho with rfl | rfl | rfl
  · exact hfsel
  · exact hset
  · exact hclr

/-- The three pins of the block have three pin numbers. -/
theorem Params.ok_pin_ne (h : p.ok = true) {l m : Line} (hlm : l ≠ m) : (p.row l).pin ≠ (p.row m).pin := fun k =>
  Params.ok_row_inj h hlm (Params.ok_pin_inj h (p.row_mem l) (p.row_mem m) k)

namespace Machine

theorem configure_of_ok (h : p.ok = true) :
    configure p = .next { State.reset with cfg := { toParams := p, good := h } } := dif_pos h

theorem configure_of_not_ok (h : ¬ p.ok = true) : configure p = .refused .badConfiguration := dif_neg h

end Machine

end

namespace Machine

/-- Settles O49: the parameters of a state carry the proof that they pass; each rule broken contradicts the check. -/
theorem badConfigurationRefused : Obligations.BadConfigurationRefused := by
  refine ⟨fun s => ⟨configure_of_ok s.cfg.good, fun r hr off ho => Params.ok_offset s.cfg.good hr ho⟩, fun p =>
    ⟨fun h => ⟨_, configure_of_ok h, rfl, rfl⟩, fun hbad => configure_of_not_ok fun h => ?_⟩⟩
  obtain ⟨-, -, hmask, hsettle⟩ := p.ok_iff.mp h
  rcases hbad with ⟨r, hr, off, ho, hoff⟩ | hpin | hpin | hpin | hmask' | hsettle'
  · have := Params.ok_offset h hr ho
    omega
  · exact Params.ok_pin_ne h (l := .load) (m := .clk) (by decide) hpin
  · exact Params.ok_pin_ne h (l := .load) (m := .din) (by decide) hpin
  · exact Params.ok_pin_ne h (l := .clk) (m := .din) (by decide) hpin
  · exact hmask' hmask
  · omega

end Machine

end Sys2Proof
end

section
/-! PROOFS. A strobe word acts on its bits only (O27). -/

namespace Sys2Proof

/-- A row of the static table is a line's or another pin's. -/
theorem Params.mem_pins_iff (p : Params) (r : PinRow) : r ∈ p.pins ↔ (∃ l, r = p.row l) ∨ r ∈ p.otherPins := by
  simp only [Params.pins, Params.ownPins, List.mem_append, List.mem_cons, List.not_mem_nil, or_false]
  refine or_congr_left ⟨?_, ?_⟩
  · rintro (rfl | rfl | rfl)
    · exact ⟨.load, rfl⟩
    · exact ⟨.clk, rfl⟩
    · exact ⟨.din, rfl⟩
  · rintro ⟨l, rfl⟩
    cases l <;> simp [Params.row]

namespace Machine

section

variable {s : State}

/-- The latch of one of the block's pins is its line (10_state R32). -/
theorem State.latch_row (s : State) (l : Line) : s.latch (s.cfg.row l).pin = s.lines.get l := by
  have hne {l m : Line} := Params.ok_pin_ne s.cfg.good (l := l) (m := m)
  unfold State.latch
  cases l with
  | load => exact if_pos rfl
  | clk => exact (if_neg (hne (m := .load) (by decide))).trans (if_pos rfl)
  | din =>
    exact (if_neg (hne (m := .load) (by decide))).trans ((if_neg (hne (m := .clk) (by decide))).trans (if_pos rfl))

/-- The latch of another pin is kept in the store. -/
theorem State.latch_other {r : PinRow} (hr : r ∈ s.cfg.otherPins) :
    s.latch r.pin = Store.read latchUnlisted s.out r.pin := by
  have hne (l : Line) : r.pin ≠ (s.cfg.row l).pin := fun k =>
    Params.ok_other_ne s.cfg.good hr l
      (Params.ok_pin_inj s.cfg.good ((Params.mem_pins_iff _ r).mpr (.inr hr)) (Params.row_mem _ l) k)
  unfold State.latch
  exact (if_neg (hne .load)).trans ((if_neg (hne .clk)).trans (if_neg (hne .din)))

/-- The latch of a pin of the table after a strobe: driven where the strobe hits its row, as before elsewhere. -/
theorem State.latch_strobe (hwf : Store.wf latchUnlisted s.out = true) (hits : PinRow → Bool) (v : Level) {r : PinRow}
    (hr : r ∈ s.cfg.pins) :
    ((s.strobeLines hits v).strobeOthers hits v).latch r.pin = if hits r = true then v else s.latch r.pin := by
  rcases (Params.mem_pins_iff _ r).mp hr with ⟨l, rfl⟩ | ho
  · rw [State.latch_row s l]
    refine (State.latch_row ((s.strobeLines hits v).strobeOthers hits v) l).trans ?_
    cases l <;> rfl
  · rw [State.latch_other ho]
    refine (State.latch_other (s := (s.strobeLines hits v).strobeOthers hits v) ho).trans ?_
    exact strobeLatches_listed hits v (Params.ok_others_nodup s.cfg.good) hwf ho

theorem setHits_iff (off : Nat) (w : Word32) (r : PinRow) :
    setHits off w r = true ↔ r.setOff = off ∧ w.getLsbD r.levelBit.val = true := by simp [setHits]

theorem clrHits_iff (off : Nat) (w : Word32) (r : PinRow) :
    clrHits off w r = true ↔ r.clrOff = off ∧ w.getLsbD r.levelBit.val = true := by simp [clrHits]

end

/-- Settles O27: a set or clear register strobes, and a strobe drives the pins it hits. -/
theorem strobeActsOnItsBitsOnly : Obligations.StrobeActsOnItsBitsOnly := by
  intro s off w r hwf hr
  refine ⟨?_, ?_⟩
  · rintro ⟨q, hq, rfl⟩
    simp only [State.gpioEffect_set hq, State.latch_strobe hwf _ _ hr, setHits_iff]
  · rintro ⟨q, hq, rfl⟩
    simp only [State.gpioEffect_clr hq, State.latch_strobe hwf _ _ hr, clrHits_iff]

end Machine

end Sys2Proof
end

section
/-! PROOFS. The lost update of a function-select register (O22). -/

namespace Sys2Proof.Machine

section

variable {s : State}

/-- The initialisation phase in which a pin's direction update writes its register back (41_wire_transport R101). -/
def InitPhase.writing : Line → InitPhase
  | .load => .writeLoad2
  | .clk => .writeClk4
  | .din => .writeDin6

/-- A reading phase: the pin's register is read into `ftmp`, and the write of the same pin comes next. -/
theorem initStep_reading {l : Line} (hi : s.iph = InitPhase.reading l) :
    initStep s = { dirRead s (s.cfg.row l) with iph := InitPhase.writing l } := by
  cases l with
  | load => exact initStep_readLoad hi
  | clk => exact initStep_readClk hi
  | din => exact initStep_readDin hi

theorem wtStep_reading {l : Line} (hf : s.fph = .fIdle) (hi : s.iph = InitPhase.reading l) :
    wtStep s = { dirRead s (s.cfg.row l) with iph := InitPhase.writing l } :=
  (wtStep_free hf).trans (initStep_reading hi)

/-- The step of a writing phase does to the function-select registers what the pin's direction update does. -/
theorem initStep_writing_fsel {l : Line} (hi : s.iph = InitPhase.writing l) :
    (initStep s).fsel = (dirWrite s (s.cfg.row l)).fsel := by
  cases l with
  | load => rw [initStep_writeLoad hi]; rfl
  | clk => rw [initStep_writeClk hi]; rfl
  | din => rw [initStep_writeDin hi]; rfl

/-- The register after a writing phase: the word in `ftmp` with the pin's field replaced, whatever the register held
(41_wire_transport R102). -/
theorem wtStep_writing_fselRead {l : Line} (hf : s.fph = .fIdle) (hi : s.iph = InitPhase.writing l)
    (hwf : Store.wf (fselUnlisted s.cfg.toParams) s.fsel = true) :
    (wtStep s).fselRead (s.cfg.row l).fselOff = fselWord s.ftmp (s.cfg.row l).fselShift.val s.cfg.fselOut := by
  rw [wtStep_free hf]
  unfold State.fselRead
  rw [initStep_cfg, initStep_writing_fsel hi, dirWrite_eq (Params.row_mem s.cfg.toParams l)]
  exact (State.fselRead_fselWrite hwf _ _ _).trans (if_pos rfl)

/-- A write of another GPIO user keeps the function-select registers' canonical form. -/
theorem otherGpioWrite_fsel_wf (hwf : Store.wf (fselUnlisted s.cfg.toParams) s.fsel = true) (off : Nat) (w : Word32) :
    Store.wf (fselUnlisted (s.otherGpioWrite off w).cfg.toParams) (s.otherGpioWrite off w).fsel = true := by
  rw [State.otherGpioWrite_cfg]
  unfold State.otherGpioWrite
  split_ifs
  · exact State.fselWrite_wf hwf _ _
  · exact hwf
  · exact hwf
  · exact hwf

/-- A write of another GPIO user between two steps of the wire engine. -/
theorem runTurns_wt_gpio_wt (s : State) (off : Nat) (w : Word32) :
    runTurns [.wt, .gpio off w, .wt] s = .next (wtStep ((wtStep s).otherGpioWrite off w)) := by
  rw [runTurns_cons (s' := wtStep s) rfl, runTurns_cons (s' := (wtStep s).otherGpioWrite off w) rfl, runTurns_cons rfl,
    runTurns_nil]

end

/-- Settles O22: the other user's write leaves `ftmp` alone, and the word written back is made of `ftmp`. -/
theorem lostUpdateOfOtherFields : Obligations.LostUpdateOfOtherFields := by
  intro s l w hi hf hwf
  refine ⟨_, runTurns_wt_gpio_wt s _ w, ?_⟩
  rw [wtStep_reading hf hi]
  have hwf' := otherGpioWrite_fsel_wf (s := { dirRead s (s.cfg.row l) with iph := InitPhase.writing l }) hwf
    (s.cfg.row l).fselOff w
  have hback := wtStep_writing_fselRead (by simpa [dirRead] using hf) (l := l) (by simp) hwf'
  simpa [dirRead] using hback

end Sys2Proof.Machine
end

section
/-! PROOFS. Double buffering keeps the banks apart (O18). -/

namespace Sys2Proof.Machine

section

variable {s t : State}

/-! ### What leaves both banks and `act` alone -/

/-- `t` has the banks of `s` and the same one active. -/
def State.SameBanks (s t : State) : Prop := t.act = s.act ∧ t.bank0 = s.bank0 ∧ t.bank1 = s.bank1

theorem State.SameBanks.act (h : s.SameBanks t) : t.act = s.act := by
  obtain ⟨hact, -, -⟩ := h
  exact hact

theorem State.SameBanks.active (h : s.SameBanks t) : t.active = s.active := by
  obtain ⟨hact, h0, h1⟩ := h
  simp [State.active, State.bank, hact, h0, h1]

theorem State.SameBanks.shadow (h : s.SameBanks t) : t.shadow = s.shadow := by
  obtain ⟨hact, h0, h1⟩ := h
  simp [State.shadow, State.bank, hact, h0, h1]

theorem State.sameBanks_finish (s : State) (e : Option Diag) (v : Byte) : s.SameBanks (s.finish e v) := by
  simp [State.SameBanks]

theorem State.lazyStart_eq (s : State) : ∃ p, s.lazyStart = { s with rph := p } := by
  unfold State.lazyStart
  split_ifs
  · exact ⟨_, rfl⟩
  · exact ⟨s.rph, rfl⟩

/-! ### The host's commands -/

/-- A command other than a commit writes the shadow bank or neither (20_memory R51). -/
theorem ExecTo.active_kept {i : Instr} (h : ExecTo s i t) (hi : i ≠ .sbCommit) :
    t.act = s.act ∧ t.active = s.active := by
  have same (k : s.SameBanks t) : t.act = s.act ∧ t.active = s.active := ⟨k.act, k.active⟩
  have shadowOnly (b : Bank) (k : t = (s.setShadow b).finish none 0) : t.act = s.act ∧ t.active = s.active := by
    rw [k, (State.sameBanks_finish _ none 0).active]
    simp
  cases h with
  | closed | again | sendNotReady | badLength | appendFull | orlastEmpty | advance | read =>
    exact same (s.sameBanks_finish _ _)
  | sendHeld | closeHeld => exact same ⟨rfl, rfl, rfl⟩
  | initFails => exact same (by simp [State.SameBanks, State.abortInit])
  | initDevnode | initMmio | sendFails | sendStarts => exact same (by simp [State.SameBanks])
  | close => exact same (by simp [State.SameBanks, State.closeSession])
  | stop => exact same (by simp [State.SameBanks, State.requestStop])
  | reset | append | orlast => exact shadowOnly _ rfl
  | commitHeld | commit => exact absurd rfl hi

/-- A commit writes neither bank, and swaps them between cycles only (40_scrollbuffer R86). -/
theorem ExecTo.commit_banks (h : ExecTo s .sbCommit t) :
    t.bank0 = s.bank0 ∧ t.bank1 = s.bank1 ∧ (t.act ≠ s.act → s.midCycle = false) := by
  have same (k : s.SameBanks t) : t.bank0 = s.bank0 ∧ t.bank1 = s.bank1 ∧ (t.act ≠ s.act → s.midCycle = false) :=
    have ⟨hact, h0, h1⟩ := k
    ⟨h0, h1, fun hne => absurd hact hne⟩
  cases h with
  | closed => exact same (s.sameBanks_finish _ _)
  | commitHeld => exact same ⟨rfl, rfl, rfl⟩
  | sendHeld _ _ ha | sendNotReady _ _ ha | sendFails _ _ ha | sendStarts _ _ ha => cases ha
  | commit _ hm =>
    obtain ⟨p, hp⟩ := State.lazyStart_eq { s with act := !s.act }
    rw [hp]
    exact ⟨by simp, by simp, fun _ => hm⟩

/-! ### The other agents -/

/-- `t` may differ from `s` in the active bank's cursor, in no other part of the banks, and not in `act`. -/
def State.SameButCursor (s t : State) : Prop :=
  t.act = s.act ∧ t.shadow = s.shadow ∧ t.active.data = s.active.data ∧ t.active.length = s.active.length

theorem State.SameBanks.sameButCursor (h : s.SameBanks t) : s.SameButCursor t :=
  ⟨h.act, h.shadow, by rw [h.active], by rw [h.active]⟩

/-- The end of a cycle moves the active cursor (42_refresh R139). -/
theorem rlEnd_sameButCursor (s : State) : s.SameButCursor (rlEnd s) := by
  have h : (s.setActive { s.active with cursor := (s.active.advance s.active.cursor).1 }).SameBanks (rlEnd s) := by
    simp [State.SameBanks, rlEnd]
  exact ⟨by simp [h.act], by simp [h.shadow], by simp [h.active], by simp [h.active]⟩

theorem RlTo.sameButCursor (h : RlTo s t) : s.SameButCursor t := by
  cases h with
  | stays | begins | held | sleeps | halts => exact State.SameBanks.sameButCursor ⟨rfl, rfl, rfl⟩
  | offers => exact State.SameBanks.sameButCursor (by simp [State.SameBanks])
  | moves =>
    obtain ⟨n, p, -, hnext⟩ := rlNext_eq s
    exact State.SameBanks.sameButCursor (by simp [hnext, State.SameBanks])
  | ends => exact rlEnd_sameButCursor s

theorem takeTurn_sameButCursor {turn : Turn} (hturn : turn ≠ .host) (h : takeTurn turn s = .next t) :
    s.SameButCursor t := by
  cases turn with
  | host => exact absurd rfl hturn
  | rl => exact (rlStep_next h).sameButCursor
  | wt => cases h; exact State.SameBanks.sameButCursor (by simp [State.SameBanks])
  | wake =>
    cases h
    rcases timerWake_cases s with k | ⟨-, k⟩ <;> rw [k] <;> exact State.SameBanks.sameButCursor ⟨rfl, rfl, rfl⟩
  | gpio off w => cases h; exact State.SameBanks.sameButCursor (by simp [State.SameBanks])

end

/-- Settles O18: one case analysis over what a command can do, one over the other agents' turns. -/
theorem doubleBufferingKeepsBanksApart : Obligations.DoubleBufferingKeepsBanksApart := by
  refine ⟨fun i s t h => ⟨(exec_next h).active_kept, ?_⟩, fun turn s t hturn h => takeTurn_sameButCursor hturn h⟩
  rintro rfl
  exact (exec_next h).commit_banks

end Sys2Proof.Machine
end

section
/-! PROOFS. The encodings (O1, O2, O3, O4): a command has one request, a request at most one command, and the rows of the
opcode table hit exactly the words that encode a command. -/

namespace Sys2Proof

/-! ### Decoding what was encoded -/

theorem decodeRequest_wtSend (reg val : Byte) : decodeRequest (encode (.wtSend reg val)) = .ok (.wtSend reg val) := by
  simp [encode, decodeRequest, decodeCmd, opField_cmdWord, argHigh_eq, argLow_eq, argField_cmdWord, high_append, low_append]

theorem decodeRequest_sbAdvance (a : Bool) (k : Byte) :
    decodeRequest (encode (.sbAdvance a k)) = .ok (.sbAdvance a k) := by
  simp [encode, decodeRequest, decodeCmd, opField_cmdWord, argQueryZero_eq, argBank_eq, argLow_eq, argField_cmdWord,
    queryArg_zero, queryArg_bank', queryArg_low]

theorem decodeRequest_sbRead (a : Bool) (k : Byte) : decodeRequest (encode (.sbRead a k)) = .ok (.sbRead a k) := by
  simp [encode, decodeRequest, decodeCmd, opField_cmdWord, argQueryZero_eq, argBank_eq, argLow_eq, argField_cmdWord,
    queryArg_zero, queryArg_bank', queryArg_low]

theorem decodeRequest_encode {i : Instr} (h : i.wellFormed = true) : decodeRequest (encode i) = .ok i := by
  cases i with
  | wtInit | wtClose | sbReset | sbCommit | rlStop => decide
  | wtSend reg val => exact decodeRequest_wtSend reg val
  | sbAppend g => exact decodeRequest_sbAppend g
  | sbOrlast m => exact decodeRequest_sbOrlast m
  | sbAdvance a k => exact decodeRequest_sbAdvance a k
  | sbRead a k => exact decodeRequest_sbRead a k
  | wtWrite2 b => exact if_pos (eq_of_beq h)

/-! ### Encoding what was decoded -/

section

variable {w : Word24} {op : Byte}

/-- The operand of a command word is its two bytes. -/
theorem argField_bytes (w : Word24) : argField w = argHigh w ++ argLow w := by
  rw [argHigh_eq, argLow_eq, append_extract]

/-- Where all but the operand's low byte must be zero, that byte says the word. -/
theorem cmdWord_of_high_zero (hop : opField w = op) (hz : argHigh w = 0) : cmdWord op (0#8 ++ argLow w) = w :=
  cmdWord_of_fields hop (by rw [argField_bytes, hz]; rfl)

/-- Where `arg[14:8]` must be zero, the bank select and the index say the word. -/
theorem cmdWord_of_query_zero (hop : opField w = op) (hz : argQueryZero w = 0) :
    cmdWord op (queryArg (argBank w) (argLow w)) = w :=
  cmdWord_of_fields hop (by rw [argBank_eq, argLow_eq, queryArg_fields _ (argQueryZero_eq w ▸ hz)])

/-- No bit of a command word is dropped: the command it stands for has it as its encoding. -/
theorem encode_of_decodeCmd {i : Instr} (h : decodeCmd w = .ok i) : encode i = .cmd w ∧ i.wellFormed = true := by
  rcases decodeCmd_cases w with ⟨hop, hz, hd⟩ | ⟨hop, hd⟩ | ⟨hop, hz, hd⟩ | ⟨hop, hz, hd⟩ | ⟨hop, hz, hd⟩ |
    ⟨hop, hz, hd⟩ | ⟨hop, hz, hd⟩ | ⟨hop, hz, hd⟩ | ⟨hop, hz, hd⟩ | ⟨hop, hz, hd⟩ | hd <;> cases hd.symm.trans h <;>
    refine ⟨congrArg Request.cmd ?_, rfl⟩
  · exact cmdWord_of_fields hop hz
  · exact cmdWord_of_fields hop (argField_bytes w)
  · exact cmdWord_of_fields hop hz
  · exact cmdWord_of_fields hop hz
  · exact cmdWord_of_high_zero hop hz
  · exact cmdWord_of_high_zero hop hz
  · exact cmdWord_of_fields hop hz
  · exact cmdWord_of_query_zero hop hz
  · exact cmdWord_of_query_zero hop hz
  · exact cmdWord_of_fields hop hz

theorem encode_of_decodeBytes {b : List Byte} {i : Instr} (h : decodeBytes b = .ok i) :
    encode i = .bytes b ∧ i.wellFormed = true := by
  unfold decodeBytes at h
  split_ifs at h with hb
  cases h
  exact ⟨rfl, beq_iff_eq.mpr hb⟩

/-! ### The opcode table -/

/-- A word that a row hits encodes a command of the row's name. -/
theorem encode_of_hits {row : OpcodeRow} (hrow : row ∈ opcodeRows) (h : row.hits w = true) :
    ∃ i : Instr, encode i = .cmd w ∧ i.wellFormed = true ∧ i.mnemonic = row.mnemonic := by
  obtain ⟨hInit, hSend, hClose, hReset, hAppend, hOrlast, hCommit, hAdvance, hRead, hStop⟩ := rows_hit w
  simp only [opcodeRows, List.mem_cons, List.not_mem_nil, or_false] at hrow
  rcases hrow with rfl | rfl | rfl | rfl | rfl | rfl | rfl | rfl | rfl | rfl
  · exact ⟨.wtInit, congrArg Request.cmd ((hInit.mp h).elim cmdWord_of_fields), rfl, rfl⟩
  · exact ⟨.wtSend _ _, congrArg Request.cmd (cmdWord_of_fields (hSend.mp h) (argField_bytes w)), rfl, rfl⟩
  · exact ⟨.wtClose, congrArg Request.cmd ((hClose.mp h).elim cmdWord_of_fields), rfl, rfl⟩
  · exact ⟨.sbReset, congrArg Request.cmd ((hReset.mp h).elim cmdWord_of_fields), rfl, rfl⟩
  · exact ⟨.sbAppend _, congrArg Request.cmd ((hAppend.mp h).elim cmdWord_of_high_zero), rfl, rfl⟩
  · exact ⟨.sbOrlast _, congrArg Request.cmd ((hOrlast.mp h).elim cmdWord_of_high_zero), rfl, rfl⟩
  · exact ⟨.sbCommit, congrArg Request.cmd ((hCommit.mp h).elim cmdWord_of_fields), rfl, rfl⟩
  · exact ⟨.sbAdvance _ _, congrArg Request.cmd ((hAdvance.mp h).elim cmdWord_of_query_zero), rfl, rfl⟩
  · exact ⟨.sbRead _ _, congrArg Request.cmd ((hRead.mp h).elim cmdWord_of_query_zero), rfl, rfl⟩
  · exact ⟨.rlStop, congrArg Request.cmd ((hStop.mp h).elim cmdWord_of_fields), rfl, rfl⟩

theorem decodeCmd_of_hits {row : OpcodeRow} (hrow : row ∈ opcodeRows) (h : row.hits w = true) :
    ∃ i, decodeCmd w = .ok i ∧ i.mnemonic = row.mnemonic := by
  obtain ⟨i, he, hi, hm⟩ := encode_of_hits hrow h
  exact ⟨i, (congrArg decodeRequest he).symm.trans (decodeRequest_encode hi), hm⟩

theorem encodedRow_statement (i : Instr) : Laws.EncodedRow.Statement i :=
  match i with
  | .wtInit => Laws.EncodedRow.wtInit
  | .wtSend reg val => Laws.EncodedRow.wtSend reg val
  | .wtClose => Laws.EncodedRow.wtClose
  | .sbReset => Laws.EncodedRow.sbReset
  | .sbAppend g => Laws.EncodedRow.sbAppend g
  | .sbOrlast m => Laws.EncodedRow.sbOrlast m
  | .sbCommit => Laws.EncodedRow.sbCommit
  | .sbAdvance a k => Laws.EncodedRow.sbAdvance a k
  | .sbRead a k => Laws.EncodedRow.sbRead a k
  | .rlStop => Laws.EncodedRow.rlStop
  | .wtWrite2 b => Laws.EncodedRow.wtWrite2 b

/-- A word that encodes a command belongs to that command's row. -/
theorem hits_of_encode {i : Instr} (h : encode i = .cmd w) :
    ∃ row ∈ opcodeRows, row.hits w = true ∧ row.mnemonic = i.mnemonic := by
  obtain ⟨v, hv, hits⟩ | ⟨b, hb, -⟩ := encodedRow_statement i
  · cases hv.symm.trans h
    exact hits
  · cases hb.symm.trans h

theorem hits_of_decodeCmd {i : Instr} (h : decodeCmd w = .ok i) :
    ∃ row ∈ opcodeRows, row.hits w = true ∧ row.mnemonic = i.mnemonic :=
  hits_of_encode (encode_of_decodeCmd h).1

theorem decodeCmd_of_no_hits (h : ∀ row ∈ opcodeRows, row.hits w = false) :
    decodeCmd w = .error (.illegalCommand w) := by
  cases hd : decodeCmd w with
  | ok i =>
    obtain ⟨row, hrow, hits, -⟩ := hits_of_decodeCmd hd
    exact absurd hits (by simp [h row hrow])
  | error e => rw [decodeCmd_error hd]

end

/-- Settles O1, command by command. -/
theorem decodeOfEncodeIsIdentity : Obligations.DecodeOfEncodeIsIdentity := fun _ h => decodeRequest_encode h

/-- Settles O2, port by port. -/
theorem encodeOfDecodeIsIdentity : Obligations.EncodeOfDecodeIsIdentity := by
  intro r i h
  cases r with
  | cmd w => exact encode_of_decodeCmd h
  | bytes b => exact encode_of_decodeBytes h

/-- Settles O3: the words the rows hit, and the words that decode, are the encoded ones. -/
theorem decoderFollowsOpcodeTable : Obligations.DecoderFollowsOpcodeTable := fun _ =>
  ⟨fun _ => hits_of_decodeCmd, fun _ => decodeCmd_of_hits, decodeCmd_of_no_hits⟩

/-- Settles O4 by running the decoder on each word. -/
theorem writtenWordsDecode : Obligations.WrittenWordsDecode := by
  unfold Obligations.WrittenWordsDecode
  decide

end Sys2Proof
end

section
/-! PROOFS. The host's port: the checks before a command, its response, and the host's turn (O5, O6, O7, O8, O9). -/

namespace Sys2Proof.Machine

section

variable {s t : State}

/-! ### The checks before a command -/

/-- `BadState` records the `op` of the command word. -/
theorem opOf_of_encode {i : Instr} {w : Word24} (h : encode i = .cmd w) : opOf i = some (opField w) := by
  cases i <;> cases h <;> exact congrArg some (opField_cmdWord _ _).symm

theorem present_cmd_illegal {w : Word24} (h : ∀ row ∈ opcodeRows, row.hits w = false) (s : State) :
    present s (.cmd w) = .next (s.refuse (.illegalCommand w)) :=
  present_error (r := .cmd w) (decodeCmd_of_no_hits h) s

/-- A legal word runs its command, which has its `op`. -/
theorem present_cmd_legal {w : Word24} (h : ∃ row ∈ opcodeRows, row.hits w = true) (s : State) :
    ∃ i, decodeCmd w = .ok i ∧ opOf i = some (opField w) ∧ present s (.cmd w) = exec i s := by
  obtain ⟨row, hrow, hits⟩ := h
  obtain ⟨i, hd, -⟩ := decodeCmd_of_hits hrow hits
  exact ⟨i, hd, opOf_of_encode (encode_of_decodeCmd hd).1, present_ok (r := .cmd w) hd s⟩

/-! ### What a command does at the port -/

/-- `t` shows the host's ports what `s` shows them: the same moves, responses and events, and the same engines at work. -/
def State.SamePort (s t : State) : Prop :=
  t.hostq = s.hostq ∧ t.responses = s.responses ∧ t.diag = s.diag ∧ t.iph = s.iph ∧ t.fph = s.fph ∧ t.fown = s.fown

theorem State.SamePort.hostWaiting (h : s.SamePort t) : t.hostWaiting = s.hostWaiting := by
  obtain ⟨-, -, -, hi, hf, ho⟩ := h
  simp [State.hostWaiting, State.wtBusy, hi, hf, ho]

theorem State.finish_hostWaiting (s : State) (e : Option Diag) (v : Byte) :
    (s.finish e v).hostWaiting = s.hostWaiting := by
  simp [State.hostWaiting, State.wtBusy]

/-- A command is held, or finishes with its one response, or leaves the host waiting for that (30_encoding R65). -/
inductive PortTo (s : State) : State → Prop
  | held : PortTo s s
  | finished (u : State) (h : s.SamePort u) (event : Option Diag) (v : Byte) : PortTo s (u.finish event v)
  | waits (t : State) (hq : t.hostq = s.hostq.tail) (hr : t.responses = s.responses) (hd : t.diag = s.diag)
      (hw : t.hostWaiting = true) : PortTo s t

theorem ExecTo.port {i : Instr} (h : ExecTo s i t) : PortTo s t := by
  cases h with
  | sendHeld | closeHeld | commitHeld => exact .held
  | closed | again | sendNotReady | badLength | appendFull | orlastEmpty | advance | read =>
    exact .finished s ⟨rfl, rfl, rfl, rfl, rfl, rfl⟩ _ _
  | initFails => exact .finished _ (by simp [State.SamePort, State.abortInit]) _ _
  | initDevnode | sendFails | reset | append | orlast => exact .finished _ (by simp [State.SamePort]) _ _
  | close => exact .finished _ (by simp [State.SamePort, State.closeSession]) _ _
  | stop => exact .finished _ (by simp [State.SamePort, State.requestStop]) _ _
  | commit =>
    have hport : s.SamePort { s with act := !s.act }.lazyStart := by
      obtain ⟨p, hp⟩ := State.lazyStart_eq { s with act := !s.act }
      simp [State.SamePort, hp]
    exact .finished _ hport _ _
  | initMmio | sendStarts => exact .waits _ (by simp) (by simp) (by simp) (by simp [State.hostWaiting, State.wtBusy])

/-! ### The host's turn -/

theorem step_host {turns : List Turn} (h : s.sched = .host :: turns) : step s = hostTurn { s with sched := turns } := by
  rw [step_eq, State.nextTurn_cons h, State.afterTurn_cons h]
  rfl

theorem State.hostWaiting_iff (s : State) :
    s.hostWaiting = true ↔ s.iph ≠ .none0 ∨ (s.fph ≠ .fIdle ∧ s.fown = .host) := by
  simp [State.hostWaiting, State.wtBusy]

end

/-- Settles O5 by the equations of the host's turn. -/
theorem stepRunsPresentedCommand : Obligations.StepRunsPresentedCommand := by
  intro s moves turns hs hw
  constructor
  · intro r hq
    have hpresent : step s = present { s with sched := turns } r :=
      (step_host hs).trans (hostTurn_present (s := { s with sched := turns }) hw hq)
    exact ⟨hpresent, fun i hi => hpresent.trans (present_ok hi _)⟩
  · intro ch hq
    rw [step_host hs, hostTurn_report (s := { s with sched := turns }) hw hq]
    simp [reportFailure, State.accept, State.raise, hq]

/-- Settles O6: a host that waits has no move in its turn. -/
theorem waitingHostPresentsNothing : Obligations.WaitingHostPresentsNothing := fun s _ hs hw =>
  (step_host hs).trans (hostTurn_waiting (s.hostWaiting_iff.mpr hw))

/-- Settles O7, check by check. -/
theorem requestChecksInOrder : Obligations.RequestChecksInOrder := by
  refine fun s w => ⟨fun hno => ?illegal, fun hrow hs => ?destroyed, fun hw hs => ?secondInit, fun hrow hs _ => ?runs⟩
  case illegal => rw [present_cmd_illegal hno, State.refuse_eq, response_illegalCommand]
  case destroyed =>
    obtain ⟨i, -, hop, hp⟩ := present_cmd_legal hrow s
    rw [hp, exec_closed hs, State.refuse_eq, response_badState, hop]
    rfl
  case secondInit =>
    subst hw
    have hd : decodeRequest (.cmd 0x010000#24) = .ok .wtInit := by decide
    rw [present_ok hd, exec_wtInit_again (by simp [hs]) (by simp [hs]), State.refuse_eq, response_badState]
  case runs =>
    obtain ⟨i, hd, -, hp⟩ := present_cmd_legal hrow s
    exact ⟨i, hd, hp⟩

/-- Settles O8: the three ways of `PortTo`. -/
theorem oneResponsePerCommand : Obligations.OneResponsePerCommand := by
  intro i s t hw h
  cases (exec_next h).port with
  | held => exact .inl rfl
  | finished u hu event v =>
    have hwait : (u.finish event v).hostWaiting = false := by rw [u.finish_hostWaiting, hu.hostWaiting, hw]
    obtain ⟨hq, hr, -⟩ := hu
    exact .inr (.inl ⟨by simp [hq], hwait, response event v, by simp [hr]⟩)
  | waits _ hq hr hd hwait => exact .inr (.inr ⟨hq, hwait, hr, hd⟩)

/-- Settles O9: only a command that finishes hands back a response, and that is its event's. -/
theorem responseReportsTheEvent : Obligations.ResponseReportsTheEvent := by
  intro i s t h
  cases (exec_next h).port with
  | held => exact .inl ⟨rfl, fun r hr => by simp at hr⟩
  | waits _ _ hr hd _ => exact .inl ⟨hd, fun r hr' => by simp [hr] at hr'⟩
  | finished u hu event v =>
    obtain ⟨-, hr, hd, -⟩ := hu
    cases event with
    | none =>
      refine .inl ⟨by simp [hd], fun r hr' => ?_⟩
      have hresp : r = response none v := by simpa [hr] using hr'.symm
      rw [hresp]
      exact ⟨response_err none v, response_code none v⟩
    | some e =>
      exact .inr ⟨e, response (some e) v, by simp [hd], by simp [hr], response_err (some e) v, response_code (some e) v⟩

end Sys2Proof.Machine
end

section
/-! PROOFS. The address generator (O10, O11): the successor of a read pointer test by test, and its circulation through the
active slots. -/

namespace Sys2Proof.Machine

section

variable {b : Bank} {i : Byte}

theorem Bank.length_eq_zero_iff (b : Bank) : b.length = 0 ↔ b.length.toNat = 0 := by bv_omega

theorem Bank.length_ne_zero_iff (b : Bank) : b.length ≠ 0 ↔ 0 < b.length.toNat := by
  rw [ne_eq, b.length_eq_zero_iff, Nat.pos_iff_ne_zero]

theorem Bank.advance_beyond (hpos : 0 < b.length.toNat) (hi : b.length.toNat ≤ i.toNat) :
    b.advance i = (i, some (.boundsViolation i)) :=
  Bank.advance_outside (b.length_ne_zero_iff.mpr hpos) (BitVec.le_def.mpr hi)

theorem Bank.readAt_beyond (hpos : 0 < b.length.toNat) (hi : b.length.toNat ≤ i.toNat) :
    b.readAt i = some (0, some (.boundsViolation i)) :=
  Bank.readAt_outside (b.length_ne_zero_iff.mpr hpos) (BitVec.le_def.mpr hi)

/-- The last active slot wraps to slot 0. -/
theorem Bank.advance_last (hi : i.toNat + 1 = b.length.toNat) : b.advance i = (0, none) := by
  obtain ⟨hfst, hsnd⟩ := Bank.advance_inside (show i.toNat < b.length.toNat by omega)
  rw [hi, Nat.mod_self] at hfst
  exact Prod.ext (BitVec.eq_of_toNat_eq hfst) hsnd

theorem Bank.advance_lt (hi : i.toNat < b.length.toNat) : (b.advance i).1.toNat < b.length.toNat := by
  rw [(Bank.advance_inside hi).1]
  exact Nat.mod_lt _ (by omega)

/-- The read pointer circulates: `n` steps move it on by `n` through the active slots. -/
theorem Bank.advance_iterate (n : Nat) (hi : i.toNat < b.length.toNat) :
    ((fun j => (b.advance j).1)^[n] i).toNat = (i.toNat + n) % b.length.toNat := by
  induction n with
  | zero => exact (Nat.mod_eq_of_lt hi).symm
  | succ n ih =>
    have hin : ((fun j => (b.advance j).1)^[n] i).toNat < b.length.toNat := ih ▸ Nat.mod_lt _ (by omega)
    rw [Function.iterate_succ_apply', (Bank.advance_inside hin).1, ih, Nat.mod_add_mod, Nat.add_assoc]

theorem Bank.advance_injective {k : Byte} (hi : i.toNat < b.length.toNat) (hk : k.toNat < b.length.toNat)
    (h : (b.advance i).1 = (b.advance k).1) : i = k := by
  have hmod : i.toNat + 1 ≡ k.toNat + 1 [MOD b.length.toNat] := by
    rw [Nat.ModEq, ← (Bank.advance_inside hi).1, ← (Bank.advance_inside hk).1, h]
  exact BitVec.eq_of_toNat_eq ((Nat.ModEq.add_right_cancel' 1 hmod).eq_of_lt_of_lt hi hk)

/-- Every active slot is a successor: of the pointer one step short of a full turn from it. -/
theorem Bank.advance_surjective {j : Byte} (hj : j.toNat < b.length.toNat) :
    ∃ i : Byte, i.toNat < b.length.toNat ∧ (b.advance i).1 = j := by
  have hlast := Bank.advance_iterate (b.length.toNat - 1) hj
  have hturn := Bank.advance_iterate (b.length.toNat - 1 + 1) hj
  rw [Nat.sub_add_cancel (by omega), Nat.add_mod_right, Nat.mod_eq_of_lt hj] at hturn
  refine ⟨_, hlast ▸ Nat.mod_lt _ (by omega), BitVec.eq_of_toNat_eq ?_⟩
  rw [← hturn, ← Function.iterate_succ_apply' (fun j => (b.advance j).1), Nat.succ_eq_add_one,
    Nat.sub_add_cancel (by omega)]

end

/-- Settles O11, test by test. -/
theorem advanceTestsInOrder : Obligations.AdvanceTestsInOrder := by
  refine fun b i => ⟨fun h0 => Bank.advance_empty (b.length_eq_zero_iff.mpr h0) i, Bank.advance_beyond,
    Bank.advance_last, fun hi => ?_⟩
  obtain ⟨hfst, hsnd⟩ := Bank.advance_inside (show i.toNat < b.length.toNat by omega)
  rw [Nat.mod_eq_of_lt hi] at hfst
  exact ⟨hfst, hsnd⟩

/-- Settles O10: the successor is the circular one, so it iterates as addition and is a bijection of the active slots. -/
theorem advanceIsCircularSuccessor : Obligations.AdvanceIsCircularSuccessor := by
  refine fun b => ⟨fun i hi => ?inside, fun h1 => ?single, fun n i hi => Bank.advance_iterate n hi, fun j hj => ?bijection,
    Bank.advance_empty⟩
  case inside =>
    obtain ⟨hfst, hsnd⟩ := Bank.advance_inside hi
    exact ⟨hfst, hsnd, Bank.advance_lt hi⟩
  case single => exact Bank.advance_last (by simp [h1])
  case bijection =>
    obtain ⟨i, hi, hij⟩ := Bank.advance_surjective hj
    exact ⟨i, ⟨hi, hij⟩, fun k ⟨hk, hkj⟩ => Bank.advance_injective hk hi (hkj.trans hij.symm)⟩

end Sys2Proof.Machine
end

section
/-! PROOFS. The ScrollBuffer commands (O12, O13, O14, O15, O16, O17): the queries of a bank, the writes of the shadow bank
and the swap, each through its command's equation. -/

namespace Sys2Proof.Machine

/-! ### The queries -/

/-- Settles O12: the response is the address generator's answer. -/
theorem sbAdvanceRespondsSuccessor : Obligations.SbAdvanceRespondsSuccessor := by
  refine ⟨decodeRequest_sbAdvance, ?_⟩
  rintro a i s hs _ (rfl : _ = (s.queried a).length.toNat)
  rw [exec_sbAdvance hs]
  refine ⟨fun h0 => ?empty, fun hi => ?inside, fun hpos hi => ?outside⟩
  case empty => rw [Bank.advance_empty ((Bank.length_eq_zero_iff _).mpr h0), State.finish_none, response_none]
  case inside =>
    obtain ⟨hfst, hsnd⟩ := Bank.advance_inside hi
    rw [hsnd, State.finish_none, response_none, hfst]
  case outside => rw [Bank.advance_beyond hpos hi, State.finish_some, response_boundsViolation]

theorem exec_sbRead_of_readAt {s : State} (hs : s.sess ≠ .destroyed) {a : Bool} {i g : Byte} {event : Option Diag}
    (hr : (s.queried a).readAt i = some (g, event)) : exec (.sbRead a i) s = .next (s.finish event g) := by
  rw [exec_sbRead hs, hr]

/-- Settles O13: the response is the glyph the bank answers. -/
theorem sbReadRespondsGlyph : Obligations.SbReadRespondsGlyph := by
  refine ⟨decodeRequest_sbRead, ?_⟩
  rintro a i s hs _ (rfl : _ = s.queried a) hl
  refine ⟨fun h0 => ?empty, fun hi => ?inside, fun hpos hi => ?outside⟩
  case empty => exact exec_sbRead_of_readAt hs (Bank.readAt_empty ((Bank.length_eq_zero_iff _).mpr h0) i)
  case inside => rw [exec_sbRead_of_readAt hs (Bank.readAt_inside hi hl), State.finish_none, response_none]
  case outside =>
    rw [exec_sbRead_of_readAt hs (Bank.readAt_beyond hpos hi), State.finish_some, response_boundsViolation]
    rfl

/-! ### The writes of the shadow bank -/

section

variable (s : State) (b : Bank)

theorem State.setShadow_finish_shadow : ((s.setShadow b).finish none 0).shadow = b := by
  rw [(State.sameBanks_finish _ none 0).shadow, State.setShadow_shadow]

theorem State.setShadow_finish_active : ((s.setShadow b).finish none 0).active = s.active := by
  rw [(State.sameBanks_finish _ none 0).active, State.setShadow_active]

/-- A finished write of the shadow bank changes the banks and the port, and nothing else (20_memory R51). -/
theorem State.setShadow_finish_frame : (s.setShadow b).finish none 0 = { s with
    bank0 := ((s.setShadow b).finish none 0).bank0, bank1 := ((s.setShadow b).finish none 0).bank1,
    hostq := s.hostq.tail, responses := s.responses ++ [0x0000#16] } := by
  rw [State.finish_none, response_ok, s.setShadow_frame b]

end

/-- Settles O14: the shadow bank becomes the empty one. -/
theorem sbResetClearsShadowBank : Obligations.SbResetClearsShadowBank := by
  refine ⟨by decide, fun s hs => ⟨_, exec_sbReset hs, ?_⟩⟩
  have hb := s.setShadow_finish_shadow Bank.empty
  refine ⟨fun j => ?_, congrArg Bank.length hb, congrArg Bank.cursor hb, s.setShadow_finish_active _,
    s.setShadow_finish_frame _⟩
  rw [hb]
  exact Memory.read_nil j

/-- Settles O15: a canonical store reads back the one slot written. -/
theorem sbAppendWritesAtLength : Obligations.SbAppendWritesAtLength := by
  refine ⟨decodeRequest_sbAppend, fun g s hs hwf => ⟨fun hl => ?room, fun hl => ?full⟩⟩
  case room =>
    refine ⟨_, exec_sbAppend_room hs g hl, ?_⟩
    have hl128 : s.shadow.length.toNat < 128 := hl
    rw [State.setShadow_finish_shadow]
    exact ⟨Memory.read_write hwf _ g, by dsimp only; bv_omega, rfl, s.setShadow_finish_active _,
      s.setShadow_finish_frame _⟩
  case full => rw [exec_sbAppend_full hs g hl, State.finish_some, response_bufferFull]

/-- Settles O16: a canonical store reads back the one slot rewritten. -/
theorem sbOrlastMarksNewestGlyph : Obligations.SbOrlastMarksNewestGlyph := by
  refine ⟨decodeRequest_sbOrlast, fun m s hs hwf => ⟨fun hpos hl => ?marks, fun h0 => ?empty⟩⟩
  case marks =>
    refine ⟨_, exec_sbOrlast_some hs m (s.shadow.length_ne_zero_iff.mpr hpos) hl, ?_⟩
    rw [State.setShadow_finish_shadow]
    refine ⟨fun j => ?_, rfl, rfl, s.setShadow_finish_active _, s.setShadow_finish_frame _⟩
    rw [Memory.read_write hwf]
    split_ifs with hj
    · rw [hj]
    · rfl
  case empty =>
    rw [exec_sbOrlast_empty hs m ((Bank.length_eq_zero_iff _).mpr h0), State.finish_some, response_boundsViolation]
    rfl

/-! ### The swap -/

theorem State.midCycle_iff (s : State) : s.midCycle = true ↔
    s.rph = .rBegin ∨ s.rph = .rIssue ∨ s.rph = .rWait ∨ s.rph = .rNext ∨ s.rph = .rEnd := by
  unfold State.midCycle
  cases s.rph <;> simp

theorem State.midCycle_false_iff (s : State) : s.midCycle = false ↔
    s.rph = .rIdle ∨ s.rph = .rSleep ∨ s.rph = .rHalted := by
  unfold State.midCycle
  cases s.rph <;> simp

theorem State.lazyStart_frame (s : State) : s.lazyStart = { s with
    rph := if s.rph = .rIdle ∧ s.stopReq = false then .rBegin else s.rph } := by
  unfold State.lazyStart
  split_ifs <;> rfl

/-- Settles O17: held mid-cycle; otherwise the swap and the lazy start. -/
theorem sbCommitSwapsBetweenCycles : Obligations.SbCommitSwapsBetweenCycles := by
  refine ⟨by decide, fun s hs => ⟨fun hr => ?held, fun hr => ?swaps⟩⟩
  case held => rw [exec_sbCommit hs, if_pos (s.midCycle_iff.mpr hr)]
  case swaps =>
    rw [exec_sbCommit hs, s.midCycle_false_iff.mpr hr, if_neg (by decide), State.lazyStart_frame, State.finish_none,
      response_ok]

end Sys2Proof.Machine
end

section
/-! PROOFS. The engines raise nothing but a frame's `TransportFailure` (O43): under the invariant the sequencer's read
pointers stay where reading and advancing are silent. -/

namespace Sys2Proof.Machine

section

variable {s t : State}

/-! ### Silent reads -/

theorem Bank.Points.advance_silent {b : Bank} {i : Byte} (h : b.Points i) : (b.advance i).2 = none := by
  by_cases h0 : b.length = 0
  · rw [Bank.advance_empty h0]
  · exact (Bank.advance_inside (h.1 (b.length_ne_zero_iff.mp h0))).2

theorem Bank.Points.readAt_silent {b : Bank} {i : Byte} (h : b.Points i) (hl : b.length.toNat ≤ Config.capacity) :
    ∃ g, b.readAt i = some (g, none) := by
  by_cases h0 : b.length = 0
  · exact ⟨_, Bank.readAt_empty h0 i⟩
  · exact ⟨_, Bank.readAt_inside (h.1 (b.length_ne_zero_iff.mp h0)) hl⟩

theorem Bank.Good.length_le {b : Bank} (h : b.Good) : b.length.toNat ≤ Config.capacity := by
  obtain ⟨-, hl, -⟩ := h
  exact hl

/-! ### The turns -/

/-- `t` has the events of `s`, and at most the failure of one frame more. -/
def State.AtMostTransportFailure (s t : State) : Prop :=
  t.diag = s.diag ∨ ∃ f, t.diag = s.diag ++ [.transportFailure f]

theorem rlOffer_atMostTransportFailure (s : State) (g : Byte) : s.AtMostTransportFailure (rlOffer s g) := by
  rcases rlOffer_cases s g with h | h | ⟨-, h⟩ <;> rw [h]
  · exact .inr ⟨frameWord (digitRegister s.cfg.toParams s.pos) g, by simp⟩
  · exact .inr ⟨frameWord (digitRegister s.cfg.toParams s.pos) g, by simp⟩
  · exact .inl (by simp)

theorem rlNext_diag (h : s.active.Points s.idx) : (rlNext s).diag = s.diag := by
  obtain ⟨n, p, -, hnext⟩ := rlNext_eq s
  simp [hnext, h.advance_silent]

theorem rlEnd_diag (h : s.active.Points s.active.cursor) : (rlEnd s).diag = s.diag := by
  simp [rlEnd, h.advance_silent]

/-- The sequencer's turn, its read pointers on active slots (40_scrollbuffer R85). -/
theorem RlTo.atMostTransportFailure (h : RlTo s t) (hi : s.Inv) : s.AtMostTransportFailure t := by
  cases h with
  | stays | begins | held | sleeps | halts => exact .inl rfl
  | offers hr _ g event hread =>
    obtain ⟨g', hsilent⟩ := (hi.idx_points (.inl hr)).readAt_silent hi.active_good.length_le
    rw [hsilent] at hread
    cases hread
    exact rlOffer_atMostTransportFailure s _
  | moves hr => exact .inl (rlNext_diag (hi.idx_points (.inr (.inr hr))))
  | ends => exact .inl (rlEnd_diag hi.active_good.points_cursor)

end

/-- Settles O43, agent by agent: none but the sequencer raises an event. -/
theorem sequencerNeverViolatesBounds : Obligations.SequencerNeverViolatesBounds := by
  intro s t turn hi hturn h
  cases turn with
  | host => exact absurd rfl hturn
  | rl => exact (rlStep_next h).atMostTransportFailure hi
  | wt => cases h; exact .inl (wtStep_diag s)
  | wake => cases h; rcases timerWake_cases s with k | ⟨-, k⟩ <;> exact .inl (by rw [k])
  | gpio off w => cases h; exact .inl (s.otherGpioWrite_diag off w)

end Sys2Proof.Machine
end

section
/-! PROOFS. The wire transport's commands (O19, O23, O24, O25), each through its command's equation. -/

namespace Sys2Proof.Machine

/-- Settles O19 by the acceptance step's three equations. -/
theorem wtInitAcceptance : Obligations.WtInitAcceptance := by
  refine ⟨by decide, fun s hs => ?_⟩
  rw [exec_wtInit_uninit (by simp [hs]) hs]
  refine ⟨fun hd hb => ?devnode, fun hd hb => ?mmio, fun hd => ?aborted⟩
  case devnode =>
    rw [State.acceptInit_devnode hd hb, State.finish_none, response_ok]
    simp
  case mmio =>
    rw [State.acceptInit_mmio hd hb]
    simp [State.accept]
  case aborted =>
    rw [State.acceptInit_fails hd, State.finish_some, response_initializationFailure]
    simp [State.abortInit]

/-- A frame is its register byte above its value byte (30_encoding R61). -/
theorem frame_eq_of_toNat {reg val : Byte} {f : Word16} (h : f.toNat = reg.toNat * 256 + val.toNat) :
    f = reg ++ val := by
  apply BitVec.eq_of_toNat_eq
  rw [h, BitVec.toNat_append, ← Nat.shiftLeft_add_eq_or_of_lt val.isLt, Nat.shiftLeft_eq]

/-- Settles O23 by the four ways of a frame sent for the host. -/
theorem wtSendStartsOrDropsFrame : Obligations.WtSendStartsOrDropsFrame := by
  refine ⟨decodeRequest_wtSend, fun reg val f s hf hs => ?_⟩
  rw [exec_wtSend hs, ← frame_eq_of_toNat hf]
  refine ⟨fun hbusy => sendFrame_held hbusy f, fun hidle hw hx => ?starts, fun hidle hw hx => ?fails,
    fun hidle hw => ?notReady⟩
  case starts =>
    rw [sendFrame_starts hidle hw hx]
    simp [State.accept]
  case fails =>
    rw [sendFrame_fails hidle hw hx, State.finish_some, response_transportFailure]
    simp
  case notReady => rw [sendFrame_notReady hidle hw, State.finish_some, response_transportFailure]

/-- A byte string at the byte port is `WT.WRITE2` of it, whatever its length. -/
theorem present_bytes (b : List Byte) (s : State) : present s (.bytes b) = exec (.wtWrite2 b) s := by
  by_cases hb : b.length = 2
  · exact present_ok (r := .bytes b) (if_pos hb) s
  · refine (present_error (r := .bytes b) (if_neg hb) s).trans ?_
    by_cases hs : s.sess = .destroyed
    · rw [exec_closed hs]
      exact gate_closed hs _ _
    · rw [exec_wtWrite2_other hs hb]
      exact gate_open hs _ _

/-- Settles O24: two bytes have the equation of `WT.SEND`, any other length its own. -/
theorem wtWrite2IsOneFrame : Obligations.WtWrite2IsOneFrame := by
  refine fun b s => ⟨present_bytes b s, ?pair, fun hb hs => ?badLength, fun hs => ?destroyed⟩
  case pair =>
    rintro reg val rfl hs
    rw [exec_wtWrite2_pair hs, exec_wtSend hs]
    refine ⟨rfl, fun hidle hw hx => ?_⟩
    rw [sendFrame_starts hidle hw hx]
    simp [State.accept]
  case badLength => rw [exec_wtWrite2_other hs hb, State.finish_some, response_transportLength]
  case destroyed =>
    rw [exec_closed hs, State.refuse_eq, response_badState]
    rfl

/-- Settles O25: held twice over, or closed; the sequencer that closes is idle or halted already. -/
theorem wtCloseWaitsThenDestroys : Obligations.WtCloseWaitsThenDestroys := by
  refine ⟨by decide, fun s hs => ?_⟩
  rw [exec_wtClose hs]
  refine ⟨fun hheld => ?held, fun hidle hr => ?closes⟩
  case held =>
    rcases hheld with hbusy | hrunning
    · rw [if_pos (s.wtBusy_iff.mpr hbusy)]
    · rw [if_neg (not_or.mpr hrunning), ite_self]
  case closes =>
    rw [if_neg (by simp [s.wtBusy_false_iff.mpr hidle]), if_pos hr, State.finish_none, response_ok]
    rcases hr with hr | hr <;> simp [State.closeSession, hr]

end Sys2Proof.Machine
end

section
/-! PROOFS. A pin event (O26). -/

namespace Sys2Proof.Machine

/-- The accesses a pin event makes on the bus: one strobe under MMIO, none under DEVNODE (41_wire_transport R104). -/
def pinAccesses (p : Params) (l : Line) (level : Bool) : List BusAccess :=
  match p.backend with
  | .devnode => []
  | .mmio => [.write (if level then (p.row l).setOff else (p.row l).clrOff) (strobeWord (p.row l))]

/-- A pin event in full: its line, the trace, and its accesses on the bus. -/
theorem State.pinEvent_explicit (s : State) (l : Line) (level : Bool) :
    s.pinEvent l level = { s with
      lines := s.lines.set l (Level.ofBool level), trace := s.trace ++ [.pin l level],
      bus := s.bus ++ pinAccesses s.cfg.toParams l level } := by
  have hbus : (s.pinEvent l level).bus = s.bus ++ pinAccesses s.cfg.toParams l level := s.pinEvent_bus l level
  rw [← hbus]
  exact s.pinEvent_frame l level

theorem pinAccesses_devnode {p : Params} (h : p.backend = .devnode) (l : Line) (level : Bool) :
    pinAccesses p l level = [] := by
  simp [pinAccesses, h]

theorem pinAccesses_mmio {p : Params} (h : p.backend = .mmio) (l : Line) (level : Bool) :
    pinAccesses p l level =
      [.write (if level then (p.row l).setOff else (p.row l).clrOff) (strobeWord (p.row l))] := by
  simp [pinAccesses, h]

/-- Settles O26, backend by backend. -/
theorem pinEventIsOneStrobe : Obligations.PinEventIsOneStrobe := by
  refine fun s l level => ⟨fun hb => ?devnode, fun hb => ?mmio, rfl, rfl⟩
  case devnode => rw [s.pinEvent_explicit, pinAccesses_devnode hb, List.append_nil]
  case mmio =>
    rw [s.pinEvent_explicit, pinAccesses_mmio hb]
    rfl

end Sys2Proof.Machine
end

section
/-! PROOFS. The direction updates of an MMIO initialisation (O20, O21). -/

namespace Sys2Proof

/-- Bit `k` of the register at `off` belongs to the pin's function field (10_state R30). -/
abbrev PinRow.Owns (r : PinRow) (off k : Nat) : Prop :=
  off = r.fselOff ∧ r.fselShift.val ≤ k ∧ k < r.fselShift.val + 3

/-- No bit belongs to the fields of two of the block's pins (20_memory R46). -/
theorem Params.ok_owns_unique {p : Params} (h : p.ok = true) {l m : Line} {off k : Nat} (hl : (p.row l).Owns off k)
    (hm : (p.row m).Owns off k) : l = m := by
  by_contra hlm
  obtain ⟨hlo, hl1, hl2⟩ := hl
  obtain ⟨hmo, hm1, hm2⟩ := hm
  rcases Params.ok_fields h (p.row_mem l) (p.row_mem m) (Params.ok_row_inj h hlm) with hoff | hfields | hfields
  · exact hoff (hlo.symm.trans hmo)
  · omega
  · omega

namespace Machine

/-! ### The word written -/

theorem fselWord_bit (read : Word32) {shift : Nat} (fn : BitVec 3) (k : Nat) (hs : shift ≤ 29) :
    (fselWord read shift fn).getLsbD k =
      if shift ≤ k ∧ k < shift + 3 then fn.getLsbD (k - shift) else read.getLsbD k := by
  by_cases hk : k < 32
  · unfold fselWord
    simp only [BitVec.getLsbD_or, BitVec.getLsbD_and, BitVec.getLsbD_not, BitVec.getLsbD_shiftLeft,
      BitVec.getLsbD_setWidth, fieldMask_bit shift k hk]
    split_ifs with hin
    · obtain ⟨hlow, hhigh⟩ := hin
      simp [hlow, hhigh, hk, show ¬ k < shift by omega, show k - shift < 32 by omega]
    · by_cases hlow : k < shift
      · simp [hin, hk, hlow]
      · have hfn : fn.getLsbD (k - shift) = false := BitVec.getLsbD_of_ge _ _ (by omega)
        simp [hin, hk, hfn]
  · rw [BitVec.getLsbD_of_ge _ _ (by omega), BitVec.getLsbD_of_ge read _ (by omega), if_neg (by omega)]

/-- Settles O21, bit by bit. -/
theorem directionWriteKeepsOtherFields : Obligations.DirectionWriteKeepsOtherFields :=
  fun read _ fn k hs => fselWord_bit read fn k hs

/-! ### A direction update -/

section

variable (s : State) (l : Line)

/-- The word a pin's direction update writes (41_wire_transport R102). -/
def State.directedWord (s : State) (l : Line) : Word32 :=
  fselWord (s.fselRead (s.cfg.row l).fselOff) (s.cfg.row l).fselShift.val s.cfg.fselOut

/-- The state after the read and the write of a pin's direction update, no other GPIO user between them
(41_wire_transport R102). -/
def State.directed (s : State) (l : Line) : State :=
  { s.fselWrite (s.cfg.row l).fselOff (s.directedWord l) with
    ftmp := s.fselRead (s.cfg.row l).fselOff
    bus := s.bus ++ [.read (s.cfg.row l).fselOff (s.fselRead (s.cfg.row l).fselOff),
      .write (s.cfg.row l).fselOff (s.directedWord l)] }

/-- The write that follows a pin's read completes the direction update, whatever the phase. -/
theorem dirWrite_dirRead (p : InitPhase) :
    dirWrite { dirRead s (s.cfg.row l) with iph := p } (s.cfg.row l) = { s.directed l with iph := p } := by
  rw [dirWrite_eq (s := { dirRead s (s.cfg.row l) with iph := p }) (Params.row_mem s.cfg.toParams l)]
  simp only [State.directed, dirRead, State.busRead, State.fselWrite, List.append_assoc]
  rfl

theorem State.directed_bus : ∃ a b, (s.directed l).bus =
    s.bus ++ [.read (s.cfg.row l).fselOff a, .write (s.cfg.row l).fselOff b] := ⟨_, _, rfl⟩

@[simp] theorem State.directed_cfg : (s.directed l).cfg = s.cfg := rfl

variable {s}

theorem State.directed_wf (hwf : Store.wf (fselUnlisted s.cfg.toParams) s.fsel = true) :
    Store.wf (fselUnlisted (s.directed l).cfg.toParams) (s.directed l).fsel = true := State.fselWrite_wf hwf _ _

/-- A direction update sets the pin's own bits to the function code's and leaves every other bit of every register. -/
theorem State.directed_bit (hwf : Store.wf (fselUnlisted s.cfg.toParams) s.fsel = true) (off k : Nat) :
    ((s.directed l).fselRead off).getLsbD k =
      if (s.cfg.row l).Owns off k then s.cfg.fselOut.getLsbD (k - (s.cfg.row l).fselShift.val)
      else (s.fselRead off).getLsbD k := by
  have hread : (s.directed l).fselRead off = if off = (s.cfg.row l).fselOff then s.directedWord l else s.fselRead off :=
    State.fselRead_fselWrite hwf _ _ _
  rw [hread]
  by_cases hoff : off = (s.cfg.row l).fselOff
  · subst hoff
    rw [if_pos rfl, State.directedWord, fselWord_bit _ _ _ (by omega)]
    simp only [PinRow.Owns, true_and]
  · rw [if_neg hoff, if_neg fun howns => hoff howns.1]

/-- The updates of a list of pins change only the function-select registers, `ftmp` and the bus history. -/
theorem State.directedAll_frame (s : State) (ls : List Line) : ls.foldl State.directed s = { s with
    fsel := (ls.foldl State.directed s).fsel, ftmp := (ls.foldl State.directed s).ftmp,
    bus := (ls.foldl State.directed s).bus } := by
  induction ls generalizing s with
  | nil => rfl
  | cons l ls ih => exact ih (s.directed l)

/-- The updates of a list of pins leave every bit that belongs to none of them. -/
theorem State.directedAll_bit_other {ls : List Line} (hwf : Store.wf (fselUnlisted s.cfg.toParams) s.fsel = true)
    {off k : Nat} (hno : ∀ l ∈ ls, ¬ (s.cfg.row l).Owns off k) :
    ((ls.foldl State.directed s).fselRead off).getLsbD k = (s.fselRead off).getLsbD k := by
  induction ls generalizing s with
  | nil => rfl
  | cons l ls ih =>
    rw [List.foldl_cons, ih (State.directed_wf l hwf) (fun m hm => hno m (by simp [hm])), State.directed_bit l hwf,
      if_neg (hno l (by simp))]

/-- The updates of a list of different pins set the fields of all of them. -/
theorem State.directedAll_bit_own {ls : List Line} (hwf : Store.wf (fselUnlisted s.cfg.toParams) s.fsel = true)
    (hnodup : ls.Nodup) {l : Line} (hl : l ∈ ls) {off k : Nat} (howns : (s.cfg.row l).Owns off k) :
    ((ls.foldl State.directed s).fselRead off).getLsbD k =
      s.cfg.fselOut.getLsbD (k - (s.cfg.row l).fselShift.val) := by
  induction ls generalizing s with
  | nil => cases hl
  | cons m ls ih =>
    rw [List.nodup_cons] at hnodup
    obtain ⟨hm, hnodup⟩ := hnodup
    rw [List.foldl_cons]
    rcases List.mem_cons.mp hl with rfl | hl
    · rw [State.directedAll_bit_other (State.directed_wf l hwf), State.directed_bit l hwf, if_pos howns]
      exact fun q hq hqowns => hm (Params.ok_owns_unique s.cfg.good hqowns howns ▸ hq)
    · exact ih (State.directed_wf m hwf) hnodup hl howns

/-! ### The six accesses -/

/-- The end of a pin's direction update: the next pin's read comes next, or the initialisation is done
(41_wire_transport R101). -/
def State.endDirection (s : State) : Line → State
  | .load => { s with iph := .readClk3 }
  | .clk => { s with iph := .readDin5 }
  | .din => initDone s

theorem State.endDirection_iph (s : State) (l : Line) (p : InitPhase) :
    { s with iph := p }.endDirection l = s.endDirection l := by
  cases l <;> rfl

theorem wtStep_writing {l : Line} (hf : s.fph = .fIdle) (hi : s.iph = InitPhase.writing l) :
    wtStep s = (dirWrite s (s.cfg.row l)).endDirection l := by
  rw [wtStep_free hf]
  cases l with
  | load => exact initStep_writeLoad hi
  | clk => exact initStep_writeClk hi
  | din => exact initStep_writeDin hi

/-- Two wire steps are one direction update. -/
theorem wtStep_wtStep_reading (u : State) (l : Line) (hf : u.fph = .fIdle) :
    wtStep (wtStep { u with iph := InitPhase.reading l }) = (u.directed l).endDirection l := by
  have hwrite := wtStep_writing (s := { dirRead u (u.cfg.row l) with iph := InitPhase.writing l }) (l := l) hf rfl
  rw [wtStep_reading (s := { u with iph := InitPhase.reading l }) hf rfl]
  have hboth := congrArg (State.endDirection · l) (dirWrite_dirRead u l (InitPhase.writing l))
  exact hwrite.trans (hboth.trans (State.endDirection_iph _ l _))

end

/-- A run of wire steps alone. -/
theorem runTurns_wt (n : Nat) (s : State) : runTurns (List.replicate n .wt) s = .next (wtStep^[n] s) := by
  induction n generalizing s with
  | zero => rfl
  | succ n ih =>
    rw [List.replicate_succ, runTurns_cons (s' := wtStep s) rfl, ih]
    rfl

/-- The six wire steps of an initialisation are the three direction updates. -/
theorem wtStep_six {s : State} (hf : s.fph = .fIdle) (hi : s.iph = .readLoad1) :
    wtStep^[6] s = initDone ([Line.load, .clk, .din].foldl State.directed s) := by
  have hload : wtStep (wtStep s) = (s.directed .load).endDirection .load := by
    rw [← wtStep_wtStep_reading s .load hf]
    exact congrArg (fun p => wtStep (wtStep { s with iph := p })) hi
  have hclk : wtStep (wtStep ((s.directed .load).endDirection .load)) =
      ((s.directed .load).directed .clk).endDirection .clk := wtStep_wtStep_reading (s.directed .load) .clk hf
  have hdin : wtStep (wtStep (((s.directed .load).directed .clk).endDirection .clk)) =
      initDone (((s.directed .load).directed .clk).directed .din) :=
    wtStep_wtStep_reading ((s.directed .load).directed .clk) .din hf
  simp only [Function.iterate_succ_apply, Function.iterate_zero_apply, hload, hclk, hdin, List.foldl_cons,
    List.foldl_nil]

/-- Settles O20: six steps are three direction updates, whose fields do not overlap. -/
theorem initialisationMakesPinsOutputs : Obligations.InitialisationMakesPinsOutputs := by
  intro s hi hf hwf
  have hframe := State.directedAll_frame s [.load, .clk, .din]
  refine ⟨_, (runTurns_wt 6 s).trans (congrArg _ (wtStep_six hf hi)), rfl, rfl, rfl, ?response, fun l k hk => ?own,
    fun off k hno => ?other, ?accesses, ?frame⟩
  case response => rw [hframe]; rfl
  case own =>
    have hbit := State.directedAll_bit_own hwf (ls := [.load, .clk, .din]) (by decide) (l := l) (by cases l <;> decide)
      (off := (s.cfg.row l).fselOff) (k := (s.cfg.row l).fselShift.val + k) ⟨rfl, by omega, by omega⟩
    rwa [Nat.add_sub_cancel_left] at hbit
  case other =>
    refine State.directedAll_bit_other hwf fun l _ howns => ?_
    obtain ⟨hoff, hlow, hhigh⟩ := howns
    rcases hno l hoff.symm with h | h <;> omega
  case accesses =>
    obtain ⟨a, b, hload⟩ := s.directed_bus .load
    obtain ⟨c, d, hclk⟩ := (s.directed .load).directed_bus .clk
    obtain ⟨e, f, hdin⟩ := ((s.directed .load).directed .clk).directed_bus .din
    refine ⟨a, b, c, d, e, f, hdin.trans ?_⟩
    rw [hclk, hload, List.append_assoc, List.append_assoc]
    rfl
  case frame => rw [hframe]; rfl

end Machine

end Sys2Proof
end

section
/-! PROOFS. A frame's events: their counts (O30), the frame the wire engine makes of them (O29). -/

namespace Sys2Proof.Machine

/-! ### The counts -/

section

variable (a : Bool) (f : Word16)

/-- Events counted in a frame: those of LOAD, and sixteen times those of a bit, where every bit has as many. -/
theorem frameEvents_countP (p : WireEvent → Bool) {c : Nat} (hc : ∀ b, (bitEvents b).countP p = c) :
    (frameEvents a f).countP p =
      [WireEvent.pin .load a, .pin .load (!a), .pin .load a].countP p + 16 * c := by
  have hbits : ((List.range 16).flatMap fun t => bitEvents (f.getLsbD (15 - t))).countP p = 16 * c := by
    simp only [List.countP_flatMap, Function.comp_def, hc, List.map_const', List.sum_replicate, List.length_range,
      smul_eq_mul]
  simp only [frameEvents, List.countP_append, hbits, List.countP_cons, List.countP_nil]
  omega

theorem frameEvents_length : (frameEvents a f).length = 83 := by
  rw [← List.countP_true, frameEvents_countP a f _ (c := 5) fun _ => rfl]
  rfl

theorem frameEvents_pinCount : pinCount (frameEvents a f) = 51 :=
  (frameEvents_countP a f _ (c := 3) fun _ => rfl).trans rfl

/-- The DIN levels of a frame are its bits, bit 15 first (30_encoding R62). -/
theorem frameEvents_din (g : WireEvent → Option Bool)
    (hpin : ∀ l v, g (.pin l v) = if l = .din then some v else none) (hdelay : g .delay = none) :
    (frameEvents a f).filterMap g = (List.range 16).map fun t => f.getLsbD (15 - t) := by
  have hbit : ∀ b, (bitEvents b).filterMap g = [b] := fun b => by simp [bitEvents, hpin, hdelay]
  simp [frameEvents, List.filterMap_flatMap, hbit, hpin, List.map_eq_flatMap]

end

/-- Settles O30: three events of LOAD, and in each of sixteen bits two of CLK, one of DIN and two delays. -/
theorem frameEventCounts : Obligations.FrameEventCounts := by
  refine fun a f => ⟨frameEvents_length a f, frameEvents_pinCount a f, ?delays, ?load, ?clkHigh, ?clkLow, ?din⟩
  case delays => exact frameEvents_countP a f _ (c := 2) fun b => by cases b <;> rfl
  case load => exact (frameEvents_countP a f _ (c := 0) fun b => by cases b <;> rfl).trans (by cases a <;> rfl)
  case clkHigh => exact (frameEvents_countP a f _ (c := 1) fun b => by cases b <;> rfl).trans (by cases a <;> rfl)
  case clkLow => exact (frameEvents_countP a f _ (c := 1) fun b => by cases b <;> rfl).trans (by cases a <;> rfl)
  case din => exact frameEvents_din a f _ (fun l v => by cases l <;> rfl) rfl

/-! ### Events issued -/

/-- The lines after an event. -/
def Lines.after (ls : Lines) : WireEvent → Lines
  | .pin l v => ls.set l (Level.ofBool v)
  | .delay => ls

/-- The accesses an event makes on the bus (41_wire_transport R104). -/
def eventAccesses (p : Params) : WireEvent → List BusAccess
  | .pin l v => pinAccesses p l v
  | .delay => []

/-- The state after a stretch of events is issued, with the wire engine's phase and bit registers as given. -/
def State.issued (s : State) (es : List WireEvent) (f : FramePhase) (n : BitVec 4) : State :=
  { s with
    lines := es.foldl Lines.after s.lines, trace := s.trace ++ es,
    bus := s.bus ++ es.flatMap (eventAccesses s.cfg.toParams), fph := f, bitn := n }

section

variable (s : State) (es : List WireEvent) (f : FramePhase) (n : BitVec 4)

theorem State.issued_nil (hf : s.fph = f) (hn : s.bitn = n) : s.issued [] f n = s := by
  subst hf hn
  simp [State.issued]

theorem State.issued_issued (es' : List WireEvent) (f' : FramePhase) (n' : BitVec 4) :
    (s.issued es f n).issued es' f' n' = s.issued (es ++ es') f' n' := by
  simp [State.issued]

/-- A pin event issues itself, and leaves the phase and bit registers. -/
theorem State.issued_pinEvent (l : Line) (v : Bool) : s.pinEvent l v = s.issued [.pin l v] s.fph s.bitn := by
  rw [State.pinEvent_explicit]
  simp [State.issued, eventAccesses, Lines.after]

theorem State.issued_delayEvent : { s.delayEvent with bitn := n, fph := f } = s.issued [.delay] f n := by
  simp [State.issued, eventAccesses, State.delayEvent, State.record, Lines.after]

/-! ### The rows of the micro-step table, from a state in the middle of a frame -/

/-- A row that issues a pin event (41_wire_transport R105). -/
theorem wtStep_issued_pin {f f' : FramePhase} {l : Line} {v : Bool} (hf : f ≠ .fIdle)
    (h : frameStep (s.issued es f n) = { (s.issued es f n).pinEvent l v with fph := f' }) :
    wtStep (s.issued es f n) = s.issued (es ++ [.pin l v]) f' n := by
  rw [wtStep_busy hf, h, State.issued_pinEvent, ← State.issued_issued s es f n]
  rfl

theorem wtStep_loadA : wtStep (s.issued es .fLoadA n) = s.issued (es ++ [.pin .load s.cfg.loadAssertLevel]) .fClkLo n :=
  wtStep_issued_pin s es n (by decide) (frameStep_loadA rfl)

theorem wtStep_clkLo : wtStep (s.issued es .fClkLo n) = s.issued (es ++ [.pin .clk false]) .fDin n :=
  wtStep_issued_pin s es n (by decide) (frameStep_clkLo rfl)

theorem wtStep_din : wtStep (s.issued es .fDin n) = s.issued (es ++ [.pin .din (s.sh.getLsbD n.toNat)]) .fDly1 n :=
  wtStep_issued_pin s es n (by decide) (frameStep_din rfl)

theorem wtStep_dly1 : wtStep (s.issued es .fDly1 n) = s.issued (es ++ [.delay]) .fClkHi n := by
  rw [wtStep_busy (by simp [State.issued]), frameStep_dly1 rfl, ← State.issued_issued, ← State.issued_delayEvent]
  rfl

theorem wtStep_clkHi : wtStep (s.issued es .fClkHi n) = s.issued (es ++ [.pin .clk true]) .fDly2 n :=
  wtStep_issued_pin s es n (by decide) (frameStep_clkHi rfl)

theorem wtStep_dly2_last : wtStep (s.issued es .fDly2 0) = s.issued (es ++ [.delay]) .fLoadD 0 := by
  rw [wtStep_busy (by simp [State.issued]), frameStep_dly2_last rfl rfl, ← State.issued_issued,
    ← State.issued_delayEvent]
  rfl

theorem wtStep_dly2 (hn : n ≠ 0) : wtStep (s.issued es .fDly2 n) = s.issued (es ++ [.delay]) .fClkLo (n - 1) := by
  rw [wtStep_busy (by simp [State.issued]), frameStep_dly2 rfl hn, ← State.issued_issued, ← State.issued_delayEvent]
  rfl

theorem wtStep_loadD :
    wtStep (s.issued es .fLoadD n) = s.issued (es ++ [.pin .load (!s.cfg.loadAssertLevel)]) .fLoadR n :=
  wtStep_issued_pin s es n (by decide) (frameStep_loadD rfl)

theorem wtStep_loadR :
    wtStep (s.issued es .fLoadR n) = (s.issued (es ++ [.pin .load s.cfg.loadAssertLevel]) .fLoadR n).completeFrame := by
  rw [wtStep_busy (by simp [State.issued]), frameStep_loadR rfl, ← State.issued_issued s es .fLoadR n]
  exact congrArg State.completeFrame (State.issued_pinEvent _ _ _)

/-! ### A bit, the sixteen bits, the frame -/

/-- The first four steps of a bit: its number decides at the fifth where it leads. -/
theorem wtStep_bit_start : wtStep^[4] (s.issued es .fClkLo n) =
    s.issued (es ++ [.pin .clk false, .pin .din (s.sh.getLsbD n.toNat), .delay, .pin .clk true]) .fDly2 n := by
  simp only [Function.iterate_succ_apply, Function.iterate_zero_apply, wtStep_clkLo, wtStep_din, wtStep_dly1,
    wtStep_clkHi, List.append_assoc, List.cons_append, List.nil_append]

/-- The bits from number `k` down, five steps each, lead to the transfer (41_wire_transport R105). -/
theorem wtStep_bits (k : Nat) (hk : k < 16) : wtStep^[5 * (k + 1)] (s.issued es .fClkLo (BitVec.ofNat 4 k)) =
    s.issued (es ++ (List.range (k + 1)).flatMap fun t => bitEvents (s.sh.getLsbD (k - t))) .fLoadD 0 := by
  induction k generalizing es with
  | zero =>
    rw [show 5 * (0 + 1) = 1 + 4 from rfl, Function.iterate_add_apply, wtStep_bit_start]
    refine (wtStep_dly2_last s _).trans ?_
    simp [bitEvents]
  | succ k ih =>
    have hne : BitVec.ofNat 4 (k + 1) ≠ 0 := by bv_omega
    have hpred : BitVec.ofNat 4 (k + 1) - 1 = BitVec.ofNat 4 k := by bv_omega
    have hnum : (BitVec.ofNat 4 (k + 1)).toNat = k + 1 := by bv_omega
    rw [show 5 * (k + 1 + 1) = 5 * (k + 1) + 1 + 4 from rfl, Function.iterate_add_apply, wtStep_bit_start,
      Function.iterate_succ_apply, wtStep_dly2 s _ _ hne, hpred, ih _ (by omega), hnum,
      List.range_succ_eq_map (n := k + 1)]
    simp [bitEvents, List.flatMap_map]

/-- The 83 wire steps of a frame issue its events and complete it. -/
theorem wtStep_frame (hf : s.fph = .fLoadA) (hn : s.bitn = 15) :
    wtStep^[83] s = (s.issued (frameEvents s.cfg.loadAssertLevel s.sh) .fLoadR 0).completeFrame := by
  have hstart : wtStep s = s.issued [.pin .load s.cfg.loadAssertLevel] .fClkLo 15 := by
    have h := wtStep_loadA s [] 15
    rwa [s.issued_nil _ _ hf hn] at h
  have hbits := wtStep_bits s [.pin .load s.cfg.loadAssertLevel] 15 (by decide)
  rw [show 83 = 2 + 5 * (15 + 1) + 1 from rfl, Function.iterate_succ_apply, hstart, Function.iterate_add_apply]
  refine (congrArg wtStep^[2] hbits).trans ?_
  rw [Function.iterate_succ_apply, wtStep_loadD, Function.iterate_succ_apply, wtStep_loadR, Function.iterate_zero_apply,
    List.append_assoc, List.append_assoc]
  rfl

end

end Sys2Proof.Machine
end

section
/-! PROOFS. A started frame runs to its completion (O29). -/

namespace Sys2Proof.Machine

section

variable (s : State)

/-- The completion of a frame, whoever asked for it: the host has its response, the sequencer goes to `NEXT`
(41_wire_transport R108). -/
theorem State.completeFrame_eq : s.completeFrame = { s with
    frames := s.frames ++ [(frameReg s.sh, frameVal s.sh)]
    fph := .fIdle
    responses := if s.fown = .host then s.responses ++ [0x0000#16] else s.responses
    rph := if s.fown = .rl then .rNext else s.rph } := by
  cases h : s.fown with
  | host =>
    rw [completeFrame_host h, response_ok]
    simp [h]
  | rl => simp [completeFrame_rl h, h]

/-- A frame leaves LOAD asserted, CLK high and DIN at the frame's last bit (41_wire_transport R111). -/
theorem frameEvents_lines (a : Bool) (f : Word16) (ls : Lines) : (frameEvents a f).foldl Lines.after ls =
    { load := Level.ofBool a, clk := .hi, din := Level.ofBool (f.getLsbD 0) } := by
  rw [frameEvents, List.range_succ (n := 15), List.flatMap_append, List.foldl_append, List.foldl_append,
    List.foldl_append]
  rfl

theorem eventAccesses_devnode {p : Params} (h : p.backend = .devnode) (es : List WireEvent) :
    es.flatMap (eventAccesses p) = [] := by
  rw [List.flatMap_eq_nil_iff]
  rintro (⟨l, v⟩ | _) -
  · exact pinAccesses_devnode h l v
  · rfl

/-- Under MMIO every pin event is one access. -/
theorem eventAccesses_length {p : Params} (h : p.backend = .mmio) (es : List WireEvent) :
    (es.flatMap (eventAccesses p)).length = pinCount es := by
  induction es with
  | nil => rfl
  | cons e es ih =>
    have hone : (eventAccesses p e).length = if e != .delay then 1 else 0 := by
      cases e with
      | pin l v => rw [eventAccesses, pinAccesses_mmio h]; rfl
      | delay => rfl
    rw [List.flatMap_cons, List.length_append, ih, hone, pinCount, pinCount, List.countP_cons, Nat.add_comm]

/-- The block's accesses for its events are writes. -/
theorem eventAccesses_write {p : Params} {es : List WireEvent} {x : BusAccess}
    (hx : x ∈ es.flatMap (eventAccesses p)) : ∃ off w, x = .write off w := by
  obtain ⟨e, -, hx⟩ := List.mem_flatMap.mp hx
  cases e with
  | pin l v =>
    cases hb : p.backend with
    | devnode => simp [eventAccesses, pinAccesses_devnode hb] at hx
    | mmio =>
      rw [eventAccesses, pinAccesses_mmio hb, List.mem_singleton] at hx
      exact ⟨_, _, hx⟩
  | delay => cases hx

end

/-- Settles O29: the 83 steps issue the frame's events and complete it. -/
theorem frameRunsToCompletion : Obligations.FrameRunsToCompletion := by
  intro s hf hn
  have hend := (wtStep_frame s hf hn).trans (State.completeFrame_eq _)
  refine ⟨_, (runTurns_wt 83 s).trans (congrArg _ hend), rfl, rfl, rfl, rfl, frameEvents_lines _ _ _, fun ho => ?host,
    fun ho => ?rl, fun hb => ?devnode, fun hb => ⟨_, rfl, ?count, fun _ => eventAccesses_write⟩, rfl⟩
  case host => simp [State.issued, ho]
  case rl => simp [State.issued, ho]
  case devnode => simp [State.issued, eventAccesses_devnode hb]
  case count => rw [eventAccesses_length hb, frameEvents_pinCount]

end Sys2Proof.Machine
end

section
/-! PROOFS. What the reference receiver is delivered (O31). -/

namespace Sys2Proof.Machine

/-- A bit shifted into the receiver's register (41_wire_transport R121). -/
def shiftIn (w : Word16) (b : Bool) : Word16 := w.extractLsb' 0 15 ++ BitVec.ofBool b

theorem shiftIn_bit (w : Word16) (b : Bool) (k : Nat) (hk : k < 16) :
    (shiftIn w b).getLsbD k = if k = 0 then b else w.getLsbD (k - 1) := by
  unfold shiftIn
  rw [BitVec.getLsbD_append]
  by_cases h0 : k = 0
  · simp [h0]
  · simp [h0, show ¬ k < 1 by omega, show k - 1 < 15 by omega]

/-- After `n` bits shifted in, the newest stands in bit 0. -/
theorem shiftIn_bits (g : Nat → Bool) (w : Word16) (n k : Nat) (hk : k < 16) :
    (((List.range n).map g).foldl shiftIn w).getLsbD k = if k < n then g (n - 1 - k) else w.getLsbD (k - n) := by
  induction n generalizing k with
  | zero => rfl
  | succ n ih =>
    rw [List.range_succ, List.map_append, List.foldl_append]
    refine (shiftIn_bit _ _ k hk).trans ?_
    by_cases h0 : k = 0
    · simp [h0]
    · rw [if_neg h0, ih (k - 1) (by omega)]
      simp only [show k - 1 < n ↔ k < n + 1 by omega, show n - 1 - (k - 1) = n + 1 - 1 - k by omega,
        show k - 1 - n = k - (n + 1) by omega]

/-- Sixteen bits shifted in, bit 15 first, are the whole register (30_encoding R62). -/
theorem shiftIn_frame (w f : Word16) : ((List.range 16).map fun t => f.getLsbD (15 - t)).foldl shiftIn w = f := by
  refine BitVec.eq_of_getLsbD_eq fun k hk => ?_
  rw [shiftIn_bits _ _ _ _ hk, if_pos hk]
  congr 1
  omega

section

variable (d : ReceiverDraws) (a : Bool) (r : Receiver)

theorem observeAll_append (t u : List WireEvent) :
    r.observeAll d a (t ++ u) = (r.observeAll d a t).observeAll d a u := List.foldl_append

/-- The events of a bit shift it in: CLK is low before it rises, whatever it was (41_wire_transport R105, R121). -/
theorem observeAll_bit (b : Bool) : r.observeAll d a (bitEvents b) =
    { r with sr := shiftIn r.sr b, clk := .hi, din := Level.ofBool b } := by
  cases b <;> rfl

/-- The events of some bits shift them in, and deliver nothing. -/
theorem observeAll_bits (bs : List Bool) : ∃ c v, r.observeAll d a (bs.flatMap bitEvents) =
    { r with sr := bs.foldl shiftIn r.sr, clk := c, din := v } := by
  induction bs generalizing r with
  | nil => exact ⟨_, _, rfl⟩
  | cons b bs ih =>
    rw [List.flatMap_cons, observeAll_append, observeAll_bit]
    exact ih _

/-- The word delivered when LOAD is asserted before a frame: one if that completes a pair, else none
(41_wire_transport R122, 70_reset R213). -/
def Receiver.extra (d : ReceiverDraws) (a : Bool) (r : Receiver) : List Word16 :=
  if r.pairs d a then [r.sr] else []

theorem Receiver.extra_length : (r.extra d a).length ≤ 1 := by
  unfold Receiver.extra
  split_ifs <;> simp

theorem Receiver.extra_asserted (h : r.load = Level.ofBool a) : r.extra d a = [] := by
  cases a <;> simp [Receiver.extra, Receiver.pairs, h, Level.ofBool]

/-- Asserting LOAD delivers the extra word, if any, and shifts nothing. -/
theorem observe_load_assert : ∃ w, r.observe d a (.pin .load a) =
    { r with out := w, delivered := r.delivered ++ r.extra d a, load := Level.ofBool a } := by
  unfold Receiver.observe Receiver.extra
  cases r.pairs d a with
  | false => exact ⟨r.out, by simp⟩
  | true => exact ⟨r.sr, by simp [Receiver.transfer]⟩

/-- Deasserting LOAD and asserting it again delivers the shift register. -/
theorem observeAll_load_pair : r.observeAll d a [.pin .load !a, .pin .load a] =
    { r with out := r.sr, delivered := r.delivered ++ [r.sr], load := Level.ofBool a } := by
  cases a <;> rfl

/-- A frame is delivered, after the extra word (41_wire_transport R123). -/
theorem observeAll_frame (f : Word16) : ∃ c v, r.observeAll d a (frameEvents a f) =
    { sr := f, out := f, delivered := r.delivered ++ r.extra d a ++ [f], load := Level.ofBool a,
      clk := c, din := v } := by
  obtain ⟨w, hload⟩ := observe_load_assert d a r
  obtain ⟨c, v, hbits⟩ := observeAll_bits d a (r.observe d a (.pin .load a))
    ((List.range 16).map fun t => f.getLsbD (15 - t))
  rw [shiftIn_frame, List.flatMap_map] at hbits
  refine ⟨c, v, ?_⟩
  rw [frameEvents, observeAll_append, observeAll_append, observeAll_load_pair]
  have hpre : (r.observeAll d a [.pin .load a]).observeAll d a
      ((List.range 16).flatMap fun t => bitEvents (f.getLsbD (15 - t))) = _ := hbits
  rw [hpre, hload]

/-- Frames are delivered in order, after the extra word of the first. -/
theorem observeAll_frames (fs : List Word16) (f : Word16) :
    ∃ c v, r.observeAll d a ((fs ++ [f]).flatMap (frameEvents a)) =
      { sr := f, out := f, delivered := r.delivered ++ r.extra d a ++ (fs ++ [f]), load := Level.ofBool a,
        clk := c, din := v } := by
  induction fs generalizing r with
  | nil => simpa using observeAll_frame d a r f
  | cons g gs ih =>
    obtain ⟨c, v, hg⟩ := observeAll_frame d a r g
    obtain ⟨c', v', h⟩ := ih (r.observeAll d a (frameEvents a g))
    have hnone : (r.observeAll d a (frameEvents a g)).extra d a = [] := Receiver.extra_asserted d a _ (by rw [hg])
    refine ⟨c', v', ?_⟩
    rw [List.cons_append, List.flatMap_cons, observeAll_append, h, hnone, hg]
    simp

end

/-- Settles O31: the frames are delivered in order after the one word that a first LOAD may complete. -/
theorem receiverGetsEveryFrame : Obligations.ReceiverGetsEveryFrame := by
  intro d a r fs f
  obtain ⟨c, v, h⟩ := observeAll_frames d a r fs f
  rw [h]
  exact ⟨rfl, rfl, r.extra d a, r.extra_length d a, r.extra_asserted d a, rfl⟩

end Sys2Proof.Machine
end

section
/-! PROOFS. The stop command (O37), the sleep between cycles (O36) and the one way out of `IDLE` (O38). -/

namespace Sys2Proof.Machine

/-- Settles O37 by the command's equation. -/
theorem rlStopRaisesStop : Obligations.RlStopRaisesStop := by
  refine ⟨by decide, fun s hs => ?_⟩
  rw [exec_rlStop hs, State.finish_none, response_ok]
  rfl

theorem rlSleep_sleeps {s : State} (hs : s.stopReq = false) : rlSleep s = s := if_neg (by simp [hs])

theorem rlSleep_halts {s : State} (hs : s.stopReq = true) : rlSleep s = { s with rph := .rHalted } := if_pos hs

/-- Settles O36: the timer and the sequencer look at the stop request in opposite senses. -/
theorem sleepEndsByTimerOrStop : Obligations.SleepEndsByTimerOrStop := by
  refine fun s hr => ⟨fun hs => ⟨congrArg _ (timerWake_wakes hr hs), ?sleeps⟩,
    fun hs => ⟨congrArg _ (timerWake_ignored (.inr hs)), ?halts⟩⟩
  case sleeps => exact (rlStep_sleep hr).trans (congrArg _ (rlSleep_sleeps hs))
  case halts => exact (rlStep_sleep hr).trans (congrArg _ (rlSleep_halts hs))

section

variable {s t : State}

/-! ### Entering and leaving `IDLE` -/

/-- The ways a command leaves `IDLE`: a commit starts the sequencer, a stop, a close or a failed initialisation halts it
(42_refresh R148). -/
def LeavesIdle (i : Instr) (p : RlPhase) : Prop :=
  (i = .sbCommit ∧ p = .rBegin) ∨ ((i = .rlStop ∨ i = .wtClose ∨ i = .wtInit) ∧ p = .rHalted)

/-- The sequencer does not come from another phase to `IDLE`, and leaves it only in the ways `leaves` allows. -/
def State.IdleKept (leaves : RlPhase → Prop) (s t : State) : Prop :=
  (t.rph = .rIdle → s.rph = .rIdle) ∧ (s.rph = .rIdle → t.rph ≠ .rIdle → leaves t.rph)

theorem State.IdleKept.of_eq {leaves : RlPhase → Prop} (h : t.rph = s.rph) : s.IdleKept leaves t :=
  ⟨fun k => h.symm.trans k, fun k k' => absurd (h.trans k) k'⟩

theorem State.IdleKept.of_ne {leaves : RlPhase → Prop} (hs : s.rph ≠ .rIdle) (ht : t.rph ≠ .rIdle) :
    s.IdleKept leaves t :=
  ⟨fun k => absurd k ht, fun k => absurd k hs⟩

theorem State.IdleKept.mono {leaves leaves' : RlPhase → Prop} (h : s.IdleKept leaves t)
    (hl : ∀ p, leaves p → leaves' p) : s.IdleKept leaves' t :=
  h.imp_right fun k hs ht => hl _ (k hs ht)

/-- What halts an idle sequencer leaves any other where it was. -/
theorem State.IdleKept.of_haltIdle {leaves : RlPhase → Prop}
    (h : t.rph = if s.rph = .rIdle then .rHalted else s.rph) (hl : leaves .rHalted) : s.IdleKept leaves t := by
  by_cases hs : s.rph = .rIdle
  · rw [if_pos hs] at h
    exact ⟨fun _ => hs, fun _ _ => h ▸ hl⟩
  · rw [if_neg hs] at h
    exact .of_eq h

theorem ExecTo.idleKept {i : Instr} (h : ExecTo s i t) : s.IdleKept (LeavesIdle i) t := by
  cases h with
  | initFails => exact .of_haltIdle (by simp [State.abortInit]) (.inr ⟨.inr (.inr rfl), rfl⟩)
  | close => exact .of_haltIdle (by simp [State.closeSession]) (.inr ⟨.inr (.inl rfl), rfl⟩)
  | stop => exact .of_haltIdle (by simp [State.requestStop]) (.inr ⟨.inl rfl, rfl⟩)
  | commit =>
    by_cases hs : s.rph = .rIdle ∧ s.stopReq = false
    · exact ⟨fun _ => hs.1, fun _ _ => .inl ⟨rfl, by simp [State.lazyStart, hs]⟩⟩
    · exact .of_eq (by simp [State.lazyStart, hs])
  | closed | again => exact .of_eq (by simp [State.refuse])
  | _ => exact .of_eq (by simp)

theorem RlTo.idleKept (h : RlTo s t) : s.IdleKept (fun _ => False) t := by
  cases h with
  | stays | held | sleeps => exact .of_eq rfl
  | begins hr | ends hr | halts hr => exact .of_ne (by simp [hr]) (by simp [rlBegin, rlEnd])
  | offers hr _ g event =>
    refine .of_ne (by simp [hr]) ?_
    rcases rlOffer_cases (s.raiseOpt event) g with k | k | ⟨-, k⟩ <;> simp [k]
  | moves hr =>
    obtain ⟨n, p, hp, hnext⟩ := rlNext_eq s
    refine .of_ne (by simp [hr]) ?_
    rcases hp with rfl | rfl <;> simp [hnext]

/-- The wire engine moves the sequencer only out of `WAIT` (42_refresh R133). -/
theorem WtTo.idleKept (h : WtTo s t) (hi : s.Inv) : s.IdleKept (fun _ => False) t := by
  cases h with
  | stays | frame | reads => exact .of_eq rfl
  | writes => exact .of_eq (by simp [dirWrite])
  | ready => exact .of_eq (by simp [dirWrite, initDone])
  | completes hf =>
    cases ho : s.fown with
    | host => exact .of_eq (by rw [completeFrame_host (by simpa using ho)]; simp)
    | rl =>
      have hw : s.rph = .rWait := hi.waits_iff.mpr ⟨by simp [hf], ho⟩
      exact .of_ne (by simp [hw]) (by rw [completeFrame_rl (by simpa using ho)]; simp)

/-- The host's move at the head of its list runs the command `i`, presented by itself or as the commit of a compile. -/
def State.Runs (s : State) (i : Instr) : Prop :=
  ∃ moves, (∃ r, s.hostq = .present r :: moves ∧ decodeRequest r = .ok i) ∨
    (∃ c, s.hostq = .compile c :: moves ∧ i = .sbCommit)

/-- A compile leaves `IDLE` by its commit only: its other commands are appends and marks. -/
theorem CompileTo.idleKept {c : Compile} (h : CompileTo s c t) : s.IdleKept (LeavesIdle .sbCommit) t := by
  cases h with
  | reports => exact .of_eq rfl
  | issues _ u hu =>
    refine hu.idleKept.mono fun p hp => ?_
    rcases c.command_cases s.cfg.toParams s.shadow.length.toNat with ⟨-, -, ⟨g, hc⟩ | ⟨m, hc⟩⟩ | ⟨-, hc⟩
    · simp [LeavesIdle, hc] at hp
    · simp [LeavesIdle, hc] at hp
    · rwa [hc] at hp

theorem HostTo.idleKept (h : HostTo s t) : s.IdleKept (fun p => ∃ i, s.Runs i ∧ LeavesIdle i p) t := by
  cases h with
  | stays | reports | decides => exact .of_eq rfl
  | rejects => exact .of_eq (by simp [State.refuse])
  | runs _ r ms hq i hi _ ht => exact ht.idleKept.mono fun p hp => ⟨i, ⟨ms, .inl ⟨r, hq, hi⟩⟩, hp⟩
  | compiles _ c ms hq _ ht => exact ht.idleKept.mono fun p hp => ⟨.sbCommit, ⟨ms, .inr ⟨c, hq, rfl⟩⟩, hp⟩

theorem takeTurn_idleKept {turn : Turn} (h : takeTurn turn s = .next t) (hi : s.Inv) :
    s.IdleKept (fun p => turn = .host ∧ ∃ i, s.Runs i ∧ LeavesIdle i p) t := by
  cases turn with
  | host => exact (hostTurn_next h).idleKept.mono fun p hp => ⟨rfl, hp⟩
  | rl => exact (rlStep_next h).idleKept.mono fun p => False.elim
  | wt => cases h; exact ((wtStep_to s).idleKept hi).mono fun p => False.elim
  | wake =>
    cases h
    rcases timerWake_cases s with k | ⟨hr, k⟩ <;> rw [k]
    · exact .of_eq rfl
    · exact .of_ne (by simp [hr]) (by simp)
  | gpio off w => cases h; exact .of_eq (by simp)

end

/-- Settles O38, agent by agent: no agent but the host leaves `IDLE`. -/
theorem idleIsLeftOnce : Obligations.IdleIsLeftOnce := by
  intro s t hi h
  rw [step_eq] at h
  obtain ⟨henters, hleaves⟩ := takeTurn_idleKept h hi.afterTurn
  refine ⟨fun ht => by simpa using henters ht, fun hs ht => ?_⟩
  obtain ⟨hturn, i, ⟨moves, hq⟩, hp⟩ := hleaves (by simpa using hs) ht
  rw [State.afterTurn_hostq] at hq
  exact ⟨moves, i, hturn, hq, hp⟩

end Sys2Proof.Machine
end

section
/-! PROOFS. A refresh cycle (O33, O34, O35): the offer of a position's frame, a position, the eight of them. -/

namespace Sys2Proof.Machine

/-! ### The offer -/

/-- What the read of `ISSUE` gives, and the event it raises (40_scrollbuffer R85). -/
theorem Bank.readAt_eq {b : Bank} (hl : b.length.toNat ≤ Config.capacity) (i : Byte) :
    ∃ event, b.readAt i = some (if i.toNat < b.length.toNat then b.data.read i.toNat else 0x00#8, event) ∧
      event.toList = if 0 < b.length.toNat ∧ b.length.toNat ≤ i.toNat then [.boundsViolation i] else [] := by
  by_cases hin : i.toNat < b.length.toNat
  · rw [if_pos hin, if_neg (by omega)]
    exact ⟨_, Bank.readAt_inside hin hl, rfl⟩
  · rw [if_neg hin]
    by_cases h0 : 0 < b.length.toNat
    · rw [if_pos ⟨h0, by omega⟩]
      exact ⟨_, Bank.readAt_beyond h0 (by omega), rfl⟩
    · rw [if_neg (by omega)]
      exact ⟨_, Bank.readAt_empty (b.length_eq_zero_iff.mpr (by omega)) i, rfl⟩

theorem State.raiseOpt_eq (s : State) (e : Option Diag) : s.raiseOpt e = { s with diag := s.diag ++ e.toList } := by
  cases e with
  | none => simp [State.raiseOpt]
  | some e => rfl

theorem State.afterXfail_raiseOpt (s : State) (e : Option Diag) :
    (s.raiseOpt e).afterXfail = { s.afterXfail with diag := s.diag ++ e.toList } := by
  rw [State.raiseOpt_eq]
  unfold State.afterXfail
  cases s.xfailIn <;> rfl

/-- Settles O33: the read of the glyph, then the three ways of an offered frame. -/
theorem issueWaitsThenOffersFrame : Obligations.IssueWaitsThenOffersFrame := by
  intro s hr
  refine ⟨fun hf => (rlStep_issue hr).trans (rlIssue_held hf), fun hf hl g f events hg hframe hevents => ?_⟩
  obtain ⟨event, hread, hevent⟩ := Bank.readAt_eq hl s.idx
  have hturn := (rlStep_issue hr).trans (rlIssue_reads hf hread)
  rw [← digitRegister_eq] at hframe
  rw [← hg] at hturn
  rw [hevents, ← hevent, hframe]
  refine ⟨fun hw => hturn.trans (congrArg _ ?notReady), fun hw hx => hturn.trans (congrArg _ ?fails),
    fun hw hx => hturn.trans (congrArg _ ?starts)⟩
  case notReady =>
    rw [rlOffer_notReady (by simpa using hw), State.raiseOpt_eq]
    rfl
  case fails =>
    rw [rlOffer_fails (by simpa using hw) (by rwa [State.raiseOpt_nextXfail]), State.afterXfail_raiseOpt,
      State.raiseOpt_cfg, State.raiseOpt_pos]
    rfl
  case starts =>
    rw [rlOffer_starts (by simpa using hw) (by rwa [State.raiseOpt_nextXfail]), State.afterXfail_raiseOpt,
      State.raiseOpt_cfg, State.raiseOpt_pos]
    rfl

/-! ### The window -/

section

variable {b : Bank} {i : Byte} {k : Nat}

/-- A read pointer `k` positions into a cycle points at an active slot, or is the cursor of an empty bank. -/
theorem pointerAfter_points (hb : b.Good) (hi : i.toNat = pointerAfter b b.cursor k) : b.Points i := by
  obtain ⟨-, -, -, hz, -⟩ := hb
  unfold pointerAfter at hi
  split_ifs at hi with h0
  · exact ⟨fun hpos => absurd h0 hpos.ne', fun _ => (BitVec.eq_of_toNat_eq hi).trans (hz h0)⟩
  · exact ⟨fun hpos => hi ▸ Nat.mod_lt _ hpos, fun h => absurd h h0⟩

/-- The glyph read there is the window's, silently (42_refresh R144, R145). -/
theorem readAt_window (hb : b.Good) (hi : i.toNat = pointerAfter b b.cursor k) :
    b.readAt i = some (windowGlyph b k, none) := by
  have hpoints := pointerAfter_points hb hi
  unfold pointerAfter at hi
  unfold windowGlyph
  split_ifs at hi ⊢ with h0
  · exact Bank.readAt_empty (b.length_eq_zero_iff.mpr h0) i
  · rw [Bank.readAt_inside (hpoints.1 (Nat.pos_of_ne_zero h0)) hb.length_le, hi]

/-- The pointer moves on one position. -/
theorem advance_pointerAfter (hb : b.Good) (hi : i.toNat = pointerAfter b b.cursor k) :
    (b.advance i).1.toNat = pointerAfter b b.cursor (k + 1) := by
  have hpoints := pointerAfter_points hb hi
  unfold pointerAfter at hi ⊢
  split_ifs at hi ⊢ with h0
  · rw [Bank.advance_empty (b.length_eq_zero_iff.mpr h0)]
    exact hi
  · rw [(Bank.advance_inside (hpoints.1 (Nat.pos_of_ne_zero h0))).1, hi, Nat.mod_add_mod, Nat.add_assoc]

theorem cursor_pointerAfter (hb : b.Good) : b.cursor.toNat = pointerAfter b b.cursor 0 := by
  obtain ⟨-, -, hc, -, -⟩ := hb
  unfold pointerAfter
  split_ifs with h0
  · rfl
  · exact (Nat.mod_eq_of_lt (hc (Nat.pos_of_ne_zero h0))).symm

end

/-! ### The frames sent and dropped -/

section

variable (f : Byte × Byte) (fs : List (Byte × Byte)) (ds : List Bool)

@[simp] theorem keptFrames_nil : keptFrames [] ds = [] := rfl
@[simp] theorem droppedEvents_nil : droppedEvents [] ds = [] := rfl
@[simp] theorem keptFrames_cons (d : Bool) :
    keptFrames (f :: fs) (d :: ds) = (if d then [] else [f]) ++ keptFrames fs ds := by cases d <;> rfl
@[simp] theorem droppedEvents_cons (d : Bool) :
    droppedEvents (f :: fs) (d :: ds) =
      (if d then [.transportFailure (f.1 ++ f.2)] else []) ++ droppedEvents fs ds := by cases d <;> rfl

end

section

variable {s t u : State}

/-- `t` is reached from `s` by a stretch of a cycle that sends the frames `fs` but those marked in `ds`, which it drops;
that leaves the banks, the session and what the host sees as they were (42_refresh R144, R147). -/
structure State.Shows (s : State) (fs : List (Byte × Byte)) (ds : List Bool) (t : State) : Prop where
  frames : t.frames = s.frames ++ keptFrames fs ds
  diag : t.diag = s.diag ++ droppedEvents fs ds
  trace : t.trace = s.trace ++ (keptFrames fs ds).flatMap fun f => frameEvents s.cfg.loadAssertLevel (f.1 ++ f.2)
  lines : keptFrames fs ds = [] → t.lines = s.lines
  cfg : t.cfg = s.cfg
  banks : s.SameBanks t
  responses : t.responses = s.responses
  sess : t.sess = s.sess
  wst : t.wst = s.wst
  stopReq : t.stopReq = s.stopReq
  fph : t.fph = .fIdle

theorem State.Shows.nil (h : s.fph = .fIdle) (ds : List Bool) : s.Shows [] ds s := by
  constructor <;> simp [State.SameBanks, h]

/-- The stretches before and after a frame. -/
theorem State.Shows.cons {f : Byte × Byte} {d : Bool} {fs : List (Byte × Byte)} {ds : List Bool}
    (h : s.Shows [f] [d] u) (k : u.Shows fs ds t) : s.Shows (f :: fs) (d :: ds) t where
  frames := by simp [k.frames, h.frames]
  diag := by simp [k.diag, h.diag]
  trace := by simp [k.trace, h.trace, h.cfg]
  lines := by
    intro hnone
    rw [keptFrames_cons, List.append_eq_nil_iff] at hnone
    exact (k.lines hnone.2).trans (h.lines (by simp [hnone.1]))
  cfg := k.cfg.trans h.cfg
  banks := by
    obtain ⟨ha, h0, h1⟩ := h.banks
    obtain ⟨ka, k0, k1⟩ := k.banks
    exact ⟨ka.trans ha, k0.trans h0, k1.trans h1⟩
  responses := k.responses.trans h.responses
  sess := k.sess.trans h.sess
  wst := k.wst.trans h.wst
  stopReq := k.stopReq.trans h.stopReq
  fph := k.fph

/-- The environment drops the frames marked in `ds` of those offered next, and `rest` is drawn after them: by its draws
where the transport is ready, all of them where it is not (41_wire_transport R107, 60_exceptions R179). -/
def State.Drops (s : State) (ds rest : List Bool) : Prop :=
  (s.wst = .ready ∧ s.xfailIn = ds ++ rest) ∨ (s.wst ≠ .ready ∧ (∀ d ∈ ds, d = true) ∧ s.xfailIn = rest)

theorem State.nextXfail_cons {d : Bool} {ds : List Bool} (h : s.xfailIn = d :: ds) : s.nextXfail = d := by
  unfold State.nextXfail
  rw [h]

/-- The sequencer is at position `k`: its pointer at the window's glyph `k`, its position register at `k`. -/
def State.AtPosition (s : State) (k : Nat) : Prop :=
  s.idx.toNat = pointerAfter s.active s.active.cursor k ∧ s.pos.toNat = k

/-- The frame of a position (42_refresh R144). -/
def positionFrame (p : Params) (b : Bank) (k : Nat) : Byte × Byte := (positionReg p k, windowGlyph b k)

theorem windowFrames_eq (p : Params) (b : Bank) :
    windowFrames p b = (List.range' 0 (7 + 1)).map (positionFrame p b) := rfl

/-! ### A position -/

/-- At its position the sequencer's turn in `ISSUE` offers the window's frame. -/
theorem rlStep_offers {k : Nat} (hr : s.rph = .rIssue) (hf : s.fph = .fIdle) (hb : s.active.Good)
    (hk : s.AtPosition k) : takeTurn .rl s = .next (rlOffer s (windowGlyph s.active k)) := by
  obtain ⟨hidx, -⟩ := hk
  exact (rlStep_issue hr).trans (rlIssue_reads hf (readAt_window hb hidx))

theorem frameWord_positionFrame {k : Nat} (hk : s.AtPosition k) :
    frameWord (digitRegister s.cfg.toParams s.pos) (windowGlyph s.active k) =
      (positionFrame s.cfg.toParams s.active k).1 ++ (positionFrame s.cfg.toParams s.active k).2 := by
  obtain ⟨-, hpos⟩ := hk
  rw [digitRegister_eq, hpos]
  rfl

/-- A frame of the sequencer's that is started runs to its end and wakes the sequencer (41_wire_transport R108). -/
theorem runTurns_sent (f : Byte × Byte) : ∃ t,
    runTurns (List.replicate 83 .wt) { s.afterXfail with
      sh := f.1 ++ f.2, fown := .rl, bitn := 15, fph := .fLoadA, rph := .rWait } = .next t ∧
    s.Shows [f] [false] t ∧ t.rph = .rNext ∧ t.idx = s.idx ∧ t.pos = s.pos ∧ t.xfailIn = s.xfailIn.tail := by
  obtain ⟨t, hrun, htrace, hframes, hfph, -, -, -, howner, -, -, hrest⟩ := frameRunsToCompletion { s.afterXfail with
    sh := f.1 ++ f.2, fown := .rl, bitn := 15, fph := .fLoadA, rph := .rWait } rfl rfl
  obtain ⟨hresponses, hrph⟩ := howner rfl
  refine ⟨t, hrun, ?_, hrph, by rw [hrest]; simp, by rw [hrest]; simp, by rw [hrest]; simp⟩
  constructor
  case frames => simp [hframes, high_append, low_append]
  case trace => simp [htrace]
  case lines => simp
  case responses => simp [hresponses]
  case fph => exact hfph
  all_goals (rw [hrest]; simp [State.SameBanks])

/-- The offer of a frame, and the wire steps of it if it is sent. -/
theorem runTurns_offer {k : Nat} {d : Bool} {ds rest : List Bool} (hr : s.rph = .rIssue) (hf : s.fph = .fIdle)
    (hb : s.active.Good) (hk : s.AtPosition k) (hd : s.Drops (d :: ds) rest) :
    ∃ t, runTurns (.rl :: if d then [] else List.replicate 83 .wt) s = .next t ∧
      s.Shows [positionFrame s.cfg.toParams s.active k] [d] t ∧ t.rph = .rNext ∧ t.idx = s.idx ∧ t.pos = s.pos ∧
      t.Drops ds rest := by
  rw [runTurns_cons (rlStep_offers hr hf hb hk)]
  have hframe := frameWord_positionFrame hk
  rcases hd with ⟨hw, hx⟩ | ⟨hw, hall, hx⟩
  case inr =>
    obtain rfl : d = true := hall d (by simp)
    rw [rlOffer_notReady hw, hframe]
    refine ⟨_, runTurns_nil _, ?_, rfl, rfl, rfl, .inr ⟨hw, fun e he => hall e (by simp [he]), hx⟩⟩
    constructor <;> simp [State.SameBanks, hf]
  case inl =>
    have hnext := State.nextXfail_cons hx
    cases d with
    | true =>
      rw [rlOffer_fails hw hnext, hframe]
      refine ⟨_, runTurns_nil _, ?_, rfl, by simp, by simp, .inl ⟨by simpa using hw, by simp [hx]⟩⟩
      constructor <;> simp [State.SameBanks, hf]
    | false =>
      rw [rlOffer_starts hw hnext, hframe]
      obtain ⟨t, hrun, ht, hrph, hidx, hpos, hxt⟩ :=
        runTurns_sent (s := s) (positionFrame s.cfg.toParams s.active k)
      exact ⟨t, hrun, ht, hrph, hidx, hpos, .inl ⟨ht.wst.trans hw, by simp [hxt, hx]⟩⟩

/-- The end of a position: the pointer moves on silently, to the next position or to the end of the cycle
(42_refresh R134). -/
theorem rlNext_at {k : Nat} (hb : s.active.Good) (hk : s.AtPosition k) (h7 : k ≤ 7) :
    ∃ i n, rlNext s = { s with idx := i, pos := n, rph := if k = 7 then .rEnd else .rIssue } ∧
      i.toNat = pointerAfter s.active s.active.cursor (k + 1) ∧ n.toNat = min (k + 1) 7 := by
  obtain ⟨hidx, hpos⟩ := hk
  have hsilent := (pointerAfter_points hb hidx).advance_silent
  refine ⟨(s.active.advance s.idx).1, if k = 7 then s.pos else s.pos + 1, ?_, advance_pointerAfter hb hidx, ?_⟩
  · unfold rlNext
    by_cases h : k = 7
    · have hlast : s.pos = 7 := by bv_omega
      simp [h, hlast, hsilent, State.raiseOpt]
    · have hlast : ¬ s.pos = 7#3 := by bv_omega
      simp [h, hlast, hsilent, State.raiseOpt]
  · split_ifs <;> bv_omega

/-- The sequencer's own registers are not among what a stretch of a cycle shows. -/
theorem State.Shows.setPosition {fs : List (Byte × Byte)} {ds : List Bool} (h : s.Shows fs ds t) (i : Byte)
    (n : BitVec 3) (p : RlPhase) : s.Shows fs ds { t with idx := i, pos := n, rph := p } := { h with }

theorem positionTurns_eq (d : Bool) :
    positionTurns d = (.rl :: if d then [] else List.replicate 83 .wt) ++ [.rl] := by cases d <;> rfl

/-- A position from `ISSUE` to `ISSUE` or `END`. -/
theorem runTurns_position {k : Nat} {d : Bool} {ds rest : List Bool} (hr : s.rph = .rIssue) (hf : s.fph = .fIdle)
    (hb : s.active.Good) (hk : s.AtPosition k) (h7 : k ≤ 7) (hd : s.Drops (d :: ds) rest) :
    ∃ t, runTurns (positionTurns d) s = .next t ∧ s.Shows [positionFrame s.cfg.toParams s.active k] [d] t ∧
      t.rph = (if k = 7 then .rEnd else .rIssue) ∧ t.idx.toNat = pointerAfter s.active s.active.cursor (k + 1) ∧
      t.pos.toNat = min (k + 1) 7 ∧ t.Drops ds rest := by
  obtain ⟨u, hrun, hu, hur, hidx, hpos, hdrops⟩ := runTurns_offer hr hf hb hk hd
  have hactive := hu.banks.active
  have hku : u.AtPosition k := by rwa [State.AtPosition, hidx, hpos, hactive]
  obtain ⟨i, n, hnext, hi, hn⟩ := rlNext_at (hactive ▸ hb) hku h7
  rw [positionTurns_eq, runTurns_append hrun, runTurns_cons (t := .rl) (rlStep_next_eq hur), hnext]
  exact ⟨_, runTurns_nil _, hu.setPosition i n _, rfl, hactive ▸ hi, hn, hdrops⟩

/-- The positions from the `k`th to the last one, in a good bank. -/
theorem runTurns_positions {k : Nat} {d : Bool} {ds rest : List Bool} (hr : s.rph = .rIssue) (hf : s.fph = .fIdle)
    (hb : s.active.Good) (hk : s.AtPosition k) (h7 : k + ds.length = 7) (hd : s.Drops (d :: ds) rest) :
    ∃ t, runTurns ((d :: ds).flatMap positionTurns) s = .next t ∧
      s.Shows ((List.range' k (ds.length + 1)).map (positionFrame s.cfg.toParams s.active)) (d :: ds) t ∧
      t.rph = .rEnd ∧ t.idx.toNat = pointerAfter s.active s.active.cursor 8 ∧ t.pos = 7 ∧ t.Drops [] rest := by
  induction ds generalizing s k d with
  | nil =>
    obtain rfl : k = 7 := h7
    obtain ⟨u, hrun, hu, hur, hidx, hpos, hdrops⟩ := runTurns_position hr hf hb hk le_rfl hd
    exact ⟨u, by simpa using hrun, hu, hur, hidx, by bv_omega, hdrops⟩
  | cons e es ih =>
    rw [List.length_cons] at h7
    obtain ⟨u, hrun, hu, hur, hidx, hpos, hdrops⟩ := runTurns_position hr hf hb hk (by omega) hd
    have hactive := hu.banks.active
    have hku : u.AtPosition (k + 1) := ⟨by rw [hidx, hactive], by omega⟩
    obtain ⟨t, hrunt, ht, htr, htidx, htpos, htdrops⟩ :=
      ih (by rw [hur, if_neg (by omega)]) hu.fph (hactive ▸ hb) hku (by omega) hdrops
    rw [hu.cfg, hactive] at ht
    rw [List.flatMap_cons, runTurns_append hrun]
    exact ⟨t, hrunt, hu.cons ht, htr, hactive ▸ htidx, htpos, htdrops⟩

/-! ### The cycle -/

theorem State.Drops.nil {rest : List Bool} (h : s.Drops [] rest) : s.xfailIn = rest := by
  rcases h with ⟨-, h⟩ | ⟨-, -, h⟩ <;> exact h

theorem rlEnd_cursor (s : State) : (rlEnd s).active.cursor = (s.active.advance s.active.cursor).1 := by
  have h : (s.setActive { s.active with cursor := (s.active.advance s.active.cursor).1 }).SameBanks (rlEnd s) := by
    simp [State.SameBanks, rlEnd]
  rw [h.active, State.setActive_active]

/-- A cycle from `BEGIN` up to its `END` (42_refresh R130). -/
theorem runTurns_cycle {ds rest : List Bool} (hr : s.rph = .rBegin) (hf : s.fph = .fIdle) (hb : s.active.Good)
    (h8 : ds.length = 8) (hd : s.Drops ds rest) :
    ∃ u, runTurns (cycleTurns ds) s = .next (rlEnd u) ∧ s.Shows (windowFrames s.cfg.toParams s.active) ds u ∧
      u.idx.toNat = pointerAfter s.active s.active.cursor 8 ∧ u.pos = 7 ∧ u.Drops [] rest := by
  obtain ⟨d, es, rfl⟩ := List.exists_cons_of_length_eq_add_one h8
  have h7 : es.length = 7 := by simpa using h8
  obtain ⟨u, hrun, hu, hur, hidx, hpos, hdrops⟩ := runTurns_positions (s := rlBegin s) (k := 0) rfl hf hb
    ⟨cursor_pointerAfter hb, rfl⟩ (by omega) hd
  rw [h7, ← windowFrames_eq] at hu
  refine ⟨u, ?_, { hu with }, hidx, hpos, hdrops⟩
  rw [cycleTurns, List.cons_append, runTurns_cons (t := .rl) (rlStep_begin hr), runTurns_append hrun,
    runTurns_cons (t := .rl) (rlStep_end hur), runTurns_nil]

theorem rlEnd_cursor_pointerAfter (hb : s.active.Good) :
    (rlEnd s).active.cursor.toNat = pointerAfter s.active s.active.cursor 1 := by
  rw [rlEnd_cursor, advance_pointerAfter hb (cursor_pointerAfter hb)]

end

/-- Settles O34: the positions one by one, then the cursor. -/
theorem cycleShowsCircularWindow : Obligations.CycleShowsCircularWindow := by
  intro s dropped rest hr hf hw hb h8 hx
  obtain ⟨u, hrun, hu, hidx, hpos, hdrops⟩ := runTurns_cycle hr hf hb h8 (.inl ⟨hw, hx⟩)
  have hactive := hu.banks.active
  have hbu : u.active.Good := hactive ▸ hb
  obtain ⟨hact, hshadow, hdata, hlength⟩ := rlEnd_sameButCursor u
  refine ⟨rlEnd u, hrun, ?frames, ?diag, ?trace, ?cursor, ?idx, ?pos, rfl, ?fph, hact.trans hu.banks.act,
    hshadow.trans hu.banks.shadow, by rw [hdata, hactive], by rw [hlength, hactive], ?responses, ?xfailIn, ?sess, ?wst,
    ?stopReq⟩
  case diag => rw [rlEnd_diag hbu.points_cursor, hu.diag]
  case cursor => rw [rlEnd_cursor_pointerAfter hbu, hactive]
  case frames => simp [rlEnd, hu.frames]
  case trace => simp [rlEnd, hu.trace]
  case idx => simp [rlEnd, hidx]
  case pos => simp [rlEnd, hpos]
  case fph => simp [rlEnd, hu.fph]
  case responses => simp [rlEnd, hu.responses]
  case xfailIn => simp [rlEnd, hdrops.nil]
  case sess => simp [rlEnd, hu.sess]
  case wst => simp [rlEnd, hu.wst]
  case stopReq => simp [rlEnd, hu.stopReq]

theorem keptFrames_all_dropped (fs : List (Byte × Byte)) : keptFrames fs (List.replicate fs.length true) = [] := by
  induction fs with
  | nil => rfl
  | cons f fs ih => simpa [List.replicate_succ] using ih

theorem droppedEvents_all_dropped (fs : List (Byte × Byte)) :
    droppedEvents fs (List.replicate fs.length true) = fs.map fun f => .transportFailure (f.1 ++ f.2) := by
  induction fs with
  | nil => rfl
  | cons f fs ih => simp [List.replicate_succ, ih]

/-- Settles O35: the cycle that drops all eight frames. -/
theorem cycleWithoutTransport : Obligations.CycleWithoutTransport := by
  intro s hr hf hw hb
  have h8 : 8 = (windowFrames s.cfg.toParams s.active).length := by simp [windowFrames]
  obtain ⟨u, hrun, hu, -⟩ := runTurns_cycle (ds := List.replicate 8 true) hr hf hb rfl
    (.inr ⟨hw, fun d hd => List.eq_of_mem_replicate hd, rfl⟩)
  rw [h8] at hu
  have hnone := keptFrames_all_dropped (windowFrames s.cfg.toParams s.active)
  have hactive := hu.banks.active
  have hbu : u.active.Good := hactive ▸ hb
  refine ⟨rlEnd u, hrun, ?diag, ?frames, ?trace, ?lines, rfl, ?cursor⟩
  case diag => rw [rlEnd_diag hbu.points_cursor, hu.diag, droppedEvents_all_dropped]
  case frames => simp [rlEnd, hu.frames, hnone]
  case trace => simp [rlEnd, hu.trace, hnone]
  case lines => simp [rlEnd, hu.lines hnone]
  case cursor => rw [rlEnd_cursor_pointerAfter hbu, hactive]

end Sys2Proof.Machine
end

section
/-! PROOFS. A stop is reached within a bound (O39): a count of the rounds left, which every round of a sequencer's and a
wire engine's turn brings down. -/

namespace Sys2Proof.Machine

/-! ### The rounds left -/

/-- The wire steps left of a frame, its bit register at `n` (41_wire_transport R105). -/
def FramePhase.stepsLeft (n : Nat) : FramePhase → Nat
  | .fIdle => 0
  | .fLoadA => 5 * n + 8
  | .fClkLo => 5 * n + 7
  | .fDin => 5 * n + 6
  | .fDly1 => 5 * n + 5
  | .fClkHi => 5 * n + 4
  | .fDly2 => 5 * n + 3
  | .fLoadD => 2
  | .fLoadR => 1

/-- The rounds a sequencer at position `pos` is away from `HALTED` once a stop is requested, the frame in flight left
out: 85 for each position still to come, of which 84 lie before `NEXT` (42_refresh R141, R143). -/
def RlPhase.roundsLeft (pos : Nat) : RlPhase → Nat
  | .rIdle => 0
  | .rBegin => 683
  | .rIssue => 85 * (7 - pos) + 87
  | .rWait => 85 * (7 - pos) + 3
  | .rNext => 85 * (7 - pos) + 3
  | .rEnd => 2
  | .rSleep => 1
  | .rHalted => 0

/-- The rounds left before the sequencer is halted and the transport idle. -/
def State.roundsLeft (s : State) : Nat := s.rph.roundsLeft s.pos.toNat + s.fph.stepsLeft s.bitn.toNat

theorem FramePhase.stepsLeft_le (f : FramePhase) (n : BitVec 4) : f.stepsLeft n.toNat ≤ 83 := by
  cases f <;> simp only [FramePhase.stepsLeft] <;> omega

theorem FramePhase.stepsLeft_eq_zero {f : FramePhase} {n : Nat} (h : f.stepsLeft n = 0) : f = .fIdle := by
  cases f <;> simp [FramePhase.stepsLeft] at h ⊢

theorem RlPhase.roundsLeft_le (p : RlPhase) (pos : Nat) : p.roundsLeft pos ≤ 683 := by
  cases p <;> simp only [RlPhase.roundsLeft] <;> omega

theorem RlPhase.roundsLeft_eq_zero {p : RlPhase} {pos : Nat} (h : p.roundsLeft pos = 0) :
    p = .rIdle ∨ p = .rHalted := by
  cases p <;> simp [RlPhase.roundsLeft] at h ⊢

theorem State.roundsLeft_le (s : State) : s.roundsLeft ≤ 766 :=
  Nat.add_le_add (s.rph.roundsLeft_le _) (s.fph.stepsLeft_le _)

section

variable {s t : State}

/-! ### A machine that is stopping -/

/-- The invariant, with a stop requested and no initialisation running. -/
structure State.Stopping (s : State) : Prop where
  inv : s.Inv
  iph : s.iph = .none0
  stop : s.stopReq = true

theorem State.Inv.not_idle (h : s.Inv) (hs : s.stopReq = true) : s.rph ≠ .rIdle := by
  obtain ⟨-, -, -, -, ⟨-, hidle, -⟩, -⟩ := h
  intro hr
  rw [hidle hr] at hs
  cases hs

theorem RlTo.iph (h : RlTo s t) : t.iph = s.iph := by
  cases h with
  | stays | begins | held | sleeps | halts => rfl
  | offers => simp
  | moves =>
    obtain ⟨n, p, -, hnext⟩ := rlNext_eq s
    simp [hnext]
  | ends => simp [rlEnd]

@[simp] theorem State.completeFrame_iph (s : State) : s.completeFrame.iph = s.iph := by
  rw [State.completeFrame_eq]

theorem WtTo.iph_none (h : WtTo s t) (hi : s.iph = .none0) : t.iph = .none0 := by
  cases h with
  | stays | frame => exact hi
  | completes => simpa using hi
  | reads _ k | writes _ k => exact absurd hi k
  | ready _ k => rw [hi] at k; cases k

theorem State.Stopping.rl (h : s.Stopping) (ht : takeTurn .rl s = .next t) : t.Stopping where
  inv := takeTurn_inv ht h.inv
  iph := (rlStep_next ht).iph.trans h.iph
  stop := by
    obtain ⟨hstop, -⟩ := takeTurn_grows ht
    exact hstop h.stop

theorem State.Stopping.wt (h : s.Stopping) : (wtStep s).Stopping where
  inv := (wtStep_to s).inv h.inv
  iph := (wtStep_to s).iph_none h.iph
  stop := by simpa using h.stop

/-- No round is left exactly when the machine has stopped. -/
theorem State.Stopping.stopped (h : s.Stopping) (h0 : s.roundsLeft = 0) : s.rph = .rHalted ∧ s.fph = .fIdle := by
  obtain ⟨hr, hf⟩ := Nat.add_eq_zero_iff.mp h0
  exact ⟨(RlPhase.roundsLeft_eq_zero hr).resolve_left (h.inv.not_idle h.stop), FramePhase.stepsLeft_eq_zero hf⟩

/-! ### The sequencer's turn -/

theorem rlStep_answers (h : s.Inv) : ∃ t, rlStep s = .next t := by
  cases hr : s.rph with
  | rIdle => exact ⟨_, rlStep_idle hr⟩
  | rBegin => exact ⟨_, rlStep_begin hr⟩
  | rIssue =>
    rw [rlStep_issue hr]
    by_cases hf : s.fph = .fIdle
    · obtain ⟨⟨g, event⟩, hread⟩ := Bank.readAt_some h.active_good.length_le s.idx
      exact ⟨_, rlIssue_reads hf hread⟩
    · exact ⟨_, rlIssue_held hf⟩
  | rWait => exact ⟨_, rlStep_wait hr⟩
  | rNext => exact ⟨_, rlStep_next_eq hr⟩
  | rEnd => exact ⟨_, rlStep_end hr⟩
  | rSleep => exact ⟨_, rlStep_sleep hr⟩
  | rHalted => exact ⟨_, rlStep_halted hr⟩

theorem rlOffer_roundsLeft (hr : s.rph = .rIssue) (hf : s.fph = .fIdle) (g : Byte) :
    (rlOffer s g).roundsLeft < s.roundsLeft := by
  rcases rlOffer_cases s g with h | h | ⟨-, h⟩ <;> rw [h] <;>
    simp [State.roundsLeft, RlPhase.roundsLeft, FramePhase.stepsLeft, hr, hf]

theorem rlNext_roundsLeft (hr : s.rph = .rNext) : (rlNext s).roundsLeft < s.roundsLeft := by
  unfold rlNext
  split_ifs with h7
  · simp [State.roundsLeft, RlPhase.roundsLeft, hr]
  · have hpos : (s.pos + 1).toNat = s.pos.toNat + 1 := by bv_omega
    have hle : s.pos.toNat < 7 := by bv_omega
    simp only [State.roundsLeft, RlPhase.roundsLeft, hr, hpos, State.raiseOpt_fph, State.raiseOpt_bitn]
    omega

/-- The sequencer's turn brings the end nearer, or changes nothing, with a frame in flight or no round left. -/
theorem RlTo.roundsLeft (h : RlTo s t) (hs : s.Stopping) :
    t.roundsLeft < s.roundsLeft ∨ t = s ∧ (s.fph ≠ .fIdle ∨ s.roundsLeft = 0) := by
  cases h with
  | begins hr => exact .inl (by simp [State.roundsLeft, RlPhase.roundsLeft, rlBegin, hr])
  | offers hr hf g event =>
    have h := rlOffer_roundsLeft (s := s.raiseOpt event) (by simpa using hr) (by simpa using hf) g
    exact .inl (by simpa [State.roundsLeft] using h)
  | moves hr => exact .inl (rlNext_roundsLeft hr)
  | ends hr => exact .inl (by simp [State.roundsLeft, RlPhase.roundsLeft, rlEnd, hr])
  | halts hr => exact .inl (by simp [State.roundsLeft, RlPhase.roundsLeft, hr])
  | held _ hf => exact .inr ⟨rfl, .inl hf⟩
  | sleeps _ hstop => rw [hs.stop] at hstop; cases hstop
  | stays hr =>
    refine .inr ⟨rfl, ?_⟩
    rcases hr with hr | hr | hr
    · exact absurd hr (hs.inv.not_idle hs.stop)
    · exact .inl (hs.inv.waits_iff.mp hr).left
    · by_cases hf : s.fph = .fIdle
      · exact .inr (by simp [State.roundsLeft, RlPhase.roundsLeft, FramePhase.stepsLeft, hr, hf])
      · exact .inl hf

/-! ### The wire engine's turn -/

/-- The end of a frame wakes the sequencer if it waits (42_refresh R133). -/
theorem completeFrame_roundsLeft (h : s.Inv) (hf : s.fph = .fLoadR) : s.completeFrame.roundsLeft < s.roundsLeft := by
  cases ho : s.fown with
  | host => simp [completeFrame_host ho, State.roundsLeft, FramePhase.stepsLeft, hf]
  | rl =>
    have hw : s.rph = .rWait := h.waits_iff.mpr ⟨by simp [hf], ho⟩
    simp [completeFrame_rl ho, State.roundsLeft, RlPhase.roundsLeft, FramePhase.stepsLeft, hf, hw]

theorem wtStep_roundsLeft (h : s.Inv) (hf : s.fph ≠ .fIdle) : (wtStep s).roundsLeft < s.roundsLeft := by
  rw [wtStep_busy hf]
  cases hp : s.fph with
  | fIdle => exact absurd hp hf
  | fLoadA => simp [frameStep_loadA hp, State.roundsLeft, FramePhase.stepsLeft, hp]
  | fClkLo => simp [frameStep_clkLo hp, State.roundsLeft, FramePhase.stepsLeft, hp]
  | fDin => simp [frameStep_din hp, State.roundsLeft, FramePhase.stepsLeft, hp]
  | fDly1 => simp [frameStep_dly1 hp, State.roundsLeft, FramePhase.stepsLeft, hp]
  | fClkHi => simp [frameStep_clkHi hp, State.roundsLeft, FramePhase.stepsLeft, hp]
  | fDly2 =>
    by_cases hb : s.bitn = 0
    · simp [frameStep_dly2_last hp hb, State.roundsLeft, FramePhase.stepsLeft, hp]
    · have hn : (s.bitn - 1).toNat + 1 = s.bitn.toNat := by bv_omega
      rw [frameStep_dly2 hp hb]
      simp only [State.roundsLeft, FramePhase.stepsLeft, hp, State.delayEvent_rph, State.delayEvent_pos]
      omega
  | fLoadD => simp [frameStep_loadD hp, State.roundsLeft, FramePhase.stepsLeft, hp]
  | fLoadR =>
    rw [frameStep_loadR hp]
    have h := completeFrame_roundsLeft (h.loadEvent true) (by simpa using hp)
    simpa [State.roundsLeft] using h

theorem wtStep_roundsLeft_le (h : s.Stopping) : (wtStep s).roundsLeft ≤ s.roundsLeft := by
  by_cases hf : s.fph = .fIdle
  · rw [wtStep_free hf, initStep_none h.iph]
  · exact (wtStep_roundsLeft h.inv hf).le

/-! ### A round -/

/-- One turn of each brings the count down, until none is left. -/
theorem State.Stopping.round (h : s.Stopping) :
    ∃ t, runTurns [.rl, .wt] s = .next t ∧ t.Stopping ∧ t.roundsLeft ≤ s.roundsLeft - 1 := by
  obtain ⟨u, hu⟩ := rlStep_answers h.inv
  have hstop := h.rl hu
  refine ⟨wtStep u, by rw [runTurns_cons (t := .rl) hu, runTurns_cons (t := .wt) rfl, runTurns_nil], hstop.wt, ?_⟩
  have hwt := wtStep_roundsLeft_le hstop
  rcases (rlStep_next hu).roundsLeft h with hlt | ⟨rfl, hbusy | h0⟩
  · omega
  · have := wtStep_roundsLeft hstop.inv hbusy
    omega
  · omega

theorem State.Stopping.rounds (h : s.Stopping) (n : Nat) :
    ∃ t, runTurns (List.replicate n [Turn.rl, Turn.wt]).flatten s = .next t ∧ t.Stopping ∧
      t.roundsLeft ≤ s.roundsLeft - n := by
  induction n generalizing s with
  | zero => exact ⟨s, runTurns_nil s, h, le_rfl⟩
  | succ n ih =>
    obtain ⟨u, hu, hustop, hule⟩ := h.round
    obtain ⟨t, ht, htstop, htle⟩ := ih hustop
    rw [List.replicate_succ, List.flatten_cons, runTurns_append hu]
    exact ⟨t, ht, htstop, by omega⟩

end

/-- Settles O39: at most 766 rounds are left at the start. -/
theorem stopIsReachedWithinBound : Obligations.StopIsReachedWithinBound := by
  intro s hi hiph hstop
  obtain ⟨t, ht, htstop, hle⟩ := State.Stopping.rounds ⟨hi, hiph, hstop⟩ 1000
  have := s.roundsLeft_le
  exact ⟨t, ht, htstop.stopped (by omega)⟩

end Sys2Proof.Machine
end

section
/-! PROOFS. `TEXT` compiles one command a turn (O50): the command of each kind of character, and what the host goes on with
once it has the response (43_text_compile R151 to R155). -/

namespace Sys2Proof

theorem isDot_iff (ch : Char) : isDot ch = true ↔ ch = '.' ∨ ch = ',' := by simp [isDot]

/-! ### The character in hand -/

section

variable {c : Compile} {ch : Char} {p : Params} {n : Nat}

theorem Compile.current_done (h : c.left = [] ∨ c.full = true) : c.current = none := by
  unfold Compile.current
  rcases h with h | h <;> simp [h]

theorem Compile.current_cons {cs : List Char} (hl : c.left = ch :: cs) (hf : c.full = false) : c.current = some ch := by
  simp [Compile.current, hl, hf]

theorem Compile.command_done (h : c.current = none) : c.command p n = .sbCommit := by
  unfold Compile.command
  rw [h]

variable (h : c.current = some ch)

include h

theorem Compile.command_dot (hd : isDot ch = true) :
    c.command p n = if n = 0 then .sbAppend p.dpMask else .sbOrlast p.dpMask := by
  unfold Compile.command
  rw [h]
  exact if_pos hd

theorem Compile.command_glyph (hd : isDot ch = false) : c.command p n =
    if c.lead then .sbOrlast ((p.glyphOf ch).getD Config.glyphBlank)
    else .sbAppend ((p.glyphOf ch).getD Config.glyphBlank) := by
  unfold Compile.command
  rw [h]
  exact if_neg (by simp [hd])

/-- Nothing is to be reported of a dot, of a character with a glyph, or twice. -/
theorem Compile.unreported_none (hr : isDot ch = true ∨ (p.glyphOf ch).isNone = false ∨ c.reported = true) :
    c.unreported p = none := by
  unfold Compile.unreported
  rw [h]
  rcases hr with hr | hr | hr <;> simp [Option.filter, hr]

theorem Compile.unreported_some (hd : isDot ch = false) (hg : (p.glyphOf ch).isNone = true) (hr : c.reported = false) :
    c.unreported p = some ch := by
  unfold Compile.unreported
  rw [h]
  simp [Option.filter, hd, hg, hr]

end

theorem Compile.after_dot {c : Compile} {ch : Char} {cs : List Char} (hl : c.left = ch :: cs) (hd : isDot ch = true)
    (n : Nat) (refused : Bool) :
    c.after n refused ch = { left := cs, lead := n == 0 || c.lead, full := false, reported := false } := by
  simp [Compile.after, hl, hd]

theorem Compile.after_glyph {c : Compile} {ch : Char} {cs : List Char} (hl : c.left = ch :: cs) (hd : isDot ch = false)
    (n : Nat) (refused : Bool) :
    c.after n refused ch = { left := cs, lead := false, full := !c.lead && refused, reported := false } := by
  simp [Compile.after, hl, hd]

namespace Machine

/-! ### The answer to an append or a mark -/

section

variable {s t : State} {c : Compile} {ch : Char}

/-- An append or a mark finishes in its one step, whatever the session. -/
theorem ExecTo.glyph_finishes {i : Instr} (h : ExecTo s i t) (hi : (∃ g, i = .sbAppend g) ∨ ∃ m, i = .sbOrlast m) :
    ∃ u event, s.SamePort u ∧ t = u.finish event 0 := by
  have hport : ∀ b, s.SamePort (s.setShadow b) := fun b => by simp [State.SamePort]
  rcases hi with ⟨g, rfl⟩ | ⟨m, rfl⟩
  · cases h with
    | closed | appendFull => exact ⟨s, _, ⟨rfl, rfl, rfl, rfl, rfl, rfl⟩, rfl⟩
    | append => exact ⟨_, _, hport _, rfl⟩
    | sendHeld _ _ ha | sendNotReady _ _ ha | sendFails _ _ ha | sendStarts _ _ ha => cases ha
  · cases h with
    | closed | orlastEmpty => exact ⟨s, _, ⟨rfl, rfl, rfl, rfl, rfl, rfl⟩, rfl⟩
    | orlast => exact ⟨_, _, hport _, rfl⟩
    | sendHeld _ _ ha | sendNotReady _ _ ha | sendFails _ _ ha | sendStarts _ _ ha => cases ha

theorem response_eq_bufferFull_iff (event : Option Diag) :
    response event 0 = 0x8500#16 ↔ ∃ g, event = some (.bufferFull g) := by
  constructor
  · intro h
    have hsays := saysBufferFull_response event 0
    rw [h] at hsays
    exact of_decide_eq_true (hsays.symm.trans (by decide))
  · rintro ⟨g, rfl⟩
    exact response_bufferFull g

/-- The host reads `BufferFull` in the response to an append or a mark exactly when the response is `0x8500`. -/
theorem ExecTo.glyph_bufferFullAnswered {i : Instr} (h : ExecTo s i t)
    (hi : (∃ g, i = .sbAppend g) ∨ ∃ m, i = .sbOrlast m) :
    t.bufferFullAnswered = decide (t.responses = s.responses ++ [0x8500#16]) := by
  obtain ⟨u, event, ⟨-, hr, -⟩, rfl⟩ := h.glyph_finishes hi
  rw [State.finish_bufferFullAnswered, State.finish_responses, hr, decide_eq_decide, List.append_right_inj,
    List.singleton_inj, response_eq_bufferFull_iff]

/-! ### A turn of a compile, by the character in hand -/

theorem compileTurn_commits (h : c.current = none) : compileTurn s c = exec .sbCommit s := by
  rw [compileTurn_issues (by simp [Compile.unreported, h]), Compile.command_done h]
  cases exec .sbCommit s <;> simp [h]

/-- A character's command, and the compile the host goes on with. -/
theorem compileTurn_character {m : HostMove} {ms : List HostMove} (hq : s.hostq = m :: ms) (h : c.current = some ch)
    (hu : c.unreported s.cfg.toParams = none)
    (ht : exec (c.command s.cfg.toParams s.shadow.length.toNat) s = .next t) :
    compileTurn s c = .next { t with
      hostq := .compile (c.after s.shadow.length.toNat t.bufferFullAnswered ch) :: ms } := by
  have hi : (∃ g, c.command s.cfg.toParams s.shadow.length.toNat = .sbAppend g) ∨
      ∃ m, c.command s.cfg.toParams s.shadow.length.toNat = .sbOrlast m := by
    rcases c.command_cases s.cfg.toParams s.shadow.length.toNat with ⟨_, _, hi⟩ | ⟨hn, _⟩
    · exact hi
    · simp [h] at hn
  obtain ⟨u, event, ⟨hu', -⟩, rfl⟩ := (exec_next ht).glyph_finishes hi
  rw [compileTurn_issues hu, ht, mapNext_next, Compile.rest_some h, State.goOn_frame, State.finish_hostq, hu', hq]
  rfl

end

/-- Settles O50, branch by branch of the loop's body. -/
theorem textCompileFollowsRule : Obligations.TextCompileFollowsRule := by
  refine ⟨fun _ _ => rfl, ?_⟩
  rintro s _ turns c moves hs hw hq rfl
  have hstep : step s = compileTurn { s with sched := turns } c :=
    (step_host hs).trans (hostTurn_compile (s := { s with sched := turns }) hw hq)
  refine ⟨fun hdone => hstep.trans (compileTurn_commits (Compile.current_done hdone)), fun ch cs hleft hfull => ?_⟩
  have hcur := Compile.current_cons hleft hfull
  have hissue : ∀ {i t}, c.unreported s.cfg.toParams = none → c.command s.cfg.toParams s.shadow.length.toNat = i →
      exec i { s with sched := turns } = .next t →
      step s = .next { t with
        hostq := .compile (c.after s.shadow.length.toNat t.bufferFullAnswered ch) :: moves } := by
    rintro _ t hu rfl ht
    exact hstep.trans (compileTurn_character (s := { s with sched := turns }) hq hcur hu ht)
  refine ⟨fun hdot => ?dot, fun hne hne' => ?other⟩
  case dot =>
    have hd := (isDot_iff ch).mpr hdot
    have hu : c.unreported s.cfg.toParams = none := Compile.unreported_none hcur (.inl hd)
    have hcmd := Compile.command_dot (p := s.cfg.toParams) (n := s.shadow.length.toNat) hcur hd
    refine ⟨fun h0 t ht => ?_, fun h0 t ht => ?_⟩
    · rw [hissue hu (hcmd.trans (if_pos h0)) ht, Compile.after_dot hleft hd, h0]
      rfl
    · rw [hissue hu (hcmd.trans (if_neg h0)) ht, Compile.after_dot hleft hd, beq_false_of_ne h0, Bool.false_or]
  case other =>
    have hd : isDot ch = false := by simp [isDot, hne, hne']
    refine ⟨fun hg hr => ?report, fun g hg => ?glyph⟩
    case report =>
      rw [hstep, compileTurn_reports (Compile.unreported_some hcur hd (by simp [hg]) hr), reportFailure_eq,
        State.goOn_frame, hq]
      rfl
    case glyph =>
      have hu : c.unreported s.cfg.toParams = none :=
        Compile.unreported_none hcur (.inr (hg.imp (fun hg => by simp [hg]) fun hg => hg.2.1))
      have hgd : (s.cfg.glyphOf ch).getD Config.glyphBlank = g := by
        rcases hg with hg | ⟨hg, -, rfl⟩ <;> simp [hg, Config.glyphBlank]
      have hcmd := Compile.command_glyph (p := s.cfg.toParams) (n := s.shadow.length.toNat) hcur hd
      rw [hgd] at hcmd
      refine ⟨fun hlead t ht => ?_, fun hlead t ht => ?_⟩
      · rw [hissue hu (hcmd.trans (if_pos hlead)) ht, Compile.after_glyph hleft hd, hlead]
        rfl
      · rw [hissue hu (hcmd.trans (if_neg (by simp [hlead]))) ht, Compile.after_glyph hleft hd, hlead,
          (exec_next ht).glyph_bufferFullAnswered (.inl ⟨g, rfl⟩)]
        rfl

end Machine

end Sys2Proof
end

section
/-! PROOFS. A compiled text leaves its message (O51). A compile and the list of moves `compileChars` gives for it run side by
side, one turn each, in states that differ in the host's moves only. -/

namespace Sys2Proof.Machine

/-! ### The glyphs of a bank -/

section

variable {b : Bank} {gs : List Byte}

theorem getD_concat (gs : List Byte) (g d : Byte) (j : Nat) :
    (gs ++ [g]).getD j d = if j = gs.length then g else gs.getD j d := by
  rcases lt_trichotomy j gs.length with hj | rfl | hj
  · rw [List.getD_append _ _ _ _ hj, if_neg hj.ne]
  · simp
  · rw [if_neg hj.ne', List.getD_eq_default _ _ hj.le, List.getD_eq_default _ _ (by simpa using hj)]

theorem length_mark (h : gs ≠ []) (g : Byte) : (gs.dropLast ++ [g]).length = gs.length := by
  have := List.length_pos_of_ne_nil h
  simp
  omega

theorem Bank.holds_empty : Bank.empty.Holds [] := ⟨rfl, fun _ => rfl⟩

/-- The bank with a glyph appended (40_scrollbuffer R81). -/
theorem Bank.Holds.append (h : b.Holds gs) (hb : b.Good) (hl : gs.length < Config.capacity) (g : Byte) :
    ({ b with data := b.data.write b.length.toNat g, length := b.length + 1 } : Bank).Holds (gs ++ [g]) := by
  obtain ⟨hlen, hread⟩ := h
  have h128 : b.length.toNat < 128 := hlen ▸ hl
  refine ⟨?_, fun j => ?_⟩
  · rw [List.length_append, List.length_singleton, ← hlen]
    dsimp only
    bv_omega
  · rw [Memory.read_write hb.1, getD_concat, hread, hlen]

/-- The bank with its newest glyph marked (40_scrollbuffer R82). -/
theorem Bank.Holds.mark (h : b.Holds gs) (hb : b.Good) (hne : gs ≠ []) (m : Byte) :
    ({ b with data := b.data.write (b.length.toNat - 1) (b.data.read (b.length.toNat - 1) ||| m) } : Bank).Holds
      (gs.dropLast ++ [gs.getLastD 0 ||| m]) := by
  obtain ⟨hlen, hread⟩ := h
  obtain rfl | ⟨init, g, rfl⟩ := gs.eq_nil_or_concat'
  · exact absurd rfl hne
  · have hlast : b.length.toNat - 1 = init.length := by simp [hlen]
    refine ⟨by simp [hlen], fun j => ?_⟩
    rw [Memory.read_write hb.1, hlast, hread, hread, getD_concat, getD_concat, if_pos rfl,
      List.dropLast_concat, List.getLastD_concat, getD_concat]
    split_ifs <;> rfl

end

/-! ### A state in the middle of a compile -/

/-- The state with other moves of the host. -/
abbrev State.withMoves (s : State) (moves : List HostMove) : State := { s with hostq := moves }

theorem State.setShadow_withMoves (s : State) (q : List HostMove) (b : Bank) :
    (s.withMoves q).setShadow b = (s.setShadow b).withMoves q := by
  unfold State.setShadow State.setBank
  cases s.act <;> rfl

theorem State.finish_withMoves (s : State) (m : HostMove) (q : List HostMove) (e : Option Diag) (v : Byte) :
    (s.withMoves (m :: q)).finish e v = (s.finish e v).withMoves q := by cases e <;> rfl

/-- `u` is `s` with `gs` in the shadow bank, its cursor at 0, and other moves, events and responses. -/
structure State.Compiling (s : State) (gs : List Byte) (u : State) : Prop where
  cfg : u.cfg = s.cfg
  act : u.act = s.act
  active : u.active = s.active
  rph : u.rph = s.rph
  sess : u.sess = s.sess
  trace : u.trace = s.trace
  hostWaiting : u.hostWaiting = s.hostWaiting
  good : u.shadow.Good
  holds : u.shadow.Holds gs
  cursor : u.shadow.cursor = 0

section

variable {s u : State} {gs gs' : List Byte}

theorem State.Compiling.finish (h : s.Compiling gs u) (e : Option Diag) (v : Byte) : s.Compiling gs (u.finish e v) := by
  cases e <;> exact { h with }

theorem State.Compiling.report (h : s.Compiling gs u) (ch : Char) : s.Compiling gs (reportFailure u ch) := { h with }

theorem State.Compiling.trans {v : State} (h : s.Compiling gs u) (k : u.Compiling gs' v) : s.Compiling gs' v where
  cfg := k.cfg.trans h.cfg
  act := k.act.trans h.act
  active := k.active.trans h.active
  rph := k.rph.trans h.rph
  sess := k.sess.trans h.sess
  trace := k.trace.trans h.trace
  hostWaiting := k.hostWaiting.trans h.hostWaiting
  good := k.good
  holds := k.holds
  cursor := k.cursor

theorem State.compiling_setShadow (s : State) {b : Bank} (hb : b.Good) (hh : b.Holds gs) (hc : b.cursor = 0) :
    s.Compiling gs (s.setShadow b) where
  cfg := s.setShadow_cfg b
  act := s.setShadow_act b
  active := s.setShadow_active b
  rph := s.setShadow_rph b
  sess := s.setShadow_sess b
  trace := s.setShadow_trace b
  hostWaiting := by simp [State.hostWaiting, State.wtBusy]
  good := by rwa [s.setShadow_shadow]
  holds := by rwa [s.setShadow_shadow]
  cursor := by rwa [s.setShadow_shadow]

/-! ### What a command of a compile does, whatever moves the host has -/

/-- The command leads from `u` to `v`, and the host reads in its response whether the bank was full. -/
def State.Issues (u : State) (i : Instr) (full : Bool) (v : State) : Prop :=
  v.bufferFullAnswered = full ∧ ∀ m q, exec i (u.withMoves (m :: q)) = .next (v.withMoves q)

theorem State.issues_write {i : Instr} {b : Bank}
    (h : ∀ q, exec i (u.withMoves q) = .next (((u.withMoves q).setShadow b).finish none 0)) :
    u.Issues i false ((u.setShadow b).finish none 0) := by
  refine ⟨by simp [State.finish_bufferFullAnswered], fun m q => ?_⟩
  rw [h, State.setShadow_withMoves, State.finish_withMoves]

variable (hs : s.sess ≠ .destroyed)

include hs

theorem State.issues_reset : ∃ v, s.Issues .sbReset false v ∧ s.Compiling [] v :=
  ⟨_, State.issues_write fun q => exec_sbReset (s := s.withMoves q) hs,
    (s.compiling_setShadow Bank.good_empty Bank.holds_empty rfl).finish _ _⟩

variable (h : s.Compiling gs u)

include h

theorem State.Compiling.issues_append (hl : gs.length < Config.capacity) (g : Byte) :
    ∃ v, u.Issues (.sbAppend g) false v ∧ s.Compiling (gs ++ [g]) v := by
  have hroom : u.shadow.length.toNat < Config.capacity := h.holds.1 ▸ hl
  exact ⟨_, State.issues_write fun q => exec_sbAppend_room (s := u.withMoves q) (h.sess ▸ hs) g hroom,
    (h.trans (u.compiling_setShadow (Bank.good_append h.good hroom g) (h.holds.append h.good hl g) h.cursor)).finish _ _⟩

theorem State.Compiling.issues_append_full (hl : gs.length = Config.capacity) (g : Byte) :
    ∃ v, u.Issues (.sbAppend g) true v ∧ s.Compiling gs v := by
  refine ⟨u.finish (some (.bufferFull g)) 0, ⟨by simp [State.finish_bufferFullAnswered], fun m q => ?_⟩, h.finish _ _⟩
  rw [exec_sbAppend_full (s := u.withMoves (m :: q)) (h.sess ▸ hs) g (h.holds.1.trans hl), State.finish_withMoves]

theorem State.Compiling.issues_mark (hne : gs ≠ []) (m : Byte) :
    ∃ v, u.Issues (.sbOrlast m) false v ∧ s.Compiling (gs.dropLast ++ [gs.getLastD 0 ||| m]) v := by
  have hpos : 0 < u.shadow.length.toNat := h.holds.1 ▸ List.length_pos_of_ne_nil hne
  exact ⟨_, State.issues_write fun q => exec_sbOrlast_some (s := u.withMoves q) (h.sess ▸ hs) m
      (u.shadow.length_ne_zero_iff.mpr hpos) h.good.length_le,
    (h.trans (u.compiling_setShadow (Bank.good_rewrite h.good (by omega) _) (h.holds.mark h.good hne m)
      h.cursor)).finish _ _⟩

end

/-! ### A compile and its moves, side by side -/

/-- From any state with `gs` in the shadow bank, the compile `c` and the moves `ms` run to the same state with `gs'` there,
the compile being done with its characters. -/
def CompilesAs (s : State) (rest : List HostMove) (gs : List Byte) (c : Compile) (ms : List HostMove)
    (gs' : List Byte) : Prop :=
  ∀ u, s.Compiling gs u → ∃ t c', s.Compiling gs' t ∧ (c'.left = [] ∨ c'.full = true) ∧
    runTurns (List.replicate ms.length .host) (u.withMoves (.compile c :: rest)) = .next (t.withMoves (.compile c' :: rest)) ∧
    runTurns (List.replicate ms.length .host) (u.withMoves (ms ++ rest)) = .next (t.withMoves rest)

section

variable {s : State} {rest ms : List HostMove} {gs gs₁ gs' : List Byte} {c c₁ : Compile} {ch : Char}

theorem compilesAs_nil (h : c.left = [] ∨ c.full = true) : CompilesAs s rest gs c [] gs := fun u hu =>
  ⟨u, c, hu, h, rfl, rfl⟩

theorem compilesAs_cons {m : HostMove} (hm : CompilesAs s rest gs₁ c₁ ms gs')
    (h : ∀ u, s.Compiling gs u → ∃ v, s.Compiling gs₁ v ∧
      hostTurn (u.withMoves (.compile c :: rest)) = .next (v.withMoves (.compile c₁ :: rest)) ∧
      hostTurn (u.withMoves (m :: (ms ++ rest))) = .next (v.withMoves (ms ++ rest))) :
    CompilesAs s rest gs c (m :: ms) gs' := by
  intro u hu
  obtain ⟨v, hv, hcompile, hmove⟩ := h u hu
  obtain ⟨t, c', ht, hdone, hrun, hrun'⟩ := hm v hv
  refine ⟨t, c', ht, hdone, ?_, ?_⟩
  · rw [List.length_cons, List.replicate_succ, runTurns_cons (t := .host) hcompile, hrun]
  · rw [List.length_cons, List.replicate_succ, List.cons_append, runTurns_cons (t := .host) hmove, hrun']

variable (hw : s.hostWaiting = false)

include hw

theorem compilesAs_report (hu : c.unreported s.cfg.toParams = some ch)
    (hm : CompilesAs s rest gs { c with reported := true } ms gs') :
    CompilesAs s rest gs c (.report ch :: ms) gs' := by
  refine compilesAs_cons hm fun u h => ⟨_, h.report ch, ?_, ?_⟩
  · exact (hostTurn_compile (s := u.withMoves (.compile c :: rest)) (h.hostWaiting.trans hw) rfl).trans
      (compileTurn_reports (h.cfg ▸ hu))
  · exact hostTurn_report (s := u.withMoves (.report ch :: (ms ++ rest))) (h.hostWaiting.trans hw) rfl

theorem compilesAs_issue {i : Instr} {full : Bool} (hcur : c.current = some ch)
    (hu : c.unreported s.cfg.toParams = none) (hi : c.command s.cfg.toParams gs.length = i)
    (hc : c.after gs.length full ch = c₁) (hissue : ∀ u, s.Compiling gs u → ∃ v, u.Issues i full v ∧ s.Compiling gs₁ v)
    (hm : CompilesAs s rest gs₁ c₁ ms gs') : CompilesAs s rest gs c (commandMove i :: ms) gs' := by
  subst hi hc
  refine compilesAs_cons hm fun u h => ?_
  obtain ⟨v, ⟨hfull, hexec⟩, hv⟩ := hissue u h
  refine ⟨v, hv, ?_, ?_⟩
  · rw [← h.cfg, ← h.holds.1] at hexec
    rw [← h.cfg] at hu
    rw [← hfull, ← h.holds.1]
    exact (hostTurn_compile (s := u.withMoves (.compile c :: rest)) (h.hostWaiting.trans hw) rfl).trans
      (compileTurn_character (ms := rest) (t := v.withMoves rest) rfl hcur hu (hexec _ rest))
  · exact (hostTurn_present (s := u.withMoves (commandMove _ :: (ms ++ rest))) (h.hostWaiting.trans hw) rfl).trans
      ((present_ok (c.command_decodes _ _) _).trans (hexec _ _))

variable (hs : s.sess ≠ .destroyed)

include hs

/-- A character that is no dot, reported before if it must be: merged into a leading dot, appended, or refused. -/
theorem compilesAs_glyph {text : List Char} {lead r : Bool} {g : Byte} (hd : isDot ch = false)
    (hr : (s.cfg.glyphOf ch).isNone = false ∨ r = true) (hg : (s.cfg.glyphOf ch).getD Config.glyphBlank = g)
    (hlead : lead = true → gs ≠ []) (ih : ∀ gs, CompilesAs s rest gs ⟨text, false, false, false⟩
      (compileChars s.cfg.toParams text gs.length false) (messageGlyphs s.cfg.toParams text gs false)) :
    CompilesAs s rest gs ⟨ch :: text, lead, false, r⟩
      (if lead then commandMove (.sbOrlast g) :: compileChars s.cfg.toParams text gs.length false
        else commandMove (.sbAppend g) ::
          if gs.length = Config.capacity then [] else compileChars s.cfg.toParams text (gs.length + 1) false)
      (if lead then messageGlyphs s.cfg.toParams text (gs.dropLast ++ [gs.getLastD 0 ||| g]) false
        else if gs.length = Config.capacity then gs else messageGlyphs s.cfg.toParams text (gs ++ [g]) false) := by
  have hu : Compile.unreported s.cfg.toParams ⟨ch :: text, lead, false, r⟩ = none := Compile.unreported_none rfl (.inr hr)
  have hcmd := Compile.command_glyph (c := ⟨ch :: text, lead, false, r⟩) (p := s.cfg.toParams) (n := gs.length) rfl hd
  rw [hg] at hcmd
  cases lead with
  | true =>
    have hm := ih (gs.dropLast ++ [gs.getLastD 0 ||| g])
    rw [length_mark (hlead rfl)] at hm
    exact compilesAs_issue hw rfl hu hcmd (Compile.after_glyph rfl hd _ false)
      (fun u h => h.issues_mark hs (hlead rfl) _) hm
  | false =>
    by_cases hfull : gs.length = Config.capacity
    · rw [if_neg (by simp), if_pos hfull, if_neg (by simp), if_pos hfull]
      exact compilesAs_issue hw rfl hu hcmd (Compile.after_glyph rfl hd _ true)
        (fun u h => h.issues_append_full hs hfull _) (compilesAs_nil (.inr rfl))
    · rw [if_neg (by simp), if_neg hfull, if_neg (by simp), if_neg hfull]
      have hm := ih (gs ++ [g])
      rw [List.length_append, List.length_singleton] at hm
      refine compilesAs_issue hw rfl hu hcmd (Compile.after_glyph rfl hd _ false)
        (fun u h => h.issues_append hs ?_ _) hm
      have := h.holds.1 ▸ h.good.length_le
      omega

/-- Character by character, from any state of the compile before its end. -/
theorem compilesAs_text (text : List Char) (lead : Bool) (gs : List Byte) (hlead : lead = true → gs ≠ []) :
    CompilesAs s rest gs ⟨text, lead, false, false⟩
      (compileChars s.cfg.toParams text gs.length lead) (messageGlyphs s.cfg.toParams text gs lead) := by
  induction text generalizing lead gs with
  | nil => exact compilesAs_nil (.inl rfl)
  | cons ch cs ih =>
    rw [compileChars, messageGlyphs]
    cases hd : isDot ch with
    | true =>
      have hu : Compile.unreported s.cfg.toParams ⟨ch :: cs, lead, false, false⟩ = none :=
        Compile.unreported_none rfl (.inl hd)
      by_cases hgs : gs = []
      · subst hgs
        exact compilesAs_issue hw rfl hu (Compile.command_dot rfl hd) (Compile.after_dot rfl hd _ false)
          (fun u h => h.issues_append hs (by decide) _) (ih true [s.cfg.dpMask] (by simp))
      · have h0 : gs.length ≠ 0 := by simpa using hgs
        have hm := ih lead (gs.dropLast ++ [gs.getLastD 0 ||| s.cfg.dpMask]) (by simp)
        rw [length_mark hgs] at hm
        rw [if_pos rfl, if_neg h0, if_pos rfl, if_neg hgs]
        refine compilesAs_issue hw rfl hu ((Compile.command_dot rfl hd).trans (if_neg h0))
          (Compile.after_dot rfl hd _ false) (fun u h => h.issues_mark hs hgs _) ?_
        rwa [beq_false_of_ne h0, Bool.false_or]
    | false =>
      have hglyph := fun r hr => compilesAs_glyph (rest := rest) (r := r) hw hs hd hr rfl hlead fun gs => ih false gs nofun
      rw [if_neg Bool.false_ne_true, if_neg Bool.false_ne_true]
      cases hg : (s.cfg.glyphOf ch).isNone with
      | true =>
        exact compilesAs_report (c := ⟨ch :: cs, lead, false, false⟩) hw
          (Compile.unreported_some rfl hd hg rfl) (hglyph true (.inr rfl))
      | false => exact hglyph false (.inl hg)

end

/-- Settles O51: the reset, then the two runs side by side. -/
theorem textLeavesItsMessage : Obligations.TextLeavesItsMessage := by
  rintro s text _ rest hs hw hq rfl
  obtain ⟨v, ⟨-, hreset⟩, hv⟩ := State.issues_reset hs
  obtain ⟨t, c, ht, hdone, hrun, hrun'⟩ := compilesAs_text (rest := rest) hw hs text false [] nofun v hv
  have hturn : ∀ q, hostTurn (s.withMoves (commandMove .sbReset :: q)) = .next (v.withMoves q) := fun q =>
    (hostTurn_present (s := s.withMoves (commandMove .sbReset :: q)) hw rfl).trans
      ((present_ok (decodeRequest_encode rfl) _).trans (hreset _ q))
  refine ⟨t.withMoves rest, c, ?compile, hdone, ?moves, ht.holds, ht.cursor, ht.active, ht.act, ht.rph, ht.trace, rfl⟩
  case compile =>
    have hstart : s.withMoves (commandMove .sbReset :: .compile (Compile.start text) :: rest) = s :=
      congrArg s.withMoves hq.symm
    have hfirst := hturn (.compile (Compile.start text) :: rest)
    rw [hstart] at hfirst
    rw [List.length_cons, List.replicate_succ, runTurns_cons (t := .host) hfirst]
    exact hrun
  case moves =>
    rw [List.length_cons, List.replicate_succ, List.cons_append, runTurns_cons (t := .host) (hturn _)]
    exact hrun'

end Sys2Proof.Machine
end

section
/-! PROOFS. `TEXT` in a destroyed session (O52): each of its turns adds an event, and a response where it issued a command;
nothing else of the state moves. -/

namespace Sys2Proof.Machine

/-- What a stretch of refused turns leaves: the events raised, `n` responses `BadState`, the moves not made yet. -/
def State.refused (s : State) (moves : List HostMove) (events : List Diag) (n : Nat) : State := { s with
  hostq := moves, diag := s.diag ++ events, responses := s.responses ++ List.replicate n 0x8700#16 }

section

variable {s : State}

theorem State.refused_nil (s : State) : s.refused s.hostq [] 0 = s := by simp [State.refused]

theorem State.refuse_refused (m : HostMove) (ms : List HostMove) (es : List Diag) (k : Nat) (op : Option Byte) :
    (s.refused (m :: ms) es k).refuse (.badState op) = s.refused ms (es ++ [.badState op]) (k + 1) := by
  rw [State.refuse_eq, response_badState]
  simp [State.refused, List.replicate_succ']

variable (hs : s.sess = .destroyed) (hw : s.hostWaiting = false)

include hs hw

theorem hostTurn_refused_present {i : Instr} (hi : i.wellFormed = true) (ms : List HostMove) (es : List Diag) (k : Nat) :
    hostTurn (s.refused (commandMove i :: ms) es k) = .next (s.refused ms (es ++ [.badState (opOf i)]) (k + 1)) := by
  rw [hostTurn_present (s := s.refused (commandMove i :: ms) es k) hw rfl, present_ok (decodeRequest_encode hi),
    exec_closed (s := s.refused _ _ _) hs, State.refuse_refused]

end

/-! ### A refused compile -/

/-- The compile `c` runs to its end with the events `events`, one a turn, and `n` refusals. -/
def RefusedAs (s : State) (ms : List HostMove) (c : Compile) (events : List Diag) (n : Nat) : Prop :=
  ∀ es k, runTurns (List.replicate events.length .host) (s.refused (.compile c :: ms) es k) =
    .next (s.refused ms (es ++ events) (k + n))

section

variable {s : State} {ms : List HostMove} {c c' : Compile} {events : List Diag} {n : Nat} {ch : Char}

theorem refusedAs_cons {e : Diag} {j : Nat} (hc : RefusedAs s ms c' events n)
    (h : ∀ es k, hostTurn (s.refused (.compile c :: ms) es k) =
      .next (s.refused (.compile c' :: ms) (es ++ [e]) (k + j))) : RefusedAs s ms c (e :: events) (n + j) := by
  intro es k
  rw [List.length_cons, List.replicate_succ, runTurns_cons (t := .host) (h es k), hc, List.append_assoc,
    Nat.add_assoc, Nat.add_comm j]
  rfl

variable (hw : s.hostWaiting = false)

include hw

theorem refusedAs_report (hu : c.unreported s.cfg.toParams = some ch)
    (hc : RefusedAs s ms { c with reported := true } events n) :
    RefusedAs s ms c (.encodingFailure ch :: events) n := by
  refine refusedAs_cons (j := 0) hc fun es k => ?_
  rw [hostTurn_compile (s := s.refused _ _ _) hw rfl, compileTurn_reports (s := s.refused _ _ _) hu, reportFailure_eq]
  simp [State.goOn_frame, State.refused]

variable (hs : s.sess = .destroyed)

include hs

theorem refusedAs_commit (h : c.current = none) : RefusedAs s ms c [.badState (some 0x13)] 1 := by
  intro es k
  have hturn : hostTurn (s.refused (.compile c :: ms) es k) =
      .next (s.refused ms (es ++ [.badState (some 0x13)]) (k + 1)) := by
    rw [hostTurn_compile (s := s.refused _ _ _) hw rfl, compileTurn_commits h, exec_closed (s := s.refused _ _ _) hs,
      State.refuse_refused]
    rfl
  exact runTurns_cons (t := .host) hturn

/-- A refusal is not read as `BufferFull`. -/
theorem refusedAs_character {op : Option Byte} (h : c.current = some ch) (hu : c.unreported s.cfg.toParams = none)
    (hop : opOf (c.command s.cfg.toParams s.shadow.length.toNat) = op) (ha : c.after s.shadow.length.toNat false ch = c')
    (hc : RefusedAs s ms c' events n) : RefusedAs s ms c (.badState op :: events) (n + 1) := by
  subst hop ha
  refine refusedAs_cons hc fun es k => ?_
  rw [hostTurn_compile (s := s.refused _ _ _) hw rfl, compileTurn_character (s := s.refused _ _ _) rfl h hu
    (exec_closed (s := s.refused _ _ _) hs _), State.refuse, State.finish_bufferFullAnswered, ← State.refuse,
    State.refuse_refused]
  simp only [reduceCtorEq, Option.some.injEq, exists_false, decide_false]
  rfl

/-- What is left of a `TEXT` after its `SB.RESET`, character by character. -/
theorem refusedAs_text (text : List Char) (lead : Bool) : RefusedAs s ms ⟨text, lead, false, false⟩
    (refusedChars s.cfg.toParams s.shadow.length.toNat text lead ++ [.badState (some 0x13)]) (text.length + 1) := by
  induction text generalizing lead with
  | nil => exact refusedAs_commit hw hs rfl
  | cons ch cs ih =>
    rw [refusedChars]
    cases hd : isDot ch with
    | true =>
      have hop : opOf (Compile.command s.cfg.toParams s.shadow.length.toNat ⟨ch :: cs, lead, false, false⟩) =
          some (if s.shadow.length.toNat = 0 then 0x11 else 0x12) := by
        rw [Compile.command_dot rfl hd]
        split <;> rfl
      exact refusedAs_character hw hs rfl (Compile.unreported_none rfl (.inl hd)) hop (Compile.after_dot rfl hd _ _) (ih _)
    | false =>
      have hop : ∀ r, opOf (Compile.command s.cfg.toParams s.shadow.length.toNat ⟨ch :: cs, lead, false, r⟩) =
          some (if lead then 0x12 else 0x11) := by
        intro r
        rw [Compile.command_glyph rfl hd]
        cases lead <;> rfl
      have hglyph : ∀ r, (s.cfg.glyphOf ch).isNone = false ∨ r = true → RefusedAs s ms ⟨ch :: cs, lead, false, r⟩
          (.badState (some (if lead then 0x12 else 0x11)) ::
            (refusedChars s.cfg.toParams s.shadow.length.toNat cs false ++ [.badState (some 0x13)]))
          (cs.length + 1 + 1) := fun r hr =>
        refusedAs_character hw hs rfl (Compile.unreported_none rfl (.inr hr)) (hop r)
          ((Compile.after_glyph rfl hd _ _).trans (by rw [Bool.and_false])) (ih false)
      cases hg : (s.cfg.glyphOf ch).isNone with
      | true =>
        exact refusedAs_report (c := ⟨ch :: cs, lead, false, false⟩) hw (Compile.unreported_some rfl hd hg rfl)
          (hglyph true (.inr rfl))
      | false => exact hglyph false (.inl hg)

end

/-- Settles O52: the refused `SB.RESET`, then the characters and the commit. -/
theorem textInDestroyedSessionIsRefused : Obligations.TextInDestroyedSessionIsRefused := by
  rintro s text _ rest hs hw hq rfl
  have hreset := hostTurn_refused_present hs hw (i := .sbReset) rfl (.compile (Compile.start text) :: rest) [] 0
  have hstart : s.refused (commandMove .sbReset :: .compile (Compile.start text) :: rest) [] 0 = s :=
    (congrArg (s.refused · [] 0) hq.symm).trans s.refused_nil
  rw [hstart] at hreset
  refine (runTurns_cons (t := .host) hreset).trans ((refusedAs_text hw hs text false _ _).trans ?_)
  rw [Nat.zero_add, Nat.add_comm 1]
  rfl

end Sys2Proof.Machine
end

section
/-! PROOFS. No step stops (O42): the one fault is a glyph slot that does not exist, and a bank that meets the invariant has
at most `C` glyphs, so every slot read or written exists. -/

namespace Sys2Proof.Machine

section

variable {s : State}

/-! ### The commands -/

theorem sendFrame_answers (s : State) (f : Word16) : Answers (sendFrame s f) := by
  unfold sendFrame
  split_ifs <;> exact ⟨_, rfl⟩

theorem State.Inv.queried_good (h : s.Inv) (a : Bool) : (s.queried a).Good := by
  unfold State.queried
  split_ifs
  · exact h.active_good
  · exact h.shadow_good

/-- Every command answers: the shadow bank has room or is full, and the bank queried can be read. -/
theorem exec_answers (h : s.Inv) (i : Instr) : Answers (exec i s) := by
  by_cases hs : s.sess = .destroyed
  · exact ⟨_, exec_closed hs i⟩
  have hl := h.shadow_good.length_le
  cases i with
  | wtInit =>
    by_cases hu : s.sess = .uninit
    · exact ⟨_, exec_wtInit_uninit hs hu⟩
    · exact ⟨_, exec_wtInit_again hs hu⟩
  | wtSend reg val => exact exec_wtSend hs reg val ▸ sendFrame_answers s _
  | wtClose =>
    rw [exec_wtClose hs]
    split_ifs <;> exact ⟨_, rfl⟩
  | sbReset => exact ⟨_, exec_sbReset hs⟩
  | sbAppend g =>
    rcases hl.lt_or_eq with hroom | hfull
    · exact ⟨_, exec_sbAppend_room hs g hroom⟩
    · exact ⟨_, exec_sbAppend_full hs g hfull⟩
  | sbOrlast m =>
    by_cases h0 : s.shadow.length = 0
    · exact ⟨_, exec_sbOrlast_empty hs m h0⟩
    · exact ⟨_, exec_sbOrlast_some hs m h0 hl⟩
  | sbCommit =>
    rw [exec_sbCommit hs]
    split_ifs <;> exact ⟨_, rfl⟩
  | sbAdvance a k => exact ⟨_, exec_sbAdvance hs a k⟩
  | sbRead a k =>
    obtain ⟨⟨g, event⟩, hr⟩ := Bank.readAt_some (h.queried_good a).length_le k
    exact ⟨_, exec_sbRead_of_readAt hs hr⟩
  | rlStop => exact ⟨_, exec_rlStop hs⟩
  | wtWrite2 b =>
    by_cases hb : b.length = 2
    · obtain ⟨reg, val, rfl⟩ := List.length_eq_two.mp hb
      exact exec_wtWrite2_pair hs reg val ▸ sendFrame_answers s _
    · exact ⟨_, exec_wtWrite2_other hs hb⟩

/-! ### The turns -/

theorem present_answers (h : s.Inv) (r : Request) : Answers (present s r) := by
  cases hd : decodeRequest r with
  | ok i => exact present_ok hd s ▸ exec_answers h i
  | error e => exact ⟨_, (present_error hd s).trans (refuseRequest_eq s e)⟩

theorem compileTurn_answers (h : s.Inv) (c : Compile) : Answers (compileTurn s c) := by
  cases hu : c.unreported s.cfg.toParams with
  | some ch => exact ⟨_, compileTurn_reports hu⟩
  | none =>
    obtain ⟨t, ht⟩ := exec_answers h (c.command s.cfg.toParams s.shadow.length.toNat)
    rw [compileTurn_issues hu, ht]
    exact ⟨_, rfl⟩

theorem hostTurn_answers (h : s.Inv) : Answers (hostTurn s) := by
  cases hw : s.hostWaiting with
  | true => exact ⟨_, hostTurn_waiting hw⟩
  | false =>
    cases hq : s.hostq with
    | nil => exact ⟨_, hostTurn_nothing hq⟩
    | cons m ms =>
      cases m with
      | report ch => exact ⟨_, hostTurn_report hw hq⟩
      | present r => exact hostTurn_present hw hq ▸ present_answers h r
      | compile c => exact hostTurn_compile hw hq ▸ compileTurn_answers h c
      | stopIfFailed n => exact ⟨_, hostTurn_stopIfFailed hw hq⟩

/-- No agent's turn stops: only the host's and the sequencer's reach a glyph slot. -/
theorem takeTurn_answers (h : s.Inv) (turn : Turn) : Answers (takeTurn turn s) := by
  cases turn with
  | host => exact hostTurn_answers h
  | rl => exact rlStep_answers h
  | wt | wake | gpio => exact ⟨_, rfl⟩

end

/-- Settles O42: choosing who moves keeps the invariant, and no agent's turn stops. -/
theorem noStepStops : Obligations.NoStepStops :=
  fun s h => takeTurn_answers h.afterTurn s.nextTurn

end Sys2Proof.Machine
end

section
/-! PROOFS. What reset leaves, and what a run has when it has ended (O45, O46, O47). -/

namespace Sys2Proof.Machine

/-- Settles O45: both banks, both stores and all histories are empty, and an empty store reads as unlisted. -/
theorem resetValues : Obligations.ResetValues := by
  refine ⟨fun k j => ?bank, rfl, rfl, rfl, rfl, rfl, rfl, rfl, rfl, fun _ => rfl, fun pin => ?latch, rfl, rfl, rfl⟩
  case bank => cases k <;> exact ⟨rfl, rfl, rfl⟩
  case latch =>
    unfold State.latch
    split_ifs <;> rfl

/-- A wire engine with no frame and no initialisation has no step (41_wire_transport R105). -/
theorem wtStep_idle {s : State} (hf : s.fph = .fIdle) (hi : s.iph = .none0) : wtStep s = s :=
  (wtStep_free hf).trans (initStep_none hi)

/-- Settles O46: all three engines are idle at reset. -/
theorem noEngineStepAtReset : Obligations.NoEngineStepAtReset := by
  intro s hs
  have hr : s.rph = .rIdle := congrArg State.rph hs
  have hf : s.fph = .fIdle := congrArg State.fph hs
  have hi : s.iph = .none0 := congrArg State.iph hs
  exact ⟨rlStep_idle hr, congrArg _ (wtStep_idle hf hi), congrArg _ (timerWake_ignored (.inl (by simp [hr])))⟩

/-- A write of another GPIO user leaves an ended run ended: it touches no register of the three engines. -/
theorem State.Ended.otherGpioWrite {s : State} (h : s.Ended) (off : Nat) (w : Word32) :
    (s.otherGpioWrite off w).Ended := by
  rw [otherGpioWrite_frame]
  exact h

/-- Settles O47, agent by agent. -/
theorem endedRunStaysEnded : Obligations.EndedRunStaysEnded := by
  intro s turn h
  have ⟨_, hr, hf, hi, hq⟩ := h
  refine ⟨fun hturn => ?block, ?other⟩
  case block =>
    cases turn with
    | host => exact hostTurn_nothing hq
    | rl => exact rlStep_halted hr
    | wt => exact congrArg _ (wtStep_idle hf hi)
    | wake => exact congrArg _ (timerWake_halted hr)
    | gpio off w => exact absurd rfl (hturn off w)
  case other =>
    rintro off w rfl
    exact ⟨_, rfl, h.otherGpioWrite off w, by simp, by simp⟩

end Sys2Proof.Machine
end

section
/-! PROOFS. DIN changes only while CLK is low (O32): the wire engine makes every wire event, and the rows of its table
between the clearing of CLK and its rise leave CLK alone. -/

namespace Sys2Proof.Machine

section

variable {s t : State}

/-! ### The other agents -/

/-- `t` has the lines and the trace of `s`, and its frame phase, but that a frame may have started. -/
def State.WireKept (s t : State) : Prop :=
  t.lines = s.lines ∧ t.trace = s.trace ∧ (t.fph = s.fph ∨ t.fph = .fLoadA)

theorem State.WireKept.refl (s : State) : s.WireKept s := ⟨rfl, rfl, .inl rfl⟩

theorem State.WireKept.clkLowInBit (h : s.WireKept t) (hs : s.ClkLowInBit) : t.ClkLowInBit := by
  obtain ⟨hl, -, hf | hf⟩ := h
  · rwa [State.ClkLowInBit, hl, hf]
  · simp [State.ClkLowInBit, hf]

theorem ExecTo.wireKept {i : Instr} (h : ExecTo s i t) : s.WireKept t := by
  cases h with
  | closed | again => simp [State.WireKept, State.refuse]
  | initFails => simp [State.WireKept, State.abortInit]
  | close => simp [State.WireKept, State.closeSession]
  | commit =>
    obtain ⟨p, hp⟩ := State.lazyStart_eq { s with act := !s.act }
    simp [State.WireKept, hp]
  | stop => simp [State.WireKept, State.requestStop]
  | _ => simp [State.WireKept]

theorem HostTo.wireKept (h : HostTo s t) : s.WireKept t := by
  cases h with
  | stays | reports | rejects | decides => exact .refl s
  | runs _ _ _ _ _ _ _ ht => exact ht.wireKept
  | compiles _ _ _ _ _ ht =>
    cases ht with
    | reports => exact .refl s
    | issues _ _ hu => exact hu.wireKept

theorem RlTo.wireKept (h : RlTo s t) : s.WireKept t := by
  cases h with
  | stays | begins | held | sleeps | halts => exact .refl s
  | offers _ _ g event =>
    rcases rlOffer_cases (s.raiseOpt event) g with k | k | ⟨-, k⟩ <;> simp [State.WireKept, k]
  | moves =>
    obtain ⟨n, p, -, hnext⟩ := rlNext_eq s
    simp [State.WireKept, hnext]
  | ends => simp [State.WireKept, rlEnd]

/-- No agent but the wire engine makes a wire event. -/
theorem takeTurn_wireKept {turn : Turn} (hturn : turn ≠ .wt) (h : takeTurn turn s = .next t) : s.WireKept t := by
  cases turn with
  | host => exact (hostTurn_next h).wireKept
  | rl => exact (rlStep_next h).wireKept
  | wt => exact absurd rfl hturn
  | wake =>
    cases h
    rcases timerWake_cases s with k | ⟨-, k⟩ <;> rw [k] <;> exact .refl s
  | gpio off w => cases h; simp [State.WireKept]

/-! ### The wire engine -/

theorem State.pinEvent_lines (s : State) (l : Line) (v : Bool) :
    (s.pinEvent l v).lines = s.lines.set l (Level.ofBool v) := congrArg State.lines (s.pinEvent_explicit l v)

theorem WtTo.wireKept_of_free (h : WtTo s t) (hf : s.fph = .fIdle) : s.WireKept t := by
  cases h with
  | stays | reads => exact .refl s
  | frame hbusy => exact absurd hf hbusy
  | completes hlast => simp [hf] at hlast
  | writes _ _ _ _ r hr => simp [State.WireKept, dirWrite_eq hr]
  | ready => simp [State.WireKept, initDone, dirWrite_eq (r := s.cfg.dinPin) (s.cfg.toParams.row_mem .din)]

/-- An initialisation makes no wire event (41_wire_transport R101). -/
theorem initStep_wireKept (hf : s.fph = .fIdle) : s.WireKept (initStep s) := (initStep_to hf).wireKept_of_free hf

/-- CLK is cleared on the way into the bit's rows, which issue events of DIN and delays until CLK rises
(41_wire_transport R105). -/
theorem wtStep_clkLowInBit (h : s.ClkLowInBit) : (wtStep s).ClkLowInBit := by
  cases hf : s.fph with
  | fIdle => exact wtStep_free hf ▸ (initStep_wireKept hf).clkLowInBit h
  | fClkLo =>
    rw [wtStep_busy (by simp [hf]), frameStep_clkLo hf]
    exact fun _ => congrArg Lines.clk (s.pinEvent_lines .clk false)
  | fDin =>
    rw [wtStep_busy (by simp [hf]), frameStep_din hf]
    exact fun _ => (congrArg Lines.clk (s.pinEvent_lines .din _)).trans (h (.inl hf))
  | fDly1 =>
    rw [wtStep_busy (by simp [hf]), frameStep_dly1 hf]
    exact fun _ => h (.inr (.inl hf))
  | fDly2 =>
    rw [wtStep_busy (by simp [hf])]
    by_cases hb : s.bitn = 0
    · simp [frameStep_dly2_last hf hb, State.ClkLowInBit]
    · simp [frameStep_dly2 hf hb, State.ClkLowInBit]
  | fLoadR =>
    rw [wtStep_busy (by simp [hf]), frameStep_loadR hf, State.completeFrame_eq]
    simp [State.ClkLowInBit]
  | fLoadA => simp [wtStep_busy, hf, frameStep_loadA hf, State.ClkLowInBit]
  | fClkHi => simp [wtStep_busy, hf, frameStep_clkHi hf, State.ClkLowInBit]
  | fLoadD => simp [wtStep_busy, hf, frameStep_loadD hf, State.ClkLowInBit]

/-- The one row that issues a DIN event is `F_DIN` (41_wire_transport R105). -/
theorem fph_of_wtStep_din {v : Bool} (h : (wtStep s).trace = s.trace ++ [.pin .din v]) : s.fph = .fDin := by
  cases hf : s.fph with
  | fDin => rfl
  | fIdle =>
    obtain ⟨-, htrace, -⟩ := initStep_wireKept hf
    simp [wtStep_free hf, htrace] at h
  | fDly2 =>
    rw [wtStep_busy (by simp [hf])] at h
    by_cases hb : s.bitn = 0
    · simp [frameStep_dly2_last hf hb] at h
    · simp [frameStep_dly2 hf hb] at h
  | fLoadR =>
    rw [wtStep_busy (by simp [hf]), frameStep_loadR hf, State.completeFrame_eq] at h
    simp at h
  | fLoadA => simp [wtStep_busy, hf, frameStep_loadA hf] at h
  | fClkLo => simp [wtStep_busy, hf, frameStep_clkLo hf] at h
  | fDly1 => simp [wtStep_busy, hf, frameStep_dly1 hf] at h
  | fClkHi => simp [wtStep_busy, hf, frameStep_clkHi hf] at h
  | fLoadD => simp [wtStep_busy, hf, frameStep_loadD hf] at h

end

/-- Settles O32: a turn of the wire engine by the rows of its table, any other turn by its making no wire event. -/
theorem dinChangesOnlyWhileClkLow : Obligations.DinChangesOnlyWhileClkLow := by
  intro s t hs h
  rw [step_eq] at h
  have hs' : s.afterTurn.ClkLowInBit := by simpa [State.ClkLowInBit] using hs
  by_cases hturn : s.nextTurn = .wt
  · rw [hturn] at h
    cases h
    refine ⟨wtStep_clkLowInBit hs', fun v hv => hs (.inl ?_)⟩
    rw [← s.afterTurn_trace] at hv
    exact s.afterTurn_fph.symm.trans (fph_of_wtStep_din hv)
  · have hkept := takeTurn_wireKept hturn h
    refine ⟨hkept.clkLowInBit hs', fun v hv => ?_⟩
    obtain ⟨-, htrace, -⟩ := hkept
    simp [htrace] at hv

end Sys2Proof.Machine
end

section
/-! PROOFS. The boot (O53): the answer to `WT.INIT`, and the turn in which the host reads it. -/

namespace Sys2Proof.Machine

section

variable {s u : State} {ms rest : List HostMove}

/-- A session that is not uninitialised refuses `WT.INIT`, destroyed or not (30_encoding R69). -/
theorem exec_wtInit_refused (hs : s.sess ≠ .uninit) : exec .wtInit s = .next (s.refuse (.badState (some 0x01))) := by
  by_cases hd : s.sess = .destroyed
  · exact exec_closed hd .wtInit
  · exact exec_wtInit_again hd hs

/-- The turn in which the host reads a response: an event leaves out the moves that depend on it. -/
theorem takeTurn_decides (hw : s.hostWaiting = false) (hq : s.hostq = .stopIfFailed ms.length :: (ms ++ rest))
    {rs : List Word16} {event : Option Diag} (hr : s.responses = rs ++ [response event 0]) :
    takeTurn .host s = .next { s with hostq := if event.isSome then rest else ms ++ rest } := by
  refine (hostTurn_stopIfFailed hw hq).trans (congrArg _ ?_)
  have hanswer := State.errorAnswered_response hr
  cases event with
  | none => rw [decideTurn_ok hanswer, hq]; rfl
  | some e => rw [decideTurn_failed hanswer, hq, List.tail_cons, List.drop_left]; rfl

/-- The six accesses of an initialisation answer `WT.INIT` and leave the host free (41_wire_transport R101). -/
theorem runTurns_initialises (hf : s.fph = .fIdle) (hi : s.iph = .readLoad1) :
    ∃ t, runTurns (List.replicate 6 .wt) s = .next t ∧ t.hostWaiting = false ∧ t.hostq = s.hostq ∧ t.sess = .ready ∧
      t.wst = .ready ∧ t.responses = s.responses ++ [response none 0] ∧ t.diag = s.diag := by
  have hframe := State.directedAll_frame s [.load, .clk, .din]
  refine ⟨_, (runTurns_wt 6 s).trans (congrArg _ (wtStep_six hf hi)), ?_⟩
  rw [hframe]
  exact ⟨by simp [initDone, State.hostWaiting, State.wtBusy, hf], rfl, rfl, rfl, rfl, rfl⟩

variable (hw : s.hostWaiting = false)
  (hq : s.hostq = commandMove .wtInit :: .stopIfFailed ms.length :: (ms ++ rest))

include hw hq

theorem takeTurn_boot : takeTurn .host s = exec .wtInit s :=
  (hostTurn_present hw hq).trans (present_ok (decodeRequest_encode rfl) s)

/-- A boot whose `WT.INIT` is answered at once: two turns of the host. -/
theorem runTurns_boot {event : Option Diag} (hu : s.SamePort u) (h : exec .wtInit s = .next (u.finish event 0)) :
    runTurns [.host, .host] s =
      .next { u.finish event 0 with hostq := if event.isSome then rest else ms ++ rest } := by
  have hq' : (u.finish event 0).hostq = .stopIfFailed ms.length :: (ms ++ rest) := by
    rw [State.finish_hostq, hu.1, hq, List.tail_cons]
  have hdecides := takeTurn_decides ((u.finish_hostWaiting event 0).trans (hu.hostWaiting.trans hw)) hq'
    (u.finish_responses event 0)
  rw [runTurns_cons ((takeTurn_boot hw hq).trans h), runTurns_cons hdecides, runTurns_nil]

/-- A boot under MMIO: the six accesses of the initialisation stand between the host's two turns. -/
theorem runTurns_boot_mmio (hs : s.sess = .uninit) (hd : s.nextInitOk = true) (hb : s.cfg.backend = .mmio)
    (hf : s.fph = .fIdle) :
    ∃ t, runTurns (.host :: List.replicate 6 .wt ++ [.host]) s = .next t ∧ t.hostq = ms ++ rest ∧ t.sess = .ready ∧
      t.wst = .ready ∧ t.responses = s.responses ++ [0x0000#16] ∧ t.diag = s.diag := by
  have hinit := (exec_wtInit_uninit (by simp [hs]) hs).trans (congrArg _ (State.acceptInit_mmio hd hb))
  obtain ⟨t, hrun, hfree, hmoves, hsess, hwst, hanswer, hdiag⟩ :=
    runTurns_initialises (s := { s.afterInitOk.accept with iph := .readLoad1 }) (by simp [hf]) rfl
  have hresponses : t.responses = s.responses ++ [response none 0] := by simpa using hanswer
  have hdecides : takeTurn .host t = .next { t with hostq := ms ++ rest } :=
    takeTurn_decides hfree (hmoves.trans (by simp [hq])) hresponses
  refine ⟨{ t with hostq := ms ++ rest }, ?_, rfl, hsess, hwst, by rw [hresponses, response_ok], hdiag.trans (by simp)⟩
  rw [List.cons_append, runTurns_cons ((takeTurn_boot hw hq).trans hinit), runTurns_append hrun,
    runTurns_cons hdecides, runTurns_nil]

end

/-- Settles O53, by the answers to `WT.INIT`. -/
theorem bootStopsIfInitFails : Obligations.BootStopsIfInitFails := by
  intro s scanLimit intensity text rest hw hq
  have hrun {u : State} {event : Option Diag} := runTurns_boot (u := u) (event := event) hw hq
  refine ⟨fun hs hd => ?fails, fun hs => ?refused, ?succeeds⟩
  case fails =>
    rw [hrun (by simp [State.SamePort, State.abortInit]) ((exec_wtInit_uninit (by simp [hs]) hs).trans
      (congrArg _ (State.acceptInit_fails hd))), State.finish_some, response_initializationFailure]
    simp [State.abortInit]
  case refused =>
    rw [hrun ⟨rfl, rfl, rfl, rfl, rfl, rfl⟩ (exec_wtInit_refused hs), State.finish_some, response_badState]
    rfl
  case succeeds =>
    rintro _ rfl
    refine ⟨fun hs hd hb => ?devnode, fun hs hd hb hf => runTurns_boot_mmio hw hq hs hd hb hf⟩
    rw [hrun (by simp [State.SamePort]) ((exec_wtInit_uninit (by simp [hs]) hs).trans
      (congrArg _ (State.acceptInit_devnode hd hb))), State.finish_none, response_ok, ← s.afterInitOk_responses]
    rfl

end Sys2Proof.Machine
end

section
/-! PROOFS. The registers the spec leaves unspecified at reset do not matter (O48). No rule reads one of them where two
states that are the same but for them may differ: first the operations, then the turns, each as a step of both
states. -/

namespace Sys2Proof.Machine

section

variable {s t s' : State}

/-! ### Two states that differ in unread registers only -/

/-- Two such states are one state with other values in the six registers. -/
theorem SameButUnread.exists_eq (h : SameButUnread s t) : ∃ pos idx sh bitn fown ftmp,
    t = { s with pos := pos, idx := idx, sh := sh, bitn := bitn, fown := fown, ftmp := ftmp } :=
  ⟨_, _, _, _, _, _, h.1⟩

section

variable (h : SameButUnread s t)

include h

theorem SameButUnread.position (hr : s.rph = .rIssue ∨ s.rph = .rWait ∨ s.rph = .rNext) :
    t.pos = s.pos ∧ t.idx = s.idx := by
  obtain ⟨-, hposition, -, -⟩ := h
  exact hposition hr

theorem SameButUnread.frame (hf : s.fph ≠ .fIdle) :
    t.sh = s.sh ∧ t.bitn = s.bitn ∧ t.fown = s.fown := by
  obtain ⟨-, -, hframe, -⟩ := h
  exact hframe hf

theorem SameButUnread.ftmp_eq
    (hi : s.iph = .writeLoad2 ∨ s.iph = .writeClk4 ∨ s.iph = .writeDin6) : t.ftmp = s.ftmp := by
  obtain ⟨-, -, -, hftmp⟩ := h
  exact hftmp hi

theorem SameButUnread.cfg_eq : t.cfg = s.cfg := by rw [h.1]
theorem SameButUnread.rph_eq : t.rph = s.rph := by rw [h.1]
theorem SameButUnread.fph_eq : t.fph = s.fph := by rw [h.1]
theorem SameButUnread.iph_eq : t.iph = s.iph := by rw [h.1]
theorem SameButUnread.wst_eq : t.wst = s.wst := by rw [h.1]
theorem SameButUnread.stopReq_eq : t.stopReq = s.stopReq := by rw [h.1]
theorem SameButUnread.hostq_eq : t.hostq = s.hostq := by rw [h.1]

theorem SameButUnread.hostWaiting : t.hostWaiting = s.hostWaiting := by
  have hframe := h.frame
  obtain ⟨_, _, _, _, _, _, rfl⟩ := h.exists_eq
  by_cases hf : s.fph = .fIdle
  · simp [State.hostWaiting, State.wtBusy, hf]
  · obtain ⟨-, -, ho⟩ := hframe hf
    subst ho
    rfl

theorem SameButUnread.nextTurn : t.nextTurn = s.nextTurn := by
  obtain ⟨_, _, _, _, _, _, rfl⟩ := h.exists_eq
  rfl

theorem SameButUnread.active : t.active = s.active := by
  obtain ⟨_, _, _, _, _, _, rfl⟩ := h.exists_eq
  rfl

theorem SameButUnread.shadow : t.shadow = s.shadow := by
  obtain ⟨_, _, _, _, _, _, rfl⟩ := h.exists_eq
  rfl

theorem SameButUnread.nextXfail : t.nextXfail = s.nextXfail := by
  obtain ⟨_, _, _, _, _, _, rfl⟩ := h.exists_eq
  rfl

/-! ### The operations -/

theorem SameButUnread.raiseOpt (e : Option Diag) :
    SameButUnread (s.raiseOpt e) (t.raiseOpt e) := by
  obtain ⟨_, _, _, _, _, _, rfl⟩ := h.exists_eq
  cases e <;> exact ⟨rfl, h.2⟩

theorem SameButUnread.finish (e : Option Diag) (v : Byte) :
    SameButUnread (s.finish e v) (t.finish e v) := by
  obtain ⟨_, _, _, _, _, _, rfl⟩ := h.exists_eq
  cases e <;> exact ⟨rfl, h.2⟩

theorem SameButUnread.afterTurn : SameButUnread s.afterTurn t.afterTurn := by
  obtain ⟨_, _, _, _, _, _, rfl⟩ := h.exists_eq
  unfold State.afterTurn
  cases s.sched <;> exact ⟨rfl, h.2⟩

theorem SameButUnread.afterInitOk : SameButUnread s.afterInitOk t.afterInitOk := by
  obtain ⟨_, _, _, _, _, _, rfl⟩ := h.exists_eq
  unfold State.afterInitOk
  cases s.initOkIn <;> exact ⟨rfl, h.2⟩

theorem SameButUnread.afterXfail : SameButUnread s.afterXfail t.afterXfail := by
  obtain ⟨_, _, _, _, _, _, rfl⟩ := h.exists_eq
  unfold State.afterXfail
  cases s.xfailIn <;> exact ⟨rfl, h.2⟩

theorem SameButUnread.setBank (k : Bool) (b : Bank) :
    SameButUnread (s.setBank k b) (t.setBank k b) := by
  obtain ⟨_, _, _, _, _, _, rfl⟩ := h.exists_eq
  cases k <;> exact ⟨rfl, h.2⟩

/-- The sequencer changes its phase, into a position only from one. -/
theorem SameButUnread.setRph {p : RlPhase}
    (hp : p = .rIssue ∨ p = .rWait ∨ p = .rNext → s.rph = .rIssue ∨ s.rph = .rWait ∨ s.rph = .rNext) :
    SameButUnread { s with rph := p } { t with rph := p } := by
  have hpos := h.position
  obtain ⟨_, _, _, _, _, _, rfl⟩ := h.exists_eq
  exact ⟨rfl, hpos ∘ hp, h.frame, h.ftmp_eq⟩

theorem SameButUnread.haltIdle :
    SameButUnread { s with rph := if s.rph = .rIdle then .rHalted else s.rph }
      { t with rph := if t.rph = .rIdle then .rHalted else t.rph } := by
  have hhalt := h.setRph (p := if s.rph = .rIdle then .rHalted else s.rph) (by split_ifs <;> simp)
  obtain ⟨_, _, _, _, _, _, rfl⟩ := h.exists_eq
  exact hhalt

theorem SameButUnread.requestStop : SameButUnread s.requestStop t.requestStop := by
  have hhalt := h.haltIdle
  obtain ⟨_, _, _, _, _, _, rfl⟩ := h.exists_eq
  exact ⟨rfl, hhalt.2⟩

theorem SameButUnread.abortInit : SameButUnread s.abortInit t.abortInit := by
  have hhalt := h.haltIdle
  obtain ⟨_, _, _, _, _, _, rfl⟩ := h.exists_eq
  exact ⟨rfl, hhalt.2⟩

theorem SameButUnread.closeSession : SameButUnread s.closeSession t.closeSession := by
  have hhalt := h.haltIdle
  obtain ⟨_, _, _, _, _, _, rfl⟩ := h.exists_eq
  exact ⟨rfl, hhalt.2⟩

theorem SameButUnread.sessionReady :
    SameButUnread { s with wst := .ready, sess := .ready } { t with wst := .ready, sess := .ready } := by
  obtain ⟨_, _, _, _, _, _, rfl⟩ := h.exists_eq
  exact ⟨rfl, h.2⟩

theorem SameButUnread.lazyStart : SameButUnread s.lazyStart t.lazyStart := by
  have hstart := h.setRph (p := .rBegin) (by simp)
  obtain ⟨_, _, _, _, _, _, rfl⟩ := h.exists_eq
  unfold State.lazyStart
  dsimp only
  split
  · exact hstart
  · exact h

theorem SameButUnread.commit :
    SameButUnread { s with act := !s.act }.lazyStart { t with act := !t.act }.lazyStart := by
  refine SameButUnread.lazyStart ?_
  obtain ⟨_, _, _, _, _, _, rfl⟩ := h.exists_eq
  exact ⟨rfl, h.2⟩

theorem SameButUnread.accept : SameButUnread s.accept t.accept := by
  obtain ⟨_, _, _, _, _, _, rfl⟩ := h.exists_eq
  exact ⟨rfl, h.2⟩

/-- An initialisation goes on to an access that writes `ftmp` before it is read, or ends. -/
theorem SameButUnread.setIph {p : InitPhase} (hp : ∀ l, p ≠ InitPhase.writing l) :
    SameButUnread { s with iph := p } { t with iph := p } := by
  obtain ⟨_, _, _, _, _, _, rfl⟩ := h.exists_eq
  refine ⟨rfl, h.position, h.frame, ?_⟩
  rintro (k | k | k)
  exacts [absurd k (hp .load), absurd k (hp .clk), absurd k (hp .din)]

/-- A position's registers are written. -/
theorem SameButUnread.setPosition {n n' : BitVec 3} (hn : n' = n) (i : Byte) (p : RlPhase) :
    SameButUnread { s with pos := n, idx := i, rph := p } { t with pos := n', idx := i, rph := p } := by
  obtain ⟨_, _, _, _, _, _, rfl⟩ := h.exists_eq
  exact ⟨rfl, fun _ => ⟨hn, rfl⟩, h.frame, h.ftmp_eq⟩

/-- A frame's registers are written. -/
theorem SameButUnread.setFrame (f : Word16) (o : Owner) (n : BitVec 4) (p : FramePhase) :
    SameButUnread { s with sh := f, fown := o, bitn := n, fph := p }
      { t with sh := f, fown := o, bitn := n, fph := p } := by
  obtain ⟨_, _, _, _, _, _, rfl⟩ := h.exists_eq
  exact ⟨rfl, h.position, fun _ => ⟨rfl, rfl, rfl⟩, h.ftmp_eq⟩

end

/-! ### The commands -/

theorem AsksFrame.exec_eq {i : Instr} {f : Word16} (h : AsksFrame i f) (hs : s.sess ≠ .destroyed) :
    exec i s = sendFrame s f := by
  cases h with
  | wtSend reg val => exact exec_wtSend hs reg val
  | wtWrite2 reg val => exact exec_wtWrite2_pair hs reg val

/-- The cases of `exec_next` say what a command does: the converse. -/
theorem ExecTo.exec_eq {i : Instr} (h : ExecTo s i t) : exec i s = .next t := by
  cases h with
  | closed i hs => exact exec_closed hs i
  | again hs => exact exec_wtInit_again (by simp [hs]) (by simp [hs])
  | initFails hs hd => exact (exec_wtInit_uninit (by simp [hs]) hs).trans (congrArg _ (State.acceptInit_fails hd))
  | initDevnode hs hd hb =>
    exact (exec_wtInit_uninit (by simp [hs]) hs).trans (congrArg _ (State.acceptInit_devnode hd hb))
  | initMmio hs hd hb => exact (exec_wtInit_uninit (by simp [hs]) hs).trans (congrArg _ (State.acceptInit_mmio hd hb))
  | sendHeld i f ha hs hf => exact (ha.exec_eq hs).trans (sendFrame_held hf f)
  | sendNotReady i f ha hs hf hw => exact (ha.exec_eq hs).trans (sendFrame_notReady hf hw f)
  | sendFails i f ha hs hf hw hx => exact (ha.exec_eq hs).trans (sendFrame_fails hf hw hx f)
  | sendStarts i f ha hs hf hw hx => exact (ha.exec_eq hs).trans (sendFrame_starts hf hw hx f)
  | badLength b hs hb => exact exec_wtWrite2_other hs hb
  | closeHeld hs hh =>
    rw [exec_wtClose hs]
    rcases hh with hf | hr
    · exact if_pos (s.wtBusy_iff.mpr hf)
    · rw [if_neg (not_or.mpr hr), ite_self]
  | close hs hf hr =>
    rw [exec_wtClose hs, if_neg (by simp [s.wtBusy_false_iff.mpr hf])]
    exact if_pos hr
  | reset hs => exact exec_sbReset hs
  | appendFull g hs hl => exact exec_sbAppend_full hs g hl
  | append g hs hl => exact exec_sbAppend_room hs g hl
  | orlastEmpty m hs hl => exact exec_sbOrlast_empty hs m hl
  | orlast m hs h0 hl => exact exec_sbOrlast_some hs m h0 hl
  | commitHeld hs hm => exact (exec_sbCommit hs).trans (if_pos hm)
  | commit hs hm => exact (exec_sbCommit hs).trans (if_neg (by simp [hm]))
  | advance a k hs => exact exec_sbAdvance hs a k
  | read a k g event hs hr => exact exec_sbRead_of_readAt hs hr
  | stop hs => exact exec_rlStop hs

/-- A command does the same in both states. -/
theorem ExecTo.sameButUnread {i : Instr} (h : ExecTo s i s') (hst : SameButUnread s t) :
    ∃ t', ExecTo t i t' ∧ SameButUnread s' t' := by
  obtain ⟨pos, idx, sh, bitn, fown, ftmp, rfl⟩ := hst.exists_eq
  cases h with
  | closed i hs => exact ⟨_, .closed i hs, hst.finish _ _⟩
  | again hs => exact ⟨_, .again hs, hst.finish _ _⟩
  | initFails hs hd =>
    exact ⟨_, .initFails hs hd, hst.afterInitOk.abortInit.finish _ _⟩
  | initDevnode hs hd hb => exact ⟨_, .initDevnode hs hd hb, hst.afterInitOk.sessionReady.finish _ _⟩
  | initMmio hs hd hb => exact ⟨_, .initMmio hs hd hb, hst.afterInitOk.accept.setIph fun l => by cases l <;> decide⟩
  | sendHeld i f ha hs hf => exact ⟨_, .sendHeld i f ha hs hf, hst⟩
  | sendNotReady i f ha hs hf hw => exact ⟨_, .sendNotReady i f ha hs hf hw, hst.finish _ _⟩
  | sendFails i f ha hs hf hw hx => exact ⟨_, .sendFails i f ha hs hf hw hx, hst.afterXfail.finish _ _⟩
  | sendStarts i f ha hs hf hw hx =>
    exact ⟨_, .sendStarts i f ha hs hf hw hx, hst.afterXfail.accept.setFrame f .host 15 .fLoadA⟩
  | badLength b hs hb => exact ⟨_, .badLength b hs hb, hst.finish _ _⟩
  | closeHeld hs hh => exact ⟨_, .closeHeld hs hh, hst⟩
  | close hs hf hr => exact ⟨_, .close hs hf hr, hst.closeSession.finish _ _⟩
  | reset hs => exact ⟨_, .reset hs, (hst.setBank _ _).finish _ _⟩
  | appendFull g hs hl => exact ⟨_, .appendFull g hs hl, hst.finish _ _⟩
  | append g hs hl => exact ⟨_, .append g hs hl, (hst.setBank _ _).finish _ _⟩
  | orlastEmpty m hs hl => exact ⟨_, .orlastEmpty m hs hl, hst.finish _ _⟩
  | orlast m hs h0 hl => exact ⟨_, .orlast m hs h0 hl, (hst.setBank _ _).finish _ _⟩
  | commitHeld hs hm => exact ⟨_, .commitHeld hs hm, hst⟩
  | commit hs hm => exact ⟨_, .commit hs hm, hst.commit.finish _ _⟩
  | advance a k hs => exact ⟨_, .advance a k hs, hst.finish _ _⟩
  | read a k g event hs hr => exact ⟨_, .read a k g event hs hr, hst.finish _ _⟩
  | stop hs => exact ⟨_, .stop hs, hst.requestStop.finish _ _⟩

/-! ### The host's turn -/

theorem SameButUnread.goOn (h : SameButUnread s t) (ms : List HostMove) : SameButUnread (s.goOn ms) (t.goOn ms) := by
  obtain ⟨_, _, _, _, _, _, rfl⟩ := h.exists_eq
  exact ⟨rfl, h.2⟩

theorem CompileTo.sameButUnread {c : Compile} (h : CompileTo s c s') (hst : SameButUnread s t) :
    ∃ t', compileTurn t c = .next t' ∧ SameButUnread s' t' := by
  cases h with
  | reports ch hu =>
    exact ⟨_, compileTurn_reports (by rwa [hst.cfg_eq]), (hst.accept.raiseOpt (some _)).goOn _⟩
  | issues hu u hexec =>
    obtain ⟨u', hexec', hu'⟩ := hexec.sameButUnread hst
    have hfull : u'.bufferFullAnswered = u.bufferFullAnswered := by
      obtain ⟨_, _, _, _, _, _, rfl⟩ := hu'.exists_eq
      rfl
    have hcfg := hst.cfg_eq
    have hturn := compileTurn_issues (s := t) (c := c) (by rwa [hcfg])
    rw [hcfg, hst.shadow, hexec'.exec_eq, mapNext_next] at hturn
    refine ⟨_, hturn, ?_⟩
    rw [hfull]
    exact hu'.goOn _

theorem HostTo.sameButUnread (h : HostTo s s') (hst : SameButUnread s t) :
    ∃ t', hostTurn t = .next t' ∧ SameButUnread s' t' := by
  have hw := hst.hostWaiting
  have hq := hst.hostq_eq
  cases h with
  | stays h =>
    rcases h with h | h
    · exact ⟨t, hostTurn_waiting (hw.trans h), hst⟩
    · exact ⟨t, hostTurn_nothing (hq.trans h), hst⟩
  | reports h ch ms k => exact ⟨_, hostTurn_report (hw.trans h) (hq.trans k), hst.accept.raiseOpt (some _)⟩
  | rejects h r ms k e he =>
    have hrej : rejected t e = rejected s e := by
      obtain ⟨_, _, _, _, _, _, rfl⟩ := hst.exists_eq
      cases e <;> rfl
    have hturn := (hostTurn_present (hw.trans h) (hq.trans k)).trans
      ((present_error he t).trans (refuseRequest_eq t e))
    refine ⟨_, hturn, ?_⟩
    rw [hrej]
    exact hst.finish _ _
  | runs h r ms k i hi _ hexec =>
    obtain ⟨t', hexec', ht'⟩ := hexec.sameButUnread hst
    exact ⟨t', (hostTurn_present (hw.trans h) (hq.trans k)).trans ((present_ok hi t).trans hexec'.exec_eq), ht'⟩
  | compiles h c ms k _ hcomp =>
    obtain ⟨t', hcomp', ht'⟩ := hcomp.sameButUnread hst
    exact ⟨t', (hostTurn_compile (hw.trans h) (hq.trans k)).trans hcomp', ht'⟩
  | decides h n ms k =>
    refine ⟨_, hostTurn_stopIfFailed (hw.trans h) (hq.trans k), ?_⟩
    obtain ⟨_, _, _, _, _, _, rfl⟩ := hst.exists_eq
    exact ⟨rfl, hst.2⟩

/-! ### The sequencer's turn -/

theorem SameButUnread.rlBegin (h : SameButUnread s t) : SameButUnread (rlBegin s) (rlBegin t) := by
  have hset := h.setPosition (n := 0) rfl s.active.cursor .rIssue
  obtain ⟨_, _, _, _, _, _, rfl⟩ := h.exists_eq
  exact hset

/-- The frame offered is that of the position, which is read in `ISSUE` only (42_refresh R132). -/
theorem SameButUnread.rlOffer (h : SameButUnread s t) (hr : s.rph = .rIssue) (g : Byte) :
    SameButUnread (rlOffer s g) (rlOffer t g) := by
  have hcfg := h.cfg_eq
  have hwst := h.wst_eq
  obtain ⟨hpos, -⟩ := h.position (.inl hr)
  by_cases hw : s.wst = .ready
  · cases hx : s.nextXfail with
    | true =>
      rw [rlOffer_fails hw hx, rlOffer_fails (hwst.trans hw) (h.nextXfail.trans hx), hcfg, hpos]
      exact (h.afterXfail.raiseOpt (some _)).setRph fun _ => .inl (by simpa using hr)
    | false =>
      rw [rlOffer_starts hw hx, rlOffer_starts (hwst.trans hw) (h.nextXfail.trans hx), hcfg, hpos]
      exact (h.afterXfail.setFrame (frameWord (digitRegister s.cfg.toParams s.pos) g) .rl 15 .fLoadA).setRph
        (p := .rWait) fun _ => .inl (by simpa using hr)
  · rw [rlOffer_notReady hw, rlOffer_notReady (by rwa [hwst]), hcfg, hpos]
    exact (h.raiseOpt (some _)).setRph fun _ => .inl (by simpa using hr)

theorem SameButUnread.rlNext (h : SameButUnread s t) (hr : s.rph = .rNext) :
    SameButUnread (rlNext s) (rlNext t) := by
  obtain ⟨hpos, hidx⟩ := h.position (.inr (.inr hr))
  unfold Machine.rlNext
  simp only [hpos, hidx, h.active]
  split
  · exact (h.raiseOpt _).setPosition (by simpa using hpos) _ _
  · exact (h.raiseOpt _).setPosition rfl _ _

theorem SameButUnread.rlEnd (h : SameButUnread s t) : SameButUnread (rlEnd s) (rlEnd t) := by
  have hset := ((h.setBank s.act { s.active with cursor := (s.active.advance s.active.cursor).1 }).raiseOpt
    (s.active.advance s.active.cursor).2).setRph (p := .rSleep) (by simp)
  obtain ⟨_, _, _, _, _, _, rfl⟩ := h.exists_eq
  exact hset

theorem RlTo.sameButUnread (h : RlTo s s') (hst : SameButUnread s t) :
    ∃ t', rlStep t = .next t' ∧ SameButUnread s' t' := by
  have hrph := hst.rph_eq
  have hfph := hst.fph_eq
  have hstop := hst.stopReq_eq
  cases h with
  | stays hr =>
    refine ⟨t, ?_, hst⟩
    rcases hr with hr | hr | hr
    · exact rlStep_idle (hrph.trans hr)
    · exact rlStep_wait (hrph.trans hr)
    · exact rlStep_halted (hrph.trans hr)
  | begins hr => exact ⟨_, rlStep_begin (hrph.trans hr), hst.rlBegin⟩
  | held hr hf => exact ⟨t, (rlStep_issue (hrph.trans hr)).trans (rlIssue_held (by rwa [hfph])), hst⟩
  | offers hr hf g event hread =>
    have hread' : t.active.readAt t.idx = some (g, event) := by
      rwa [hst.active, (hst.position (.inl hr)).2]
    exact ⟨_, (rlStep_issue (hrph.trans hr)).trans (rlIssue_reads (hfph.trans hf) hread'),
      (hst.raiseOpt event).rlOffer (by simpa using hr) g⟩
  | moves hr => exact ⟨_, rlStep_next_eq (hrph.trans hr), hst.rlNext hr⟩
  | ends hr => exact ⟨_, rlStep_end (hrph.trans hr), hst.rlEnd⟩
  | sleeps hr hs =>
    exact ⟨t, (rlStep_sleep (hrph.trans hr)).trans (congrArg _ (if_neg (by simp [hstop, hs]))), hst⟩
  | halts hr hs =>
    exact ⟨_, (rlStep_sleep (hrph.trans hr)).trans (congrArg _ (if_pos (hstop.trans hs))), hst.setRph (by simp)⟩

theorem SameButUnread.timerWake (h : SameButUnread s t) : SameButUnread (timerWake s) (timerWake t) := by
  have hwake := h.setRph (p := .rBegin) (by simp)
  obtain ⟨_, _, _, _, _, _, rfl⟩ := h.exists_eq
  unfold Machine.timerWake
  dsimp only
  split
  · exact hwake
  · exact h

/-! ### The wire engine's turn -/

/-- Events are issued in a frame, of which both states hold the word and the owner. -/
theorem SameButUnread.issued (h : SameButUnread s t) (hf : s.fph ≠ .fIdle) (es : List WireEvent) (f : FramePhase)
    (n : BitVec 4) : SameButUnread (s.issued es f n) (t.issued es f n) := by
  obtain ⟨hsh, -, hown⟩ := h.frame hf
  obtain ⟨_, _, _, _, _, _, rfl⟩ := h.exists_eq
  exact ⟨rfl, h.position, fun _ => ⟨hsh, rfl, hown⟩, h.ftmp_eq⟩

theorem SameButUnread.loadEvent (h : SameButUnread s t) (hf : s.fph ≠ .fIdle) (b : Bool) :
    SameButUnread (s.loadEvent b) (t.loadEvent b) := by
  obtain ⟨-, hbitn, -⟩ := h.frame hf
  unfold State.loadEvent
  rw [State.issued_pinEvent, State.issued_pinEvent, h.cfg_eq, h.fph_eq, hbitn]
  exact h.issued hf _ _ _

/-- A row of the micro-step table issues one event, which the parameters, the phase, the word and the bit number decide
(41_wire_transport R105). -/
theorem frameStep_row (hf : s.fph ≠ .fIdle) (hl : s.fph ≠ .fLoadR) : ∃ e f n, ∀ u : State, u.cfg = s.cfg →
    u.fph = s.fph → u.sh = s.sh → u.bitn = s.bitn → frameStep u = u.issued [e] f n := by
  have hpin (u : State) (l : Line) (v : Bool) (f : FramePhase) :
      { u.pinEvent l v with fph := f } = u.issued [.pin l v] f u.bitn := by
    rw [State.issued_pinEvent]
    rfl
  cases hp : s.fph with
  | fIdle => exact absurd hp hf
  | fLoadR => exact absurd hp hl
  | fLoadA =>
    exact ⟨.pin .load s.cfg.loadAssertLevel, .fClkLo, s.bitn, fun u hc hu _ hn => by
      rw [frameStep_loadA hu, ← hc, ← hn]; exact hpin u .load _ _⟩
  | fClkLo =>
    exact ⟨.pin .clk false, .fDin, s.bitn, fun u _ hu _ hn => by rw [frameStep_clkLo hu, ← hn, hpin]⟩
  | fDin =>
    exact ⟨.pin .din (s.sh.getLsbD s.bitn.toNat), .fDly1, s.bitn, fun u _ hu hs hn => by
      rw [frameStep_din hu, ← hs, ← hn, hpin]⟩
  | fDly1 =>
    exact ⟨.delay, .fClkHi, s.bitn, fun u _ hu _ hn => by
      rw [frameStep_dly1 hu, ← hn, ← State.issued_delayEvent]; rfl⟩
  | fClkHi =>
    exact ⟨.pin .clk true, .fDly2, s.bitn, fun u _ hu _ hn => by rw [frameStep_clkHi hu, ← hn, hpin]⟩
  | fDly2 =>
    by_cases hb : s.bitn = 0
    · exact ⟨.delay, .fLoadD, s.bitn, fun u _ hu _ hn => by
        rw [frameStep_dly2_last hu (hn.trans hb), ← hn, ← State.issued_delayEvent]; rfl⟩
    · exact ⟨.delay, .fClkLo, s.bitn - 1, fun u _ hu _ hn => by
        rw [frameStep_dly2 hu (by rwa [hn]), hn, State.issued_delayEvent]⟩
  | fLoadD =>
    exact ⟨.pin .load (!s.cfg.loadAssertLevel), .fLoadR, s.bitn, fun u hc hu _ hn => by
      rw [frameStep_loadD hu, ← hc, ← hn]; exact hpin u .load _ _⟩

/-- A frame ends: the sequencer, if it owns the frame, waited for it, and knew its position (42_refresh R133). -/
theorem SameButUnread.completeFrame (h : SameButUnread s t) (hf : s.fph ≠ .fIdle)
    (hw : s.fown = .rl → s.rph = .rWait) : SameButUnread s.completeFrame t.completeFrame := by
  obtain ⟨hsh, -, hown⟩ := h.frame hf
  have hpos := h.position
  obtain ⟨_, _, _, _, _, _, rfl⟩ := h.exists_eq
  dsimp only at hsh
  subst hsh
  cases ho : s.fown with
  | host =>
    rw [completeFrame_host ho, completeFrame_host (hown.trans ho)]
    exact ⟨rfl, hpos, fun k => absurd rfl k, h.ftmp_eq⟩
  | rl =>
    rw [completeFrame_rl ho, completeFrame_rl (hown.trans ho)]
    exact ⟨rfl, fun _ => hpos (.inr (.inl (hw ho))), fun k => absurd rfl k, h.ftmp_eq⟩

theorem SameButUnread.frameStep (h : SameButUnread s t) (hi : s.Inv) (hf : s.fph ≠ .fIdle) :
    SameButUnread (frameStep s) (frameStep t) := by
  have hcfg := h.cfg_eq
  have hfph := h.fph_eq
  obtain ⟨hsh, hbitn, -⟩ := h.frame hf
  by_cases hl : s.fph = .fLoadR
  · rw [frameStep_loadR hl, frameStep_loadR (hfph.trans hl)]
    exact (h.loadEvent hf true).completeFrame (by simpa using hf) fun ho => by
      simpa using hi.waits_iff.mpr ⟨hf, by simpa using ho⟩
  · obtain ⟨e, f, n, hrow⟩ := frameStep_row hf hl
    rw [hrow s rfl rfl rfl rfl, hrow t hcfg hfph hsh hbitn]
    exact h.issued hf _ _ _

/-- A pin's register is read into `ftmp`. -/
theorem SameButUnread.dirRead (h : SameButUnread s t) (r : PinRow) (p : InitPhase) :
    SameButUnread { dirRead s r with iph := p } { dirRead t r with iph := p } := by
  obtain ⟨_, _, _, _, _, _, rfl⟩ := h.exists_eq
  exact ⟨rfl, h.position, h.frame, fun _ => rfl⟩

theorem SameButUnread.dirWrite (h : SameButUnread s t) (hftmp : t.ftmp = s.ftmp) {r : PinRow} (hr : r ∈ s.cfg.pins) :
    SameButUnread (dirWrite s r) (dirWrite t r) := by
  obtain ⟨_, _, _, _, _, _, rfl⟩ := h.exists_eq
  dsimp only at hftmp
  subst hftmp
  rw [dirWrite_eq hr, dirWrite_eq (by exact hr)]
  exact ⟨rfl, h.2⟩

theorem SameButUnread.endDirection (h : SameButUnread s t) (l : Line) :
    SameButUnread (s.endDirection l) (t.endDirection l) := by
  cases l with
  | load | clk => exact h.setIph fun m => by cases m <;> decide
  | din =>
    have hdone := h.sessionReady.setIph (p := .none0) fun m => by cases m <;> decide
    obtain ⟨_, _, _, _, _, _, rfl⟩ := h.exists_eq
    exact ⟨rfl, hdone.2⟩

theorem SameButUnread.wtStep_writing (h : SameButUnread s t) (hf : s.fph = .fIdle) {l : Line}
    (hl : s.iph = InitPhase.writing l) : SameButUnread (wtStep s) (wtStep t) := by
  have hcfg := h.cfg_eq
  have hfph := h.fph_eq
  have hiph := h.iph_eq
  rw [Machine.wtStep_writing hf hl, Machine.wtStep_writing (hfph.trans hf) (hiph.trans hl), hcfg]
  refine (h.dirWrite (h.ftmp_eq ?_) (s.cfg.toParams.row_mem l)).endDirection l
  rw [hl]
  cases l <;> simp [InitPhase.writing]

theorem SameButUnread.wtStep_reading (h : SameButUnread s t) (hf : s.fph = .fIdle) {l : Line}
    (hl : s.iph = InitPhase.reading l) : SameButUnread (wtStep s) (wtStep t) := by
  have hcfg := h.cfg_eq
  have hfph := h.fph_eq
  have hiph := h.iph_eq
  rw [Machine.wtStep_reading hf hl, Machine.wtStep_reading (hfph.trans hf) (hiph.trans hl), hcfg]
  exact h.dirRead _ _

theorem SameButUnread.wtStep (h : SameButUnread s t) (hi : s.Inv) : SameButUnread (wtStep s) (wtStep t) := by
  have hfph := h.fph_eq
  have hiph := h.iph_eq
  by_cases hf : s.fph = .fIdle
  · cases hl : s.iph with
    | none0 =>
      rw [wtStep_free hf, wtStep_free (hfph.trans hf), initStep_none hl, initStep_none (hiph.trans hl)]
      exact h
    | readLoad1 => exact h.wtStep_reading (l := .load) hf hl
    | writeLoad2 => exact h.wtStep_writing (l := .load) hf hl
    | readClk3 => exact h.wtStep_reading (l := .clk) hf hl
    | writeClk4 => exact h.wtStep_writing (l := .clk) hf hl
    | readDin5 => exact h.wtStep_reading (l := .din) hf hl
    | writeDin6 => exact h.wtStep_writing (l := .din) hf hl
  · rw [wtStep_busy hf, wtStep_busy (by rwa [hfph])]
    exact h.frameStep hi hf

/-! ### The step -/

theorem SameButUnread.otherGpioWrite (h : SameButUnread s t) (off : Nat) (w : Word32) :
    SameButUnread (s.otherGpioWrite off w) (t.otherGpioWrite off w) := by
  obtain ⟨_, _, _, _, _, _, rfl⟩ := h.exists_eq
  unfold State.otherGpioWrite
  dsimp only
  split_ifs <;> exact ⟨rfl, h.2⟩

theorem SameButUnread.takeTurn (h : SameButUnread s t) (hi : s.Inv) {turn : Turn} (hs : takeTurn turn s = .next s') :
    ∃ t', takeTurn turn t = .next t' ∧ SameButUnread s' t' := by
  cases turn with
  | host => exact (hostTurn_next hs).sameButUnread h
  | rl => exact (rlStep_next hs).sameButUnread h
  | wt => cases hs; exact ⟨_, rfl, h.wtStep hi⟩
  | wake => cases hs; exact ⟨_, rfl, h.timerWake⟩
  | gpio off w => cases hs; exact ⟨_, rfl, h.otherGpioWrite off w⟩

theorem SameButUnread.step (h : SameButUnread s t) (hi : s.Inv) (hs : step s = .next s') :
    ∃ t', step t = .next t' ∧ SameButUnread s' t' := by
  rw [step_eq] at hs ⊢
  rw [h.nextTurn]
  exact h.afterTurn.takeTurn hi.afterTurn hs

end

/-- Settles O48: whatever one state's step does the other's does, and under the invariant neither stops. -/
theorem unspecifiedRegistersDoNotMatter : Obligations.UnspecifiedRegistersDoNotMatter := by
  intro s t hi h
  obtain ⟨s', hs⟩ := noStepStops s hi
  obtain ⟨t', ht, -⟩ := h.step hi hs
  exact ⟨fun _ => h.step hi, fun r => by simp [hs, ht], fun r => by simp [hs, ht]⟩

end Sys2Proof.Machine
end
